-- ==== Sys2Proof/Word.lean ====
section
/-! DEFINITION. The words of the block, its three axes, and the two formats in which an instruction arrives. -/

namespace Sys2Proof

/-- A register index of a device (00_scope.md R8, ADDR_W). -/
abbrev Addr := BitVec 7
/-- A data word (00_scope.md R8, DATA_W). -/
abbrev Word := BitVec 32
/-- A host command word, format CMD48 (30_encoding.md R110). -/
abbrev Command := BitVec 48
/-- A wire datagram, format DG40, or the 40 bits received in exchange (30_encoding.md R113, R114). -/
abbrev Datagram := BitVec 40
/-- The stored or shown telemetry of one axis (10_state.md R44). -/
abbrev Telemetry := BitVec 25

/-- The three axis ids (00_scope.md R8, NAXES). -/
inductive Axis where
  | a0
  | a1
  | a2
  deriving DecidableEq, Repr, Inhabited

/-- An instruction as it arrives: a host command or a bare datagram (30_encoding.md, its two encodings). -/
inductive RawInstr where
  | cmd48 (w : Command)
  | dg40 (w : Datagram)
  deriving DecidableEq, Repr

end Sys2Proof
end

