-- ==== Sys2Proof/Syntax.lean ====
section
/-! DEFINITION. The instructions: one constructor per row of spec/opcode_table.json, with the fields the
instruction reads (30_encoding.md R111; fields it ignores, R112, are not kept). `axis` keeps all four
values of its field, since 3 is a legal word whose op fails with BAD_AXIS (R116, R117). -/

namespace Sys2Proof

inductive Instr where
  /-- op 0 (40_transaction.md R160) -/
  | nop
  /-- op 1 (R162) -/
  | xfer (axis : BitVec 2) (w : Bool) (addr : Addr) (data : Word)
  /-- op 2 (R164) -/
  | write (axis : BitVec 2) (addr : Addr) (data : Word)
  /-- op 3 (R166) -/
  | wrnz (axis : BitVec 2) (addr : Addr) (data : Word)
  /-- op 4 (R170) -/
  | read (axis : BitVec 2) (addr : Addr)
  /-- op 5 (41_status_decode.md R210) -/
  | poll (axis : BitVec 2)
  /-- op 6 (R211) -/
  | pollsg (axis : BitVec 2)
  /-- op 7 (R212) -/
  | pollsw (axis : BitVec 2)
  /-- op 8 (42_axis_control.md R240) -/
  | vel (axis : BitVec 2) (d : Bool) (data : Word)
  /-- op 9 (R250) -/
  | pwr (axis : BitVec 2) (d : Bool)
  /-- op 10 (R251) -/
  | swap (axis : BitVec 2) (d e : Bool)
  /-- op 11 (R252) -/
  | swpol (axis : BitVec 2) (d e : Bool)
  /-- op 12 (R254) -/
  | flags (axis : BitVec 2) (data : BitVec 3)
  /-- op 13 (43_joystick_filter.md R300) -/
  | joycfg (axis : BitVec 2) (d e : Bool)
  /-- op 14 (30_encoding.md R117) -/
  | reserved14
  /-- op 15 (R117) -/
  | reserved15
  /-- a datagram with W = 1 (R113) -/
  | dgWrite (addr : Addr) (data : Word)
  /-- a datagram with W = 0 (R113) -/
  | dgRead (addr : Addr) (data : Word)
  deriving DecidableEq, Repr

end Sys2Proof
end

