-- ==== Sys2Proof/Decode.lean ====
section
/-! DEFINITION. Decoding and encoding of host commands (CMD48) and wire datagrams (DG40): 30_encoding.md
R110–R125. -/

namespace Sys2Proof

/-! ### Fields (R110, R113) -/

/-- Bits 47:44. -/
def opField (w : Command) : BitVec 4 := w.extractLsb' 44 4
/-- Bits 43:42. -/
def axisField (w : Command) : BitVec 2 := w.extractLsb' 42 2
/-- Bit 41. -/
def dField (w : Command) : Bool := w.getLsbD 41
/-- Bit 40. -/
def eField (w : Command) : Bool := w.getLsbD 40
/-- Bit 39. -/
def wField (w : Command) : Bool := w.getLsbD 39
/-- Bits 38:32. -/
def addrField (w : Command) : Addr := w.extractLsb' 32 7
/-- Bits 31:0. -/
def dataField (w : Command) : Word := w.extractLsb' 0 32

/-- Datagram bit 39: 1 = write, 0 = read (R113). -/
def dgDir (g : Datagram) : Bool := g.getLsbD 39
/-- Datagram bits 38:32. -/
def dgAddr (g : Datagram) : Addr := g.extractLsb' 32 7
/-- Datagram bits 31:0. -/
def dgData (g : Datagram) : Word := g.extractLsb' 0 32

/-! ### Decoding (R111, R116, R125) -/

/-- The op of R111 with its fields. Total on the 2^48 words; ops 14 and 15 and axis 3 decode to
instructions whose meaning is the failure R125 names. -/
def decodeCommand (w : Command) : Instr :=
  let axis := axisField w
  let d := dField w
  let e := eField w
  let addr := addrField w
  let data := dataField w
  match (opField w).toNat with
  | 0 => .nop
  | 1 => .xfer axis (wField w) addr data
  | 2 => .write axis addr data
  | 3 => .wrnz axis addr data
  | 4 => .read axis addr
  | 5 => .poll axis
  | 6 => .pollsg axis
  | 7 => .pollsw axis
  | 8 => .vel axis d data
  | 9 => .pwr axis d
  | 10 => .swap axis d e
  | 11 => .swpol axis d e
  | 12 => .flags axis (data.extractLsb' 0 3)
  | 13 => .joycfg axis d e
  | 14 => .reserved14
  | _ => .reserved15

/-- "every one of the 2^40 datagram values is a legal transaction" (R117). -/
def decodeDatagram (g : Datagram) : Instr :=
  if dgDir g then .dgWrite (dgAddr g) (dgData g) else .dgRead (dgAddr g) (dgData g)

/-- Decoding of either format. -/
def decode : RawInstr → Instr
  | .cmd48 w => decodeCommand w
  | .dg40 g => decodeDatagram g

/-- What R125 says of a command word before it executes. -/
inductive CommandVerdict where
  /-- R125 item 1 -/
  | illegalOp
  /-- R125 item 2 -/
  | badAxis
  /-- R125 item 3 -/
  | op (i : Instr)
  deriving DecidableEq, Repr

/-- R125 word for word. -/
def commandVerdict (w : Command) : CommandVerdict :=
  if opField w = 14#4 ∨ opField w = 15#4 then .illegalOp
  else if opField w ≠ 0#4 ∧ axisField w = 3#2 then .badAxis
  else .op (decodeCommand w)

/-- Why a string of bits is no instruction. -/
inductive DecodeError where
  /-- neither 40 nor 48 bits (R118: there is no other length) -/
  | badLength (nbits : Nat)
  deriving DecidableEq, Repr

/-- Decode `nbits` bits numbered as spec/opcode_table.json numbers them; the two lengths of R118 and no other. -/
def decodeSized (nbits w : Nat) : Except DecodeError Instr :=
  if nbits = 48 then .ok (decode (.cmd48 (BitVec.ofNat 48 w)))
  else if nbits = 40 then .ok (decode (.dg40 (BitVec.ofNat 40 w)))
  else .error (.badLength nbits)

/-- The host's question about a row of the opcode table. -/
def decodeTableWord (nbits w : Nat) : Option Instr :=
  match decodeSized nbits w with
  | .ok i => some i
  | .error _ => none

/-! ### Encoding (R113, R121) -/

/-- `enc(op, axis, d, e, w, addr, data)` of R121. -/
def enc (op : BitVec 4) (axis : BitVec 2) (d e w : Bool) (addr : Addr) (data : Word) : Command :=
  op ++ axis ++ BitVec.ofBool d ++ BitVec.ofBool e ++ BitVec.ofBool w ++ addr ++ data

/-- `{W, addr, data}` (R113). -/
def datagram (w : Bool) (addr : Addr) (data : Word) : Datagram :=
  BitVec.ofBool w ++ addr ++ data

/-- The word of an instruction; the assembler writes 0 into every field the op does not read (R120). -/
def encode : Instr → RawInstr
  | .nop => .cmd48 (enc 0 0 false false false 0 0)
  | .xfer axis w addr data => .cmd48 (enc 1 axis false false w addr data)
  | .write axis addr data => .cmd48 (enc 2 axis false false false addr data)
  | .wrnz axis addr data => .cmd48 (enc 3 axis false false false addr data)
  | .read axis addr => .cmd48 (enc 4 axis false false false addr 0)
  | .poll axis => .cmd48 (enc 5 axis false false false 0 0)
  | .pollsg axis => .cmd48 (enc 6 axis false false false 0 0)
  | .pollsw axis => .cmd48 (enc 7 axis false false false 0 0)
  | .vel axis d data => .cmd48 (enc 8 axis d false false 0 data)
  | .pwr axis d => .cmd48 (enc 9 axis d false false 0 0)
  | .swap axis d e => .cmd48 (enc 10 axis d e false 0 0)
  | .swpol axis d e => .cmd48 (enc 11 axis d e false 0 0)
  | .flags axis data => .cmd48 (enc 12 axis false false false 0 (data.setWidth 32))
  | .joycfg axis d e => .cmd48 (enc 13 axis d e false 0 0)
  | .reserved14 => .cmd48 (enc 14 0 false false false 0 0)
  | .reserved15 => .cmd48 (enc 15 0 false false false 0 0)
  | .dgWrite addr data => .dg40 (datagram true addr data)
  | .dgRead addr data => .dg40 (datagram false addr data)

/-- The five bytes of a datagram in the order they go on the wire (20_memory.md R91). -/
def datagramBytes (g : Datagram) : List (BitVec 8) :=
  [g.extractLsb' 32 8, g.extractLsb' 24 8, g.extractLsb' 16 8, g.extractLsb' 8 8, g.extractLsb' 0 8]

end Sys2Proof
end

