-- ==== Sys2Proof/Config.lean ====
section
/-! DEFINITION. The parameters a model takes as arguments (00_scope.md R8), the shape of one transaction's draws,
and the two values no rule fixes. The parameters stand in State as data that no step changes, so that a
statement over all states is a statement over all parameters (log 3). -/

namespace Sys2Proof

/-- The parameters of R8 that the block itself reads. A bit position is one of the 32 bits of its register, and
`drvSgLsb` leaves room for the 10-bit field (log 15). -/
structure Params where
  clkHz : Nat
  sckDiv : Nat
  csSetup : Nat
  csHold : Nat
  csIdle : Nat
  txnTimeout : Nat
  enActiveLow : Bool
  gstatResetBit : Fin 32
  gstatDrverrBit : Fin 32
  gstatUvBit : Fin 32
  drvStstBit : Fin 32
  drvOlbBit : Fin 32
  drvOlaBit : Fin 32
  drvS2gbBit : Fin 32
  drvS2gaBit : Fin 32
  drvOtpwBit : Fin 32
  drvOtBit : Fin 32
  drvSgLsb : Fin 23
  joyDrivenMask : BitVec 3
  fwdSwitchRight : Bool
  deriving DecidableEq, Repr, Inhabited

/-- The defaults of R8. -/
def Params.default : Params where
  clkHz := 16000000
  sckDiv := 4
  csSetup := 2
  csHold := 2
  csIdle := 4
  txnTimeout := 1024
  enActiveLow := true
  gstatResetBit := 0
  gstatDrverrBit := 1
  gstatUvBit := 2
  drvStstBit := 31
  drvOlbBit := 30
  drvOlaBit := 29
  drvS2gbBit := 28
  drvS2gaBit := 27
  drvOtpwBit := 26
  drvOtBit := 25
  drvSgLsb := 0
  joyDrivenMask := 4#3
  fwdSwitchRight := true

/-- The ranges R8 gives: the divider, the select times and the timeout are at least one cycle, and there is a clock. -/
def Params.legal (p : Params) : Bool :=
  decide (1 ≤ p.clkHz) && decide (1 ≤ p.sckDiv) && decide (1 ≤ p.csSetup) && decide (1 ≤ p.csHold) &&
    decide (1 ≤ p.csIdle) && decide (1 ≤ p.txnTimeout)

/-- What the world does in one transaction (60_exceptions.md R350): the ungranted REQ cycles before the grant
(BusGrant), the 40 bits the device drives (Reply), and whether ECHO_UNEXPECTED holds of them. -/
structure Draw where
  wait : Nat
  reply : Datagram
  unexpected : Bool
  deriving DecidableEq, Repr, Inhabited

/-- The draw of a device that answers `reply`, judged by the default predicate of 40_transaction.md R159. -/
def Draw.judged (wait : Nat) (reply : Datagram) : Draw :=
  { wait := wait, reply := reply, unexpected := decide (reply = 0xFFFFFFFFFF#40) }

/-- FREE VALUE: the draw of a transaction for which the state scripts none. Nothing is known of it (R350, log 2). -/
opaque Config.freeDraw : Nat → Draw

/-- FREE VALUE: `PACK_CHOPCONF`, an OPEN function with no default (42_axis_control.md R266). -/
opaque Config.packChopconf : Nat → Word

end Sys2Proof
end

