-- ==== Sys2Proof/Machine/Timing.lean ====
section
/-! DEFINITION. Cycle counts: the sample period (00_scope.md R8) and the length of a transaction
(70_reset_and_hazards.md R395). -/

namespace Sys2Proof.Machine

/-- `SAMPLE_CYCLES = ceil(0.4 × CLK_HZ)` (R8). -/
def sampleCycles (p : Params) : Nat := (2 * p.clkHz + 4) / 5

/-- `T_txn = 1 + g + CS_SETUP + 80·SCK_DIV + CS_HOLD + CS_IDLE` (R395). -/
def grantedCycles (p : Params) (g : Nat) : Nat :=
  1 + g + p.csSetup + 80 * p.sckDiv + p.csHold + p.csIdle

/-- Granted iff fewer than `TXN_TIMEOUT` consecutive REQ cycles went ungranted (40_transaction.md R156, R158). -/
def granted (p : Params) (d : Draw) : Bool := decide (d.wait < p.txnTimeout)

/-- The cycles of one transaction, granted or timed out (R395). -/
def txnCycles (p : Params) (d : Draw) : Nat :=
  if granted p d then grantedCycles p d.wait else p.txnTimeout

end Sys2Proof.Machine
end

