-- ==== Sys2Proof/Machine/State.lean ====
section
/-! DEFINITION. The state: every register of 70_reset_and_hazards.md R371, the three registers the engine's rules
imply, the parameters, and the outside world's coming moves as plain data. -/

namespace Sys2Proof.Machine

/-- `pend[a] = {pv, pw, paddr}` (10_state.md R40). -/
structure Pend where
  pv : Bool
  pw : Bool
  paddr : Addr
  deriving DecidableEq, Repr, Inhabited

/-- The registers of one axis (10_state.md R40–R47, R60–R64). -/
structure AxisRegs where
  pend : Pend
  swapDir : Bool
  swapSw : Bool
  en : Bool
  /-- bits 18, 22, 23 and 24 are not stored (R45) -/
  telDev : Telemetry
  sgRes : BitVec 10
  /-- {homed, posmode, fwd} (R47) -/
  oflags : BitVec 3
  prev : Word
  joyEn : Bool
  joyNext : Word
  joyPend : Bool
  joyCode : BitVec 3
  deriving DecidableEq, Repr, Inhabited

/-- The three copies of the per-axis state. -/
structure Axes where
  a0 : AxisRegs
  a1 : AxisRegs
  a2 : AxisRegs
  deriving DecidableEq, Repr, Inhabited

/-- The response registers and the pulse (R50, R52). -/
structure Response where
  code : BitVec 3
  data : Word
  status : BitVec 8
  prev : BitVec 9
  valid : Bool
  deriving DecidableEq, Repr, Inhabited

/-- The result codes (60_exceptions.md R330). -/
inductive Code where
  | ok
  | busTimeout
  | unexpectedEcho
  | invalidArgument
  | badAxis
  | illegalOp
  deriving DecidableEq, Repr, Inhabited

/-- The triple a transaction returns: result code, 40 bits received, and the `pend` they belong to
(40_transaction.md R158). -/
structure TxnResult where
  code : Code
  rx : Datagram
  prev : Pend
  deriving DecidableEq, Repr, Inhabited

/-- `eng_state`, encoded 0–6 in this order (10_state.md R32). -/
inductive EngState where
  | idle
  | req
  | setup
  | shift
  | hold
  | gap
  | resp
  deriving DecidableEq, Repr, Inhabited

/-- Engine control and datapath registers (R32, R33). `sckHigh`, `dwell` and `last` are registers the rules imply
without naming them (log 8). -/
structure Engine where
  state : EngState
  seqI : Nat
  cur : Command
  /-- false = host, true = filter -/
  curSrc : Bool
  txSr : Datagram
  rxSr : Datagram
  bitCnt : Nat
  divCnt : Nat
  toCnt : Nat
  tmp0 : Word
  tmp1 : Word
  tmp2 : Word
  sckHigh : Bool
  dwell : Nat
  last : TxnResult
  deriving DecidableEq, Repr, Inhabited

/-- One command the host will present on the command port. `wait` counts the cycles with `cmd_ready = 1` it lets pass
first (log 5). -/
structure HostCommand where
  wait : Nat
  word : Command
  deriving DecidableEq, Repr, Inhabited

/-- The values on the joystick port in a cycle with `joy_valid = 1` (43_joystick_filter.md R290). -/
structure Sample where
  v0 : Word
  v1 : Word
  v2 : Word
  deriving DecidableEq, Repr, Inhabited

/-- One strobe of `joy_valid`, after `wait` cycles without one (log 5). -/
structure Strobe where
  wait : Nat
  sample : Sample
  deriving DecidableEq, Repr, Inhabited

/-- The outside world as data: the model's own fields, no register of the block (log 2, 5, 6). -/
structure World where
  hostq : List HostCommand
  /-- the clock cycles before each coming cycle with `rst = 1` -/
  rstq : List Nat
  joyq : List Strobe
  busq : List Draw
  drawCnt : Nat
  dgSlot : Option Datagram
  dgAxis : Axis
  deriving DecidableEq, Repr

/-- The machine. -/
structure State where
  cfg : Params
  axes : Axes
  gateCnt : Nat
  rsp : Response
  eng : Engine
  world : World
  deriving DecidableEq, Repr

/-- No fault exists: "No behaviour of the block faults or sticks" (93_implementation_defined.md, treatments;
60_exceptions.md R337, R350). The type has no constructor, so nothing can raise one. -/
inductive Fault where
  deriving DecidableEq, Repr

/-- Why the model gives an instruction no meaning. -/
inductive Refusal where
  /-- Raised by an arm of `exec` for an instruction that has no meaning yet; no arm uses it. Safe: the model
  stops where the hardware goes on. -/
  | notModelled (mnemonic : String)
  deriving DecidableEq, Repr

/-- `pend[a]` at reset: nothing sent yet (R371). -/
def Pend.reset : Pend := ⟨false, false, 0#7⟩

/-- One axis at reset (R371). -/
def AxisRegs.reset : AxisRegs where
  pend := Pend.reset
  swapDir := false
  swapSw := false
  en := false
  telDev := 0#25
  sgRes := 0#10
  oflags := 0#3
  prev := 0#32
  joyEn := false
  joyNext := 0#32
  joyPend := false
  joyCode := 0#3

/-- The engine at reset (R371; the last three fields: log 8). -/
def Engine.reset : Engine where
  state := .idle
  seqI := 0
  cur := 0#48
  curSrc := false
  txSr := 0#40
  rxSr := 0#40
  bitCnt := 0
  divCnt := 0
  toCnt := 0
  tmp0 := 0#32
  tmp1 := 0#32
  tmp2 := 0#32
  sckHigh := false
  dwell := 0
  last := ⟨.ok, 0#40, Pend.reset⟩

/-- Every register at its reset value (R371), for given parameters and world. -/
def State.resetWith (cfg : Params) (world : World) : State where
  cfg := cfg
  axes := ⟨AxisRegs.reset, AxisRegs.reset, AxisRegs.reset⟩
  gateCnt := sampleCycles cfg - 1
  rsp := ⟨0#3, 0#32, 0#8, 0#9, false⟩
  eng := Engine.reset
  world := world

/-- A world that scripts nothing: no host move, no strobe, every draw free (log 2, 5, 6). That the slot's axis, and so the `pend`
a datagram placed at reset writes, is axis 0 is the model's choice (log 6). -/
def World.silent : World where
  hostq := []
  rstq := []
  joyq := []
  busq := []
  drawCnt := 0
  dgSlot := none
  dgAxis := .a0

/-- The machine right after reset, with the default parameters of R8. -/
def State.reset : State := State.resetWith Params.default World.silent

end Sys2Proof.Machine
end

