-- ==== Sys2Proof/Machine/Operands.lean ====
section
/-! DEFINITION. Operand forms: the axis operand and the command check, magnitudes and signs, the RAMPMODE choice,
the SWMODE word, the addresses of the registers the block names, and the comparator of the filter. -/

namespace Sys2Proof.Machine

/-! ### Registers of a device the block names (20_memory.md R81) -/

def regGSTAT : Addr := 0x01#7
def regRAMPMODE : Addr := 0x20#7
def regVMAX : Addr := 0x27#7
def regSWMODE : Addr := 0x34#7
def regRAMPSTAT : Addr := 0x35#7
def regDRVSTATUS : Addr := 0x6F#7

/-! ### The axis operand and the check -/

/-- Axis ids 0, 1, 2; value 3 names none (30_encoding.md R116). -/
def axisOf (axis : BitVec 2) : Option Axis :=
  match axis.toNat with
  | 0 => some .a0
  | 1 => some .a1
  | 2 => some .a2
  | _ => none

/-- The 2-bit id of an axis. -/
def axisBits : Axis → BitVec 2
  | .a0 => 0#2
  | .a1 => 1#2
  | .a2 => 2#2

/-- `check(cmd)` (60_exceptions.md R331): the failure it raises, or the axis the op goes on with. -/
def check (op : BitVec 4) (axis : BitVec 2) (data : Word) : Except Code Axis :=
  if op = 14#4 ∨ op = 15#4 then .error .illegalOp
  else match axisOf axis with
    | none => .error .badAxis
    | some a => if op = 3#4 ∧ data = 0#32 then .error .invalidArgument else .ok a

/-! ### Magnitude and sign (00_scope.md R9) -/

/-- `|x|` of a signed 32-bit x, as an unsigned 32-bit vector; `|-2^31|` is 0x80000000. -/
def magnitude (x : Word) : Word := if x.msb then -x else x

/-- `x < 0` for a signed 32-bit x. -/
def isNegative (x : Word) : Bool := x.msb

/-- `sgn(x)` (43_joystick_filter.md R294). -/
def sgn (x : Word) : Int := if x.msb then -1 else if x = 0#32 then 0 else 1

/-- `M(x) = zext_36(|x|)` (R294). -/
def magnitude36 (x : Word) : BitVec 36 := (magnitude x).setWidth 36

/-- The comparator `reissue(p, n)` (R294), at 36 bits. -/
def reissueNeeded (p n : Word) : Bool :=
  decide (sgn p ≠ sgn n) ||
    (5#36 * magnitude36 p).ult (4#36 * magnitude36 n) ||
    (4#36 * magnitude36 n).ult (3#36 * magnitude36 p)

/-! ### Values written to devices -/

/-- VelocityNegative or VelocityPositive (20_memory.md R85, 42_axis_control.md R240). -/
def rampMode (rev : Bool) : Word := if rev then 2#32 else 1#32

/-- Whether the forward switch is the right one: the default label, exchanged by `swap_sw[a]`
(10_state.md R42, 42_axis_control.md R252; FWD_SWITCH_RIGHT = 0 exchanges it once more, log 14). -/
def forwardIsRight (p : Params) (swapSw : Bool) : Bool := p.fwdSwitchRight ^^ swapSw

/-- `{tmp0[31:4], rp, lp, tmp0[1:0]}` (R252): `d` is the forward polarity, `e` the backward one. -/
def swmodeWord (p : Params) (swapSw d e : Bool) (v : Word) : Word :=
  let right := forwardIsRight p swapSw
  let rp := if right then d else e
  let lp := if right then e else d
  v.extractLsb' 4 28 ++ BitVec.ofBool rp ++ BitVec.ofBool lp ++ v.extractLsb' 0 2

end Sys2Proof.Machine
end

