-- ==== Sys2Proof/Machine/Flags.lean ====
section
/-! DEFINITION. Status bits: result codes, the pipeline triple as bits, the status bit-slice that turns GSTAT, RAMPSTAT
and DRVSTATUS into telemetry, and the telemetry vector. The block has no condition codes (10_state.md R48). -/

namespace Sys2Proof.Machine

/-- The numbers of the result codes (60_exceptions.md R330). -/
def codeBits : Code → BitVec 3
  | .ok => 0#3
  | .busTimeout => 1#3
  | .unexpectedEcho => 2#3
  | .invalidArgument => 3#3
  | .badAxis => 4#3
  | .illegalOp => 5#3

/-- `{pv, pw, paddr}` (10_state.md R50). -/
def pendBits (p : Pend) : BitVec 9 := BitVec.ofBool p.pv ++ BitVec.ofBool p.pw ++ p.paddr

/-- The status echo of 40 received bits (30_encoding.md R114). -/
def rxStatus (rx : Datagram) : BitVec 8 := rx.extractLsb' 32 8
/-- The reply data of 40 received bits (R114). -/
def rxData (rx : Datagram) : Word := rx.extractLsb' 0 32

/-- A 25-bit vector that is zero except possibly at bit `i`. -/
def telBit (i : Nat) (b : Bool) : Telemetry := if b then 1#25 <<< i else 0#25

/-- `D_G(g)` (41_status_decode.md R201). -/
def decodeGstat (p : Params) (g : Word) : Telemetry :=
  telBit 19 (g.getLsbD p.gstatResetBit) ||| telBit 20 (g.getLsbD p.gstatDrverrBit) |||
    telBit 21 (g.getLsbD p.gstatUvBit)

/-- `D_R(r)` (R202). -/
def decodeRampstat (r : Word) : Telemetry :=
  telBit 0 (r.getLsbD 13) ||| telBit 1 (r.getLsbD 6) ||| telBit 3 (r.getLsbD 8) |||
    telBit 4 (r.getLsbD 9) ||| telBit 5 (r.getLsbD 7) ||| telBit 6 (r.getLsbD 0) |||
    telBit 7 (r.getLsbD 1) ||| telBit 8 (r.getLsbD 4) ||| telBit 9 (r.getLsbD 5) |||
    telBit 10 (r.getLsbD 2) ||| telBit 11 (r.getLsbD 3)

/-- `D_D(v)` (R203). -/
def decodeDrvstatus (p : Params) (v : Word) : Telemetry :=
  telBit 2 (v.getLsbD p.drvStstBit) ||| telBit 12 (v.getLsbD p.drvOlaBit) |||
    telBit 13 (v.getLsbD p.drvOlbBit) ||| telBit 14 (v.getLsbD p.drvS2gaBit) |||
    telBit 15 (v.getLsbD p.drvS2gbBit) ||| telBit 16 (v.getLsbD p.drvOtpwBit) |||
    telBit 17 (v.getLsbD p.drvOtBit)

/-- `SG(v)` (R203). -/
def stallGuard (p : Params) (v : Word) : BitVec 10 := v.extractLsb' p.drvSgLsb 10

/-- `M_G` = bits 19–21 (R201). -/
def maskG : Telemetry := 0x380000#25
/-- `M_R` = bits 0, 1, 3–11 (R202). -/
def maskR : Telemetry := 0x000FFB#25
/-- `M_D` = bits 2, 12–17 (R203). -/
def maskD : Telemetry := 0x03F004#25
/-- `M_SG` = bits 0, 1 (R202). -/
def maskSG : Telemetry := 0x000003#25
/-- `M_SW` = bits 6–11 (R202). -/
def maskSW : Telemetry := 0x000FC0#25
/-- The stored bits of `tel_dev`: 0–17 and 19–21 (10_state.md R45, 41_status_decode.md R204). -/
def maskStored : Telemetry := 0x3BFFFF#25

/-- Replace the bits of `old` under `mask` by those of `new` (R211, R212). -/
def mergeBits (mask old new : Telemetry) : Telemetry := (old &&& ~~~mask) ||| (new &&& mask)

/-- `tel[a]`, element i at bit i (10_state.md R44). -/
def telemetry (x : AxisRegs) : Telemetry :=
  x.oflags ++ x.telDev.extractLsb' 19 3 ++ BitVec.ofBool x.swapDir ++ x.telDev.extractLsb' 0 18

/-- `oflags[a].fwd`, bit 0 (R47). -/
def isForward (x : AxisRegs) : Bool := x.oflags.getLsbD 0
/-- `oflags[a].posmode`, bit 1 (R47). -/
def isPositionMode (x : AxisRegs) : Bool := x.oflags.getLsbD 1
/-- `oflags[a].homed`, bit 2 (R47). -/
def isHomed (x : AxisRegs) : Bool := x.oflags.getLsbD 2

/-- `fwd_level(a)` (42_axis_control.md R253). -/
def forwardLevel (p : Params) (x : AxisRegs) : Bool :=
  if forwardIsRight p x.swapSw then (telemetry x).getLsbD 7 else (telemetry x).getLsbD 6

/-- `bwd_level(a)` (R253). -/
def backwardLevel (p : Params) (x : AxisRegs) : Bool :=
  if forwardIsRight p x.swapSw then (telemetry x).getLsbD 6 else (telemetry x).getLsbD 7

end Sys2Proof.Machine
end

