-- ==== Sys2Proof/Machine/Ops.lean ====
section
/-! DEFINITION. The named operations every meaning is built from: the one home of the per-axis registers, the passing of
clock cycles (in which the joystick filter runs), the transaction `Txn`, the response, and the two failure exits
(the block's only form of taking an exception). -/

namespace Sys2Proof.Machine

/-! ### Per-axis registers -/

/-- `st[a]` for every per-axis register (00_scope.md R9). -/
def State.ax (s : State) : Axis → AxisRegs
  | .a0 => s.axes.a0
  | .a1 => s.axes.a1
  | .a2 => s.axes.a2

/-- Write all per-axis registers of one axis. -/
def State.setAx (s : State) (a : Axis) (x : AxisRegs) : State :=
  match a with
  | .a0 => { s with axes := { s.axes with a0 := x } }
  | .a1 => { s with axes := { s.axes with a1 := x } }
  | .a2 => { s with axes := { s.axes with a2 := x } }

/-- Write the stored telemetry: writes to the bits that are not stored are dropped (10_state.md R45). -/
def withTelDev (x : AxisRegs) (v : Telemetry) : AxisRegs := { x with telDev := v &&& maskStored }

/-! ### The joystick filter, cycle by cycle (43_joystick_filter.md R292, R295) -/

/-- The velocity of one axis in a sample (R290). -/
def sampleOf (v : Sample) : Axis → Word
  | .a0 => v.v0
  | .a1 => v.v1
  | .a2 => v.v2

/-- `JOY_DRIVEN_MASK[a]` (R291). -/
def maskDriven (p : Params) : Axis → Bool
  | .a0 => p.joyDrivenMask.getLsbD 0
  | .a1 => p.joyDrivenMask.getLsbD 1
  | .a2 => p.joyDrivenMask.getLsbD 2

/-- Filter-driven: `joy_en[a] = 1` and `JOY_DRIVEN_MASK[a] = 1` (R291). -/
def driven (s : State) (a : Axis) : Bool := (s.ax a).joyEn && maskDriven s.cfg a

/-- `joy_pend ≠ 3'b000`. -/
def anyPending (s : State) : Bool := s.axes.a0.joyPend || s.axes.a1.joyPend || s.axes.a2.joyPend

/-- The lowest axis whose re-issue waits (R298). -/
def lowestPending (s : State) : Option Axis :=
  if s.axes.a0.joyPend then some .a0
  else if s.axes.a1.joyPend then some .a1
  else if s.axes.a2.joyPend then some .a2
  else none

/-- `gate_open` (R292). -/
def gateOpen (s : State) : Bool := decide (s.gateCnt = 0) && !anyPending s

/-- One axis at an accept (R295). -/
def latchAxis (s : State) (v : Sample) (a : Axis) : AxisRegs :=
  if driven s a && reissueNeeded (s.ax a).prev (sampleOf v a) then
    { s.ax a with joyNext := sampleOf v a, joyPend := true }
  else s.ax a

/-- A sample accept: the gate reloads and every axis compares in parallel (R292, R295). -/
def acceptSample (v : Sample) (s : State) : State :=
  { s with
    gateCnt := sampleCycles s.cfg - 1
    axes := ⟨latchAxis s v .a0, latchAxis s v .a1, latchAxis s v .a2⟩ }

/-- The `rsp_valid` pulse lasts one cycle (10_state.md R52). -/
def endPulse (s : State) : State := { s with rsp := { s.rsp with valid := false } }

/-- What one cycle with `rst = 0` does to the filter and the pulse; `v` is the port when `joy_valid = 1` (R292). -/
def filterCycle (v : Option Sample) (s : State) : State :=
  match v with
  | some v => if gateOpen s then endPulse (acceptSample v s) else endPulse { s with gateCnt := s.gateCnt - 1 }
  | none => endPulse { s with gateCnt := s.gateCnt - 1 }

/-- `n` cycles with `joy_valid = 0`. -/
def coast (n : Nat) (s : State) : State :=
  { s with gateCnt := s.gateCnt - n, rsp := { s.rsp with valid := s.rsp.valid && decide (n = 0) } }

/-- `n` cycles of the filter under a script of strobes; the strobes not yet due stay in `joyq`. -/
def runFilter : List Strobe → Nat → State → State
  | [], n, s => coast n { s with world := { s.world with joyq := [] } }
  | st :: rest, n, s =>
    if st.wait < n then
      runFilter rest (n - st.wait - 1) (filterCycle (some st.sample) (coast st.wait s))
    else
      coast n { s with world := { s.world with joyq := { st with wait := st.wait - n } :: rest } }

/-- The host's next cycle with `rst = 1` comes `n` cycles nearer. -/
def resetNearer (n : Nat) (q : List Nat) : List Nat :=
  match q with
  | [] => []
  | w :: rest => (w - n) :: rest

/-- `n` clock cycles pass: the filter runs beside whatever the engine does (00_scope.md R6, R7; log 4). -/
def passCycles (n : Nat) (s : State) : State :=
  let s := runFilter s.world.joyq n s
  { s with world := { s.world with rstq := resetNearer n s.world.rstq } }

/-! ### The transaction (40_transaction.md R158) -/

/-- The draw of the next transaction: the scripted one, or a free one (60_exceptions.md R350, log 2). -/
def nextDraw (s : State) : Draw :=
  match s.world.busq with
  | d :: _ => d
  | [] => Config.freeDraw s.world.drawCnt

/-- The draw is used up. -/
def dropDraw (s : State) : State :=
  match s.world.busq with
  | _ :: rest => { s with world := { s.world with busq := rest } }
  | [] => { s with world := { s.world with drawCnt := s.world.drawCnt + 1 } }

/-- The code of a transaction that clocked (R158). -/
def echoCode (d : Draw) : Code := if d.unexpected then .unexpectedEcho else .ok

/-- A transaction that was granted: the datagram is clocked out, the reply in, `pend[a]` is written at
chip-select release, and the datapath registers hold what R153–R156 leave in them (log 8). -/
def clockTxn (a : Axis) (w : Bool) (addr : Addr) (data : Word) (d : Draw) (s : State) : State :=
  let s := s.setAx a { s.ax a with pend := ⟨true, w, addr⟩ }
  { s with eng := { s.eng with
      txSr := datagram w addr data
      rxSr := d.reply
      bitCnt := 40
      divCnt := 0
      toCnt := d.wait
      sckHigh := false
      dwell := 0 } }

/-- A transaction that timed out: nothing clocked, `pend[a]` unchanged (R156, R158). -/
def timeoutTxn (s : State) : State := { s with eng := { s.eng with toCnt := s.cfg.txnTimeout } }

/-- The triple `Txn` returns (R158). -/
def txnResult (p : Params) (d : Draw) (pend : Pend) : TxnResult :=
  if granted p d then ⟨echoCode d, d.reply, pend⟩ else ⟨.busTimeout, 0#40, pend⟩

/-- `Txn(a, W, addr, data)` (R158). The result stands in `eng.last`; the cycles it takes pass (70_reset_and_hazards.md R395). -/
def txn (a : Axis) (w : Bool) (addr : Addr) (data : Word) (s : State) : State :=
  let d := nextDraw s
  let r := txnResult s.cfg d (s.ax a).pend
  let s := dropDraw (passCycles (txnCycles s.cfg d) s)
  let s := if granted s.cfg d then clockTxn a w addr data d s else timeoutTxn s
  { s with eng := { s.eng with last := r } }

/-- The last transaction returned OK. -/
def lastOk (s : State) : Bool := decide (s.eng.last.code = .ok)

/-- Go on only if the last transaction returned OK. -/
def ifOk (next : State → State) (s : State) : State := if lastOk s then next s else s

/-- The reply data of the last transaction. -/
def lastData (s : State) : Word := rxData s.eng.last.rx

/-- `rd2(a, addr)`: the two-transaction read (41_status_decode.md §2, 40_transaction.md R170). A read datagram
carries data 0 (30_encoding.md R115). -/
def readTwice (a : Axis) (addr : Addr) (s : State) : State :=
  ifOk (txn a false addr 0#32) (txn a false addr 0#32 s)

/-- Keep the data word just read in `tmp0`. -/
def keepTmp0 (s : State) : State := { s with eng := { s.eng with tmp0 := lastData s } }
/-- Keep the data word just read in `tmp1`. -/
def keepTmp1 (s : State) : State := { s with eng := { s.eng with tmp1 := lastData s } }
/-- Keep the data word just read in `tmp2`. -/
def keepTmp2 (s : State) : State := { s with eng := { s.eng with tmp2 := lastData s } }

/-! ### Starting and ending an op (40_transaction.md R157) -/

/-- The IDLE cycle in which the engine starts an op. -/
def startCycle (s : State) : State := passCycles 1 s

/-- The engine once its op has completed: IDLE, `seq_i` back at 0 (10_state.md R31, R32), and the command no longer stored
(20_memory.md R101). That `cur` and `cur_src`, which then store nothing, read as 0, their reset values, is the model's choice
(log 10); so is that the engine's other registers keep what the op left in them (log 8, log 10). -/
def atRest (e : Engine) : Engine := { e with state := .idle, seqI := 0, cur := 0#48, curSrc := false }

/-- The RESP cycle, after which the engine is at rest (40_transaction.md R157). -/
def respCycle (s : State) : State :=
  let s := passCycles 1 s
  { s with eng := atRest s.eng }

/-- `respond(code, data, status, prev)` (10_state.md R50, R52). -/
def respond (c : Code) (data : Word) (status : BitVec 8) (prev : BitVec 9) (s : State) : State :=
  { s with rsp := ⟨codeBits c, data, status, prev, true⟩ }

/-- `respond(OK, 32'h0, 8'h0, 9'h0)`. -/
def respondDone (s : State) : State := respond .ok 0#32 0#8 0#9 s

/-- `respond(OK, data, rx[39:32], p)` with the last transaction's echo. -/
def respondWith (data : Word) (s : State) : State :=
  respond .ok data (rxStatus s.eng.last.rx) (pendBits s.eng.last.prev) s

/-- `respond(OK, rx[31:0], rx[39:32], p)`. -/
def respondEcho (s : State) : State := respondWith (lastData s) s

/-! ### Failure exits: the one way an op ends early (60_exceptions.md R331, R332, R341) -/

/-- The response of `raise X()` (R331). -/
def raiseResponse (c : Code) (s : State) : State := respond c 0#32 0#8 0#9 s

/-- A raised check: only the response registers change, in the op's RESP cycle (R331). -/
def raise (c : Code) (s : State) : State := raiseResponse c (respCycle s)

/-- `fail_txn(c, rx, p)` with the last transaction's triple (R332). -/
def failTxn (s : State) : State :=
  respond s.eng.last.code (lastData s) (rxStatus s.eng.last.rx) (pendBits s.eng.last.prev) s

/-- RESP of an op with transactions: commit if all were OK, else `fail_txn`, and nothing buffered commits (R332). -/
def finish (commit : State → State) (s : State) : State :=
  let s := respCycle s
  if lastOk s then commit s else failTxn s

/-- A host command: its IDLE cycle, `check(cmd)`, then the op's body on the axis it names (R331). -/
def hostOp (op : BitVec 4) (axis : BitVec 2) (data : Word) (body : Axis → State → State) (s : State) : State :=
  let s := startCycle s
  match check op axis data with
  | .error c => raise c s
  | .ok a => body a s

end Sys2Proof.Machine
end

