-- ==== Sys2Proof/Machine/AxisControl.lean ====
section
/-! DEFINITION. The axis-control ops: VEL, PWR, SWAP, SWPOL, FLAGS (42_axis_control.md R240–R254). -/

namespace Sys2Proof.Machine

/-- The two writes of VEL and of a re-issue: RAMPMODE by `d XOR swap_dir[a]`, then VMAX = |v| (R240,
43_joystick_filter.md R297). -/
def velocityTxns (a : Axis) (d : Bool) (v : Word) (s : State) : State :=
  ifOk (txn a true regVMAX (magnitude v))
    (txn a true regRAMPMODE (rampMode (d ^^ (s.ax a).swapDir)) s)

/-- VEL (R240). -/
def execVel (axis : BitVec 2) (d : Bool) (data : Word) (s : State) : Host.Outcome State Fault Refusal :=
  .next (hostOp 8#4 axis data (fun a s => finish respondEcho (velocityTxns a d data s)) s)

/-- The commit of PWR (R250). -/
def commitPwr (a : Axis) (d : Bool) (s : State) : State :=
  respondDone (s.setAx a { s.ax a with en := d })

/-- PWR (R250): no transaction. -/
def execPwr (axis : BitVec 2) (d : Bool) (s : State) : Host.Outcome State Fault Refusal :=
  .next (hostOp 9#4 axis 0#32 (fun a s => commitPwr a d (respCycle s)) s)

/-- The commit of SWAP (R251). -/
def commitSwap (a : Axis) (d e : Bool) (s : State) : State :=
  respondDone (s.setAx a { s.ax a with swapDir := d, swapSw := e })

/-- SWAP (R251): a local relabelling, no transaction (90_conflicts.md C2). -/
def execSwap (axis : BitVec 2) (d e : Bool) (s : State) : Host.Outcome State Fault Refusal :=
  .next (hostOp 10#4 axis 0#32 (fun a s => commitSwap a d e (respCycle s)) s)

/-- The word SWPOL writes, from the SWMODE value it read into `tmp0` (R252). -/
def swpolWord (a : Axis) (d e : Bool) (s : State) : Word :=
  swmodeWord s.cfg (s.ax a).swapSw d e s.eng.tmp0

/-- The transactions of SWPOL (R252): SWMODE read twice, then written. -/
def swpolTxns (a : Axis) (d e : Bool) (s : State) : State :=
  let s := ifOk keepTmp0 (readTwice a regSWMODE s)
  ifOk (fun s => txn a true regSWMODE (swpolWord a d e s) s) s

/-- The commit of SWPOL (R252): the response carries the value written. -/
def commitSwpol (a : Axis) (d e : Bool) (s : State) : State := respondWith (swpolWord a d e s) s

/-- SWPOL (R252). -/
def execSwpol (axis : BitVec 2) (d e : Bool) (s : State) : Host.Outcome State Fault Refusal :=
  .next (hostOp 11#4 axis 0#32 (fun a s => finish (commitSwpol a d e) (swpolTxns a d e s)) s)

/-- The commit of FLAGS (R254). -/
def commitFlags (a : Axis) (data : BitVec 3) (s : State) : State :=
  respondDone (s.setAx a { s.ax a with oflags := data })

/-- FLAGS (R254): no transaction. -/
def execFlags (axis : BitVec 2) (data : BitVec 3) (s : State) : Host.Outcome State Fault Refusal :=
  .next (hostOp 12#4 axis 0#32 (fun a s => commitFlags a data (respCycle s)) s)

end Sys2Proof.Machine
end

