-- ==== Sys2Proof/Machine/Joystick.lean ====
section
/-! DEFINITION. The joystick filter's op JOYCFG and its re-issue (43_joystick_filter.md R297–R300). The gate, the
accept and the comparator run in every cycle and stand in Ops and Operands. -/

namespace Sys2Proof.Machine

/-- The writes of JOYCFG (R300); they come after the RESP cycle's own sample accept, so the clear of
`joy_pend[a]` wins and an accept in that cycle has used the old `joy_en[a]` and `prev[a]`. -/
def joycfgRegs (d e : Bool) (x : AxisRegs) : AxisRegs :=
  { x with
    joyEn := d
    prev := if e then 0#32 else x.prev
    joyPend := if d then x.joyPend else false }

/-- The commit of JOYCFG (R300). -/
def commitJoycfg (a : Axis) (d e : Bool) (s : State) : State :=
  respondDone (s.setAx a (joycfgRegs d e (s.ax a)))

/-- JOYCFG (R300): no transaction. -/
def execJoycfg (axis : BitVec 2) (d e : Bool) (s : State) : Host.Outcome State Fault Refusal :=
  .next (hostOp 13#4 axis 0#32 (fun a s => commitJoycfg a d e (respCycle s)) s)

/-- The command a re-issue synthesises (10_state.md R32, R297): `vel a, (n < 0 ? rev : fwd), n` (log 9). -/
def reissueCommand (a : Axis) (n : Word) : Command :=
  enc 8#4 (axisBits a) (isNegative n) false false 0#7 n

/-- The engine starts the re-issue: `cur` and `cur_src` (R32, R297). -/
def loadReissue (a : Axis) (s : State) : State :=
  { s with eng := { s.eng with cur := reissueCommand a (s.ax a).joyNext, curSrc := true } }

/-- What a successful re-issue writes: standstill cleared, power on, the latch (R297). -/
def reissueSuccess (n : Word) (x : AxisRegs) : AxisRegs :=
  { withTelDev x (x.telDev &&& ~~~4#25) with en := true, prev := n }

/-- The end of a re-issue (R297): on success the three writes; always the code, and the request is cleared.
The response registers are not touched (60_exceptions.md R335). -/
def commitReissue (a : Axis) (n : Word) (s : State) : State :=
  let x := if lastOk s then reissueSuccess n (s.ax a) else s.ax a
  s.setAx a { x with joyCode := codeBits s.eng.last.code, joyPend := false }

/-- One whole re-issue of one axis (R297): its IDLE cycle, the two writes, its RESP cycle (70_reset_and_hazards.md R396). -/
def reissue (a : Axis) (s : State) : State :=
  let n := (s.ax a).joyNext
  let s := velocityTxns a (isNegative n) n (startCycle (loadReissue a s))
  commitReissue a n (respCycle s)

end Sys2Proof.Machine
end

