-- ==== Sys2Proof/Machine/Reserved.lean ====
section
/-! DEFINITION. The reserved ops 14 and 15: ILLEGAL_OP and no other effect (30_encoding.md R117, 60_exceptions.md R331). -/

namespace Sys2Proof.Machine

/-- Op 14. `check` fails before it looks at any other field. -/
def execReserved14 (s : State) : Host.Outcome State Fault Refusal :=
  .next (hostOp 14#4 0#2 0#32 (fun _ s => s) s)

/-- Op 15. -/
def execReserved15 (s : State) : Host.Outcome State Fault Refusal :=
  .next (hostOp 15#4 0#2 0#32 (fun _ s => s) s)

end Sys2Proof.Machine
end

