-- ==== Sys2Proof/Machine/Status.lean ====
section
/-! DEFINITION. The status ops: POLL, POLLSG, POLLSW (41_status_decode.md R205–R212). Each collects its words in
`tmp0`–`tmp2` and writes telemetry only in its RESP cycle, if every transaction was OK. -/

namespace Sys2Proof.Machine

/-- The commit of POLL (R210): every stored element, and the stall-guard value. -/
def commitPoll (a : Axis) (s : State) : State :=
  let x := withTelDev (s.ax a)
    (decodeGstat s.cfg s.eng.tmp0 ||| decodeRampstat s.eng.tmp1 ||| decodeDrvstatus s.cfg s.eng.tmp2)
  let x := { x with sgRes := stallGuard s.cfg s.eng.tmp2 }
  respondWith ((telemetry x).setWidth 32) (s.setAx a x)

/-- The commit of POLLSG (R211): elements 0 and 1, and the stall-guard value. -/
def commitPollsg (a : Axis) (s : State) : State :=
  let x := withTelDev (s.ax a) (mergeBits maskSG (s.ax a).telDev (decodeRampstat s.eng.tmp1))
  let x := { x with sgRes := stallGuard s.cfg s.eng.tmp2 }
  respondWith (x.sgRes.setWidth 32) (s.setAx a x)

/-- The commit of POLLSW (R212): elements 6–11. -/
def commitPollsw (a : Axis) (s : State) : State :=
  let x := withTelDev (s.ax a) (mergeBits maskSW (s.ax a).telDev (decodeRampstat s.eng.tmp1))
  respondWith ((telemetry x).setWidth 32) (s.setAx a x)

/-- The transactions of POLL (R210): GSTAT, RAMPSTAT, DRVSTATUS, each read twice. -/
def pollTxns (a : Axis) (s : State) : State :=
  let s := ifOk keepTmp0 (readTwice a regGSTAT s)
  let s := ifOk (fun s => ifOk keepTmp1 (readTwice a regRAMPSTAT s)) s
  ifOk (fun s => ifOk keepTmp2 (readTwice a regDRVSTATUS s)) s

/-- The transactions of POLLSG (R211): RAMPSTAT, DRVSTATUS. -/
def pollsgTxns (a : Axis) (s : State) : State :=
  let s := ifOk keepTmp1 (readTwice a regRAMPSTAT s)
  ifOk (fun s => ifOk keepTmp2 (readTwice a regDRVSTATUS s)) s

/-- The transactions of POLLSW (R212): RAMPSTAT. -/
def pollswTxns (a : Axis) (s : State) : State := ifOk keepTmp1 (readTwice a regRAMPSTAT s)

/-- POLL (R210). -/
def execPoll (axis : BitVec 2) (s : State) : Host.Outcome State Fault Refusal :=
  .next (hostOp 5#4 axis 0#32 (fun a s => finish (commitPoll a) (pollTxns a s)) s)

/-- POLLSG (R211). -/
def execPollsg (axis : BitVec 2) (s : State) : Host.Outcome State Fault Refusal :=
  .next (hostOp 6#4 axis 0#32 (fun a s => finish (commitPollsg a) (pollsgTxns a s)) s)

/-- POLLSW (R212). -/
def execPollsw (axis : BitVec 2) (s : State) : Host.Outcome State Fault Refusal :=
  .next (hostOp 7#4 axis 0#32 (fun a s => finish (commitPollsw a) (pollswTxns a s)) s)

end Sys2Proof.Machine
end

