-- ==== Sys2Proof/Machine/Transaction.lean ====
section
/-! DEFINITION. The transaction family: NOP, XFER, WRITE, WRNZ, READ (40_transaction.md R160–R170). -/

namespace Sys2Proof.Machine

/-- NOP (R160): no check, no transaction. -/
def execNop (s : State) : Host.Outcome State Fault Refusal :=
  .next (respondDone (respCycle (startCycle s)))

/-- XFER (R162): the low 40 bits are the datagram. -/
def execXfer (axis : BitVec 2) (w : Bool) (addr : Addr) (data : Word) (s : State) :
    Host.Outcome State Fault Refusal :=
  .next (hostOp 1#4 axis data (fun a s => finish respondEcho (txn a w addr data s)) s)

/-- WRITE (R164). -/
def execWrite (axis : BitVec 2) (addr : Addr) (data : Word) (s : State) : Host.Outcome State Fault Refusal :=
  .next (hostOp 2#4 axis data (fun a s => finish respondEcho (txn a true addr data s)) s)

/-- WRNZ (R166): `check` rejects data 0. -/
def execWrnz (axis : BitVec 2) (addr : Addr) (data : Word) (s : State) : Host.Outcome State Fault Refusal :=
  .next (hostOp 3#4 axis data (fun a s => finish respondEcho (txn a true addr data s)) s)

/-- READ (R170): two transactions, the first echo discarded. -/
def execRead (axis : BitVec 2) (addr : Addr) (s : State) : Host.Outcome State Fault Refusal :=
  .next (hostOp 4#4 axis 0#32 (fun a s => finish respondEcho (readTwice a addr s)) s)

end Sys2Proof.Machine
end

