-- ==== Sys2Proof/Machine/Wire.lean ====
section
/-! DEFINITION. The two datagram rows: a DG40 word is one transaction with that datagram (30_encoding.md R113,
40_transaction.md R158), to the axis whose chip select the model's slot names (log 6). It writes what a transaction
writes, `pend[a]` and the datapath, and no response register: those belong to host commands (10_state.md R50). -/

namespace Sys2Proof.Machine

/-- DG_WRITE: W = 1. -/
def execDgWrite (addr : Addr) (data : Word) (s : State) : Host.Outcome State Fault Refusal :=
  .next (txn s.world.dgAxis true addr data s)

/-- DG_READ: W = 0; the data field is sent as given. -/
def execDgRead (addr : Addr) (data : Word) (s : State) : Host.Outcome State Fault Refusal :=
  .next (txn s.world.dgAxis false addr data s)

end Sys2Proof.Machine
end

