-- ==== Sys2Proof/Machine/Dispatch.lean ====
section
/-! DEFINITION. One arm per instruction: its meaning. -/

namespace Sys2Proof.Machine

def exec (i : Instr) (s : State) : Host.Outcome State Fault Refusal :=
  match i with
  | .nop => Sys2Proof.Machine.execNop s
  | .xfer axis w addr data => Sys2Proof.Machine.execXfer axis w addr data s
  | .write axis addr data => Sys2Proof.Machine.execWrite axis addr data s
  | .wrnz axis addr data => Sys2Proof.Machine.execWrnz axis addr data s
  | .read axis addr => Sys2Proof.Machine.execRead axis addr s
  | .poll axis => Sys2Proof.Machine.execPoll axis s
  | .pollsg axis => Sys2Proof.Machine.execPollsg axis s
  | .pollsw axis => Sys2Proof.Machine.execPollsw axis s
  | .vel axis d data => Sys2Proof.Machine.execVel axis d data s
  | .pwr axis d => Sys2Proof.Machine.execPwr axis d s
  | .swap axis d e => Sys2Proof.Machine.execSwap axis d e s
  | .swpol axis d e => Sys2Proof.Machine.execSwpol axis d e s
  | .flags axis data => Sys2Proof.Machine.execFlags axis data s
  | .joycfg axis d e => Sys2Proof.Machine.execJoycfg axis d e s
  | .reserved14 => Sys2Proof.Machine.execReserved14 s
  | .reserved15 => Sys2Proof.Machine.execReserved15 s
  | .dgWrite addr data => Sys2Proof.Machine.execDgWrite addr data s
  | .dgRead addr data => Sys2Proof.Machine.execDgRead addr data s

end Sys2Proof.Machine
end

