-- ==== Sys2Proof/Machine/Agenda.lean ====
section
/-! DEFINITION. What the host does next: reset, a command, or nothing yet (70_reset_and_hazards.md R370, R385, R393).
Its commands are the script `world.hostq`, where `wait` counts cycles with `cmd_ready = 1`; its resets are the script
`world.rstq`, which counts every cycle, since a reset can come at any time (log 5). -/

namespace Sys2Proof.Machine

/-- `eng_state = IDLE` and `joy_pend = 3'b000` (10_state.md R53). -/
def engineFree (s : State) : Bool := decide (s.eng.state = .idle) && !anyPending s

/-- `rst = 1` in this cycle. A reset needs no `cmd_ready` (R373). -/
def resetDue (s : State) : Bool :=
  match s.world.rstq with
  | w :: _ => decide (w = 0)
  | [] => false

/-- A cycle with `rst = 1` comes within the next `n` cycles. -/
def resetWithin (s : State) (n : Nat) : Bool :=
  match s.world.rstq with
  | w :: _ => decide (w < n)
  | [] => false

/-- `cmd` when `cmd_valid = 1`. -/
def commandOnPort (s : State) : Option Command :=
  match s.world.hostq with
  | c :: _ => if c.wait = 0 then some c.word else none
  | [] => none

/-- One cycle of the strobe script passes with the filter not looking. -/
def skipStrobe (q : List Strobe) : List Strobe :=
  match q with
  | [] => []
  | st :: rest => if st.wait = 0 then rest else { st with wait := st.wait - 1 } :: rest

/-- Every register takes its reset value; parameters stay, and so does the world (R370, R371, R374). -/
def resetRegs (s : State) : State := State.resetWith s.cfg s.world

/-- A transaction has started and has not yet released its chip select or timed out. -/
def transferring (e : Engine) : Bool :=
  match e.state with
  | .req => true
  | .setup => true
  | .shift => true
  | .hold => true
  | .idle => false
  | .gap => false
  | .resp => false

/-- The registers and the world after one cycle with `rst = 1` (R370): a strobe in it is ignored. -/
def resetEdge (s : State) : State :=
  resetRegs { s with world := { s.world with
    rstq := s.world.rstq.tail
    joyq := skipStrobe s.world.joyq } }

/-- One cycle with `rst = 1` (R370). A command in progress gives no response (R373), and the draws of a transaction in progress
are used up with it: the next transaction's are fresh ones (20_memory.md R94, log 16). -/
def resetCycle (s : State) : State :=
  if transferring s.eng then resetEdge (dropDraw s) else resetEdge s

/-- The block takes the command on the port (R53, R385): `cur` holds it, `cur_src = 0`. -/
def acceptCommand (w : Command) (s : State) : State :=
  { s with
    eng := { s.eng with cur := w, curSrc := false }
    world := { s.world with hostq := s.world.hostq.tail } }

/-- The model's datagram slot is emptied into the engine (log 6). -/
def takeDatagram (s : State) : State := { s with world := { s.world with dgSlot := none } }

/-- The cycles before the next one with `rst = 1`. -/
def cyclesToReset (s : State) : Nat :=
  match s.world.rstq with
  | w :: _ => w
  | [] => 0

/-- The slot's datagram, cut short by a reset that comes within its transaction (R370, R373; log 6): time passes up to the
reset, the transaction's draws are used up, and of what it had clocked the reset leaves nothing in the block. -/
def abortDatagram (s : State) : State :=
  resetEdge (dropDraw (passCycles (cyclesToReset s) (takeDatagram s)))

/-- `n` ready cycles pass for the host's next command. -/
def commandNearer (n : Nat) (q : List HostCommand) : List HostCommand :=
  match q with
  | [] => []
  | c :: rest => { c with wait := c.wait - n } :: rest

/-- How many cycles an idle step lets pass: up to and with the next strobe, or up to the host's next command,
whichever is sooner; one cycle if neither is coming (00_scope.md R7, log 4). -/
def idleSpan (s : State) : Nat :=
  match s.world.hostq, s.world.joyq with
  | [], [] => 1
  | c :: _, [] => c.wait
  | [], st :: _ => st.wait + 1
  | c :: _, st :: _ => min c.wait (st.wait + 1)

/-- The engine is idle and nothing is due: the filter's step (R7). -/
def idle (s : State) : State :=
  let n := idleSpan s
  let s := passCycles n s
  { s with world := { s.world with hostq := commandNearer n s.world.hostq } }

end Sys2Proof.Machine
end

