-- ==== Sys2Proof/Machine/Cycle.lean ====
section
/-! DEFINITION. The cycle level (00_scope.md R7; 40_transaction.md R150–R157; 70_reset_and_hazards.md R370, R373): one
clock edge of the whole block on given pins (`tick`), the pins the scripted world drives (`pinsOf`), and one cycle of
the block in that world (`cycle`). A step in the middle of an op is one such cycle; a step from IDLE is the
transaction level, which takes exactly as many of them (log 4). -/

namespace Sys2Proof.Machine

/-- The inputs of one cycle (10_state.md R70), and the draw of ECHO_UNEXPECTED (R159). -/
structure Pins where
  rst : Bool
  cmd : Option Command
  joy : Option Sample
  busGnt : Bool
  miso : Bool
  echoUnexpected : Bool
  deriving DecidableEq, Repr

/-! ### The op in progress -/

/-- The op in `cur`. -/
def curInstr (s : State) : Instr := decodeCommand s.eng.cur

/-- `check` of the command in `cur` (60_exceptions.md R331); NOP has none (R160). -/
def curCheck (s : State) : Except Code Axis := check (opField s.eng.cur) (axisField s.eng.cur) (dataField s.eng.cur)

/-- How many transactions an op runs (30_encoding.md R111). -/
def txnCount : Instr → Nat
  | .xfer _ _ _ _ => 1
  | .write _ _ _ => 1
  | .wrnz _ _ _ => 1
  | .read _ _ => 2
  | .poll _ => 6
  | .pollsg _ => 4
  | .pollsw _ => 2
  | .vel _ _ _ => 2
  | .swpol _ _ _ => 3
  | .nop => 0
  | .pwr _ _ => 0
  | .swap _ _ _ => 0
  | .flags _ _ => 0
  | .joycfg _ _ _ => 0
  | .reserved14 => 0
  | .reserved15 => 0
  | .dgWrite _ _ => 1
  | .dgRead _ _ => 1

/-- The register a status op reads in its transaction `k`. -/
def statusReg (k : Nat) (first second third : Addr) : Addr :=
  if k < 2 then first else if k < 4 then second else third

/-- The datagram of transaction `k` of an op on axis `a`: the fixed lists of R162–R170, R210–R212, R240, R252. -/
def opDatagram (i : Instr) (a : Axis) (k : Nat) (s : State) : Bool × Addr × Word :=
  match i with
  | .xfer _ w addr data => (w, addr, data)
  | .write _ addr data => (true, addr, data)
  | .wrnz _ addr data => (true, addr, data)
  | .read _ addr => (false, addr, 0#32)
  | .poll _ => (false, statusReg k regGSTAT regRAMPSTAT regDRVSTATUS, 0#32)
  | .pollsg _ => (false, statusReg k regRAMPSTAT regDRVSTATUS regDRVSTATUS, 0#32)
  | .pollsw _ => (false, regRAMPSTAT, 0#32)
  | .vel _ d v =>
    if k = 0 then (true, regRAMPMODE, rampMode (d ^^ (s.ax a).swapDir)) else (true, regVMAX, magnitude v)
  | .swpol _ d e => if k < 2 then (false, regSWMODE, 0#32) else (true, regSWMODE, swpolWord a d e s)
  | .dgWrite addr data => (true, addr, data)
  | .dgRead addr data => (false, addr, data)
  | .nop => (false, 0#7, 0#32)
  | .pwr _ _ => (false, 0#7, 0#32)
  | .swap _ _ _ => (false, 0#7, 0#32)
  | .flags _ _ => (false, 0#7, 0#32)
  | .joycfg _ _ _ => (false, 0#7, 0#32)
  | .reserved14 => (false, 0#7, 0#32)
  | .reserved15 => (false, 0#7, 0#32)

/-- The word a status op or SWPOL keeps when transaction `k` has ended OK (R210–R212, R252). -/
def keepTmp (i : Instr) (k : Nat) (s : State) : State :=
  match i with
  | .poll _ => if k = 1 then keepTmp0 s else if k = 3 then keepTmp1 s else if k = 5 then keepTmp2 s else s
  | .pollsg _ => if k = 1 then keepTmp1 s else if k = 3 then keepTmp2 s else s
  | .pollsw _ => if k = 1 then keepTmp1 s else s
  | .swpol _ _ _ => if k = 1 then keepTmp0 s else s
  | .nop => s
  | .xfer _ _ _ _ => s
  | .write _ _ _ => s
  | .wrnz _ _ _ => s
  | .read _ _ => s
  | .vel _ _ _ => s
  | .pwr _ _ => s
  | .swap _ _ _ => s
  | .flags _ _ => s
  | .joycfg _ _ _ => s
  | .reserved14 => s
  | .reserved15 => s
  | .dgWrite _ _ => s
  | .dgRead _ _ => s

/-- What a host op whose check passed does in its RESP cycle, if its transactions were OK. -/
def opCommit (i : Instr) (a : Axis) (s : State) : State :=
  match i with
  | .xfer _ _ _ _ => respondEcho s
  | .write _ _ _ => respondEcho s
  | .wrnz _ _ _ => respondEcho s
  | .read _ _ => respondEcho s
  | .poll _ => commitPoll a s
  | .pollsg _ => commitPollsg a s
  | .pollsw _ => commitPollsw a s
  | .vel _ _ _ => respondEcho s
  | .pwr _ d => commitPwr a d s
  | .swap _ d e => commitSwap a d e s
  | .swpol _ d e => commitSwpol a d e s
  | .flags _ data => commitFlags a data s
  | .joycfg _ d e => commitJoycfg a d e s
  | .nop => respondDone s
  | .reserved14 => respondDone s
  | .reserved15 => respondDone s
  | .dgWrite _ _ => respondDone s
  | .dgRead _ _ => respondDone s

/-- RESP of the op in `cur` (R157): a re-issue commits without a response, a host op responds. -/
def respCommit (s : State) : State :=
  if s.eng.curSrc then
    match curCheck s with
    | .ok a => commitReissue a (dataField s.eng.cur) s
    | .error _ => s
  else if curInstr s = .nop then respondDone s
  else match curCheck s with
    | .error c => raiseResponse c s
    | .ok a =>
      if txnCount (curInstr s) = 0 ∨ lastOk s then opCommit (curInstr s) a s else failTxn s

/-- The RESP cycle's end: the commit, after which the engine is at rest (R157; 20_memory.md R101). -/
def commitRest (s : State) : State :=
  let s := respCommit s
  { s with eng := atRest s.eng }

/-! ### The engine, one cycle -/

/-- Enter REQ with `to_cnt <- 0` (R156). -/
def enterReq (e : Engine) : Engine := { e with state := .req, toCnt := 0 }

/-- Enter SETUP: `tx_sr` is loaded and `rx_sr` cleared (R153, R154). -/
def enterSetup (dg : Datagram) (e : Engine) : Engine :=
  { e with state := .setup, txSr := dg, rxSr := 0#40, bitCnt := 0, divCnt := 0, sckHigh := false, dwell := 0 }

/-- An IDLE cycle (R157, R298): the lowest pending re-issue starts first, then a command on the port is taken. -/
def idleEngine (p : Pins) (old s : State) : State :=
  match lowestPending old with
  | some a =>
    let s := loadReissue a s
    { s with eng := enterReq { s.eng with seqI := 0 } }
  | none =>
    match p.cmd with
    | none => s
    | some w =>
      let s := { s with eng := { s.eng with cur := w, curSrc := false, seqI := 0 } }
      match curCheck s with
      | .error _ => { s with eng := { s.eng with state := .resp } }
      | .ok _ =>
        if txnCount (curInstr s) = 0 then { s with eng := { s.eng with state := .resp } }
        else { s with eng := enterReq s.eng }

/-- One cycle of the engine in a transaction to axis `a` (R151–R156). -/
def txnEngine (p : Pins) (a : Axis) (s : State) : State :=
  let e := s.eng
  let dg := opDatagram (curInstr s) a e.seqI s
  match e.state with
  | .req =>
    if p.busGnt then { s with eng := enterSetup (datagram dg.1 dg.2.1 dg.2.2) e }
    else if s.cfg.txnTimeout ≤ e.toCnt + 1 then
      { s with eng := { e with
          state := .resp
          toCnt := e.toCnt + 1
          last := ⟨.busTimeout, 0#40, (s.ax a).pend⟩ } }
    else { s with eng := { e with toCnt := e.toCnt + 1 } }
  | .setup =>
    if s.cfg.csSetup ≤ e.dwell + 1 then { s with eng := { e with state := .shift, dwell := 0 } }
    else { s with eng := { e with dwell := e.dwell + 1 } }
  | .shift =>
    if e.sckHigh then
      let e := if e.divCnt = 0 then
          { e with rxSr := e.rxSr ||| ((BitVec.ofBool p.miso).setWidth 40 <<< (39 - e.bitCnt)) }
        else e
      if s.cfg.sckDiv ≤ e.divCnt + 1 then
        { s with eng := { e with
            divCnt := 0
            sckHigh := false
            bitCnt := e.bitCnt + 1
            state := if 40 ≤ e.bitCnt + 1 then .hold else .shift } }
      else { s with eng := { e with divCnt := e.divCnt + 1 } }
    else
      if s.cfg.sckDiv ≤ e.divCnt + 1 then { s with eng := { e with divCnt := 0, sckHigh := true } }
      else { s with eng := { e with divCnt := e.divCnt + 1 } }
  | .hold =>
    if s.cfg.csHold ≤ e.dwell + 1 then
      let r : TxnResult := ⟨if p.echoUnexpected then .unexpectedEcho else .ok, e.rxSr, (s.ax a).pend⟩
      let s := s.setAx a { s.ax a with pend := ⟨true, dg.1, dg.2.1⟩ }
      let s := { s with eng := { e with state := .gap, dwell := 0, last := r } }
      if lastOk s then keepTmp (curInstr s) e.seqI s else s
    else { s with eng := { e with dwell := e.dwell + 1 } }
  | .gap =>
    if s.cfg.csIdle ≤ e.dwell + 1 then
      let e := { e with dwell := 0 }
      if lastOk s && decide (e.seqI + 1 < txnCount (curInstr s)) then
        { s with eng := enterReq { e with seqI := e.seqI + 1 } }
      else { s with eng := { e with state := .resp } }
    else { s with eng := { e with dwell := e.dwell + 1 } }
  | .idle => s
  | .resp => s

/-- The engine's part of one cycle; `old` is the state before the clock edge, `s` the same after the filter's part.
In a transaction of a command whose check fails, which no run reaches, the engine goes to RESP (log 19). -/
def engineCycle (p : Pins) (old s : State) : State :=
  match s.eng.state with
  | .idle => idleEngine p old s
  | .resp => commitRest s
  | _ =>
    match curCheck s with
    | .ok a => txnEngine p a s
    | .error _ => { s with eng := { s.eng with state := .resp } }

/-- One clock edge of the block's registers on the given pins: reset, or the filter and the engine together. -/
def tick (p : Pins) (s : State) : State :=
  if p.rst then resetRegs s else engineCycle p s (filterCycle p.joy s)

/-! ### The world, one cycle -/

/-- The sample on the joystick port, if `joy_valid = 1` in this cycle. -/
def joyOnPort (s : State) : Option Sample :=
  match s.world.joyq with
  | st :: _ => if st.wait = 0 then some st.sample else none
  | [] => none

/-- The pins the scripted world drives in this cycle: the grant comes in the REQ cycle after the draw's ungranted
ones, and the device drives the bits of its reply, bit 39 first (R154, R156). -/
def pinsOf (s : State) : Pins where
  rst := resetDue s
  cmd := commandOnPort s
  joy := joyOnPort s
  busGnt := decide ((nextDraw s).wait ≤ s.eng.toCnt)
  miso := (nextDraw s).reply.getLsbD (39 - s.eng.bitCnt)
  echoUnexpected := (nextDraw s).unexpected

/-- The transaction in progress ends in this cycle: at chip-select release, or at the timeout (R151, R156). -/
def txnEnds (s : State) : Bool :=
  match curCheck s, s.eng.state with
  | .ok _, .hold => decide (s.cfg.csHold ≤ s.eng.dwell + 1)
  | .ok _, .req => !(pinsOf s).busGnt && decide (s.cfg.txnTimeout ≤ s.eng.toCnt + 1)
  | _, _ => false

/-- The host's commands over one cycle: one that is taken is gone, a waiting one has waited one ready cycle. -/
def hostCycle (s : State) : List HostCommand :=
  if engineFree s then
    match commandOnPort s with
    | some _ => s.world.hostq.tail
    | none => commandNearer 1 s.world.hostq
  else s.world.hostq

/-- One clock cycle of the block in its scripted world. -/
def cycle (s : State) : State :=
  if resetDue s then resetCycle s
  else
    let t := tick (pinsOf s) s
    let t := if txnEnds s then dropDraw t else t
    { t with world := { t.world with
        hostq := hostCycle s
        rstq := resetNearer 1 s.world.rstq
        joyq := skipStrobe s.world.joyq } }

/-- `n` clock cycles. -/
def cycles : Nat → State → State
  | 0, s => s
  | n + 1, s => cycles n (cycle s)

end Sys2Proof.Machine
end

