-- ==== Sys2Proof/Machine/Ports.lean ====
section
/-! DEFINITION. The output ports (10_state.md R53, R70; 40_transaction.md R150–R153, R156; 70_reset_and_hazards.md
R370) as functions of the state. `rst` in the current cycle is the host's due reset. -/

namespace Sys2Proof.Machine

/-- `cmd_ready` (R53). -/
def cmdReady (s : State) : Bool := engineFree s && !resetDue s

/-- `busy`: the complement of `cmd_ready` when `rst = 0`, and 0 during reset (R53). -/
def busy (s : State) : Bool := !engineFree s && !resetDue s

/-- A command is taken in this cycle (R53). -/
def accepts (s : State) : Bool := cmdReady s && (commandOnPort s).isSome

/-- The registers the outputs show: the reset values during reset (R370). -/
def shown (s : State) : State := if resetDue s then resetRegs s else s

/-- `rsp_valid` (R52, R370). -/
def rspValid (s : State) : Bool := (shown s).rsp.valid

/-- `tel0`..`tel2` (R44, R70). -/
def telPort (s : State) (a : Axis) : Telemetry := telemetry ((shown s).ax a)

/-- `sg0`..`sg2` (R46, R70). -/
def sgPort (s : State) (a : Axis) : BitVec 10 := ((shown s).ax a).sgRes

/-- `joy_code0`..`joy_code2` (R64, R70). -/
def joyCodePort (s : State) (a : Axis) : BitVec 3 := ((shown s).ax a).joyCode

/-- `en_pin[a] = en[a] XOR EN_ACTIVE_LOW` (R43, R70). -/
def enPin (s : State) (a : Axis) : Bool := ((shown s).ax a).en ^^ s.cfg.enActiveLow

/-- The axis of the transaction in SETUP, SHIFT or HOLD, if one is under way (R151). -/
def selected (s : State) : Option Axis :=
  match curCheck s, s.eng.state with
  | .ok a, .setup => some a
  | .ok a, .shift => some a
  | .ok a, .hold => some a
  | _, _ => none

/-- `cs_n[a]` (R150, R151, R370). -/
def csN (s : State) (a : Axis) : Bool := resetDue s || decide (selected s ≠ some a)

/-- `sck` (R150, R152): low in the first half of a bit period, high otherwise. -/
def sck (s : State) : Bool := resetDue s || decide (s.eng.state ≠ .shift) || s.eng.sckHigh

/-- `mosi` (R150, R153). -/
def mosi (s : State) : Bool :=
  match resetDue s, s.eng.state with
  | false, .setup => s.eng.txSr.getLsbD 39
  | false, .shift => s.eng.txSr.getLsbD (39 - s.eng.bitCnt)
  | false, .hold => s.eng.txSr.getLsbD 0
  | _, _ => false

/-- `bus_req` (R150, R156): from REQ to the end of HOLD. -/
def busReq (s : State) : Bool :=
  match resetDue s, s.eng.state with
  | false, .req => true
  | false, .setup => true
  | false, .shift => true
  | false, .hold => true
  | _, _ => false

/-- The encoding of `eng_state` (R32). -/
def engStateBits : EngState → BitVec 3
  | .idle => 0#3
  | .req => 1#3
  | .setup => 2#3
  | .shift => 3#3
  | .hold => 4#3
  | .gap => 5#3
  | .resp => 6#3

/-- Quiescent: `rst = 0`, IDLE, no re-issue pending; exactly `cmd_ready = 1` (70_reset_and_hazards.md R391). -/
def quiescent (s : State) : Bool := cmdReady s

/-! ### How long a step lasts (70_reset_and_hazards.md R395, R396) -/

/-- The cycles of up to `k` transactions in a row, which stop at the first that fails. -/
def txnsCycles : Nat → State → Nat
  | 0, _ => 0
  | k + 1, s =>
    let d := nextDraw s
    txnCycles s.cfg d + (if granted s.cfg d && !d.unexpected then txnsCycles k (dropDraw s) else 0)

/-- The transactions a command word runs if none fails: none if its check fails (R331). -/
def commandTxns (w : Command) : Nat :=
  match check (opField w) (axisField w) (dataField w) with
  | .ok _ => txnCount (decodeCommand w)
  | .error _ => 0

/-- The clock cycles from an IDLE cycle to the next one at which a step ends: an op takes its IDLE and RESP cycles and
its transactions (R395), a re-issue the same, idle time its span. For a re-issue that is at most 2 + 2·T_txn: R396's derived bound
of 1 + 2·T_txn for each re-issue a command waits for leaves out the IDLE cycle with `cmd_ready = 0` in which it starts
(10_state.md R53, 40_transaction.md R157), which the model counts (log 23). -/
def opSpan (s : State) : Nat :=
  match lowestPending s with
  | some _ => 2 + txnsCycles 2 s
  | none =>
    match commandOnPort s with
    | some w => 2 + txnsCycles (commandTxns w) s
    | none => idleSpan s

/-- A reset comes before what the engine would do next has ended (R373). -/
def cutShort (s : State) : Bool :=
  match s.world.rstq with
  | [] => false
  | _ :: _ => resetWithin s (opSpan s)

/-- The clock cycles of one step from a state with no raw datagram waiting. -/
def stepSpan (s : State) : Nat :=
  if resetDue s then 1
  else if s.eng.state ≠ .idle then 1
  else if cutShort s then 1
  else opSpan s

/-! ### Placing an instruction (log 7) -/

/-- The engine free to start: IDLE, no re-issue waiting, no raw datagram, no reset scheduled. -/
def freed (s : State) : State :=
  { s with
    axes := ⟨{ s.axes.a0 with joyPend := false }, { s.axes.a1 with joyPend := false },
      { s.axes.a2 with joyPend := false }⟩
    eng := { s.eng with state := .idle }
    world := { s.world with dgSlot := none, rstq := [] } }

/-- A command on the port now, before every later command of the host. -/
def withCommand (w : Command) (s : State) : State :=
  { s with world := { s.world with hostq := ⟨0, w⟩ :: s.world.hostq } }

/-- A raw datagram in the model's slot. -/
def withDatagram (g : Datagram) (s : State) : State :=
  { s with world := { s.world with dgSlot := some g } }

end Sys2Proof.Machine
end

