-- ==== Sys2Proof/Machine/Step.lean ====
section
/-! DEFINITION. One step: the transaction level of 00_scope.md R7, and one clock cycle in the middle of an op (log 4). -/

namespace Sys2Proof.Machine

/-- One step. Reset first (R370); an engine in mid-op advances one cycle (R157); a datagram in the model's slot is one
transaction, whole or aborted by a reset that comes within it (log 6, R373); an op that a reset would cut short advances one
cycle (R373); re-issues come before host commands, lowest axis first (R298); a command on the port is taken and executed whole;
otherwise time passes for the filter. The spec has no path for a raw datagram: that the slot comes before a waiting re-issue and
before a command on the port, which both stay where they are although `cmdReady` may read 1, is the model's choice (log 6). -/
def step (s : State) : Host.Outcome State Fault Refusal :=
  if resetDue s then .next (resetCycle s)
  else if s.eng.state ≠ .idle then .next (cycle s)
  else match s.world.dgSlot with
    | some g =>
      if resetWithin s (txnCycles s.cfg (nextDraw s)) then .next (abortDatagram s)
      else exec (decode (.dg40 g)) (takeDatagram s)
    | none =>
      if cutShort s then .next (cycle s)
      else match lowestPending s with
      | some a => .next (reissue a s)
      | none =>
        match commandOnPort s with
        | some w => exec (decode (.cmd48 w)) (acceptCommand w s)
        | none => .next (idle s)

/-- `s` with the given instruction where `step` takes its next one (log 7): a 48-bit word on the command port before
every later command of the host, or a 40-bit word in the datagram slot; the engine is free to start, and no reset is
scheduled. -/
def State.withFetchWord (s : State) (nbits w : Nat) : State :=
  if nbits = 40 then withDatagram (BitVec.ofNat 40 w) (freed s)
  else withCommand (BitVec.ofNat 48 w) (freed s)

end Sys2Proof.Machine
end

