-- ==== Sys2Proof/Machine/Assembler.lean ====
section
/-! DEFINITION. The assembler of 30_encoding.md R120: one line of text to one instruction. It is a host-side tool; nothing
here is part of `step`. A line is a list of characters. What R120 leaves open of the text is the model's choice (log 22). -/

namespace Sys2Proof.Machine

/-- Cut a text at every character that `sep` accepts. -/
def splitAt (sep : Char → Bool) : List Char → List (List Char)
  | [] => [[]]
  | c :: cs =>
    match splitAt sep cs with
    | [] => [[c]]
    | w :: ws => if sep c then [] :: w :: ws else (c :: w) :: ws

/-- The one blank, U+0020: a tab is refused. R120 names only the commas; that any number of blanks may stand before and after the
mnemonic and around each operand is the model's choice (log 22). -/
def isBlank (c : Char) : Bool := decide (c = ' ')

/-- Without blanks at either end. -/
def trimmed (t : List Char) : List Char := ((t.dropWhile isBlank).reverse.dropWhile isBlank).reverse

/-- The value of a hexadecimal digit, in either case (log 22). -/
def hexDigit (c : Char) : Option Nat :=
  if '0'.toNat ≤ c.toNat ∧ c.toNat ≤ '9'.toNat then some (c.toNat - '0'.toNat)
  else if 'a'.toNat ≤ c.toNat ∧ c.toNat ≤ 'f'.toNat then some (c.toNat - 'a'.toNat + 10)
  else if 'A'.toNat ≤ c.toNat ∧ c.toNat ≤ 'F'.toNat then some (c.toNat - 'A'.toNat + 10)
  else none

/-- Read digits of a base, most significant first. -/
def readDigits (base : Nat) : List Char → Nat → Option Nat
  | [], acc => some acc
  | c :: cs, acc =>
    match hexDigit c with
    | some v => if v < base then readDigits base cs (base * acc + v) else none
    | none => none

/-- A number: decimal, or hexadecimal after 0x (log 22). -/
def readNat (t : List Char) : Option Nat :=
  match t with
  | [] => none
  | '0' :: 'x' :: c :: cs => readDigits 16 (c :: cs) 0
  | c :: cs => readDigits 10 (c :: cs) 0

/-- A number with an optional minus sign, before either form (log 22). -/
def readInt (t : List Char) : Option Int :=
  match t with
  | '-' :: cs => (readNat cs).map (fun n => -(n : Int))
  | cs => (readNat cs).map (fun n => (n : Int))

/-- `A`: "the assembler refuses 3" (R120). -/
def readAxis (t : List Char) : Option (BitVec 2) :=
  match readNat t with
  | some n => if n < 3 then some (BitVec.ofNat 2 n) else none
  | none => none

/-- A bit operand is 0 or 1. -/
def readBit (t : List Char) : Option Bool :=
  match readNat t with
  | some n => if n < 2 then some (decide (n = 1)) else none
  | none => none

/-- One of two words, the second standing for 1. -/
def readWord2 (zero one : String) (t : List Char) : Option Bool :=
  if t = zero.toList then some false else if t = one.toList then some true else none

/-- `U32`: 0..2^32−1, or −2^31..−1 taken as two's complement. -/
def readU32 (t : List Char) : Option Word :=
  match readInt t with
  | some v => if -2147483648 ≤ v ∧ v < 4294967296 then some (BitVec.ofInt 32 v) else none
  | none => none

/-- `S32`: −2^31..2^31−1. -/
def readS32 (t : List Char) : Option Word :=
  match readInt t with
  | some v => if -2147483648 ≤ v ∧ v < 2147483648 then some (BitVec.ofInt 32 v) else none
  | none => none

/-- The register names of 20_memory.md R81, as spelled there (log 22). -/
def registerNames : List (String × Addr) :=
  [("GCONF", 0x00#7), ("GSTAT", 0x01#7), ("IHOLD_IRUN", 0x10#7), ("TSTEP", 0x12#7), ("RAMPMODE", 0x20#7),
   ("XACTUAL", 0x21#7), ("VSTART", 0x23#7), ("A1", 0x24#7), ("AMAX", 0x26#7), ("VMAX", 0x27#7)] ++
  [("DMAX", 0x28#7), ("D1", 0x2A#7), ("VSTOP", 0x2B#7), ("XTARGET", 0x2D#7), ("SWMODE", 0x34#7),
   ("RAMPSTAT", 0x35#7), ("CHOPCONF", 0x6C#7), ("DRVSTATUS", 0x6F#7), ("PWMCONF", 0x70#7)]

/-- `ADDR`: 0x00–0x7F or a register name. -/
def readAddr (t : List Char) : Option Addr :=
  match registerNames.find? (fun r => decide (t = r.1.toList)) with
  | some r => some r.2
  | none =>
    match readNat t with
    | some n => if n < 128 then some (BitVec.ofNat 7 n) else none
    | none => none

/-- The mnemonics with one operand, an axis. -/
def assembleAxis (m a : List Char) : Option Instr := do
  let axis ← readAxis a
  if m = "poll".toList then some (.poll axis)
  else if m = "pollsg".toList then some (.pollsg axis)
  else if m = "pollsw".toList then some (.pollsw axis)
  else none

/-- The mnemonics with an axis and one more operand. -/
def assembleTwo (m a b : List Char) : Option Instr := do
  let axis ← readAxis a
  if m = "read".toList then (readAddr b).map (fun x => .read axis x)
  else if m = "pwr".toList then (readWord2 "off" "on" b).map (fun x => .pwr axis x)
  else none

/-- The mnemonics with an axis and two more operands. -/
def assembleThree (m a b c : List Char) : Option Instr := do
  let axis ← readAxis a
  if m = "write".toList then (readAddr b).bind (fun x => (readU32 c).map (fun y => .write axis x y))
  else if m = "wrnz".toList then (readAddr b).bind (fun x => (readU32 c).map (fun y => .wrnz axis x y))
  else if m = "vel".toList then
    (readWord2 "fwd" "rev" b).bind (fun x => (readS32 c).map (fun y => .vel axis x y))
  else if m = "swap".toList then (readBit b).bind (fun x => (readBit c).map (fun y => .swap axis x y))
  else if m = "swpol".toList then (readBit b).bind (fun x => (readBit c).map (fun y => .swpol axis x y))
  else if m = "joycfg".toList then
    (readWord2 "off" "on" b).bind (fun x => (readWord2 "keep" "clr" c).map (fun y => .joycfg axis x y))
  else none

/-- The mnemonics with an axis and three more operands. -/
def assembleFour (m a b c d : List Char) : Option Instr := do
  let axis ← readAxis a
  if m = "xfer".toList then do
    let w ← readWord2 "r" "w" b
    let addr ← readAddr c
    let data ← readU32 d
    some (.xfer axis w addr data)
  else if m = "flags".toList then do
    let fwd ← readBit b
    let pos ← readBit c
    let homed ← readBit d
    some (.flags axis (BitVec.ofBool homed ++ BitVec.ofBool pos ++ BitVec.ofBool fwd))
  else none

/-- One line of assembly (R120). -/
def assemble (line : List Char) : Option Instr :=
  let t := trimmed line
  let m := t.takeWhile (fun c => !isBlank c)
  let rest := trimmed (t.dropWhile (fun c => !isBlank c))
  if rest = [] then (if m = "nop".toList then some .nop else none)
  else
    match (splitAt (fun c => decide (c = ',')) rest).map trimmed with
    | [a] => assembleAxis m a
    | [a, b] => assembleTwo m a b
    | [a, b, c] => assembleThree m a b c
    | [a, b, c, d] => assembleFour m a b c d
    | _ => none

end Sys2Proof.Machine
end

