-- ==== Sys2Proof/Machine/Pseudo.lean ====
section
/-! DEFINITION. The host's side of 42_axis_control.md part 2 and 70_reset_and_hazards.md R376, R388: what each Axis Driver
method expands to, the home sequence, the boot sequence. The block sees only the expanded commands; nothing here
is part of `step` (log 12). -/

namespace Sys2Proof.Machine

/-- `BOOT_CONFIG` for one device: the OPEN values of 70_reset_and_hazards.md R376, step 2, for the registers that step names.
`resolution`, `hold`, `run`, `acceleration` and `deceleration` are the arguments of the Axis Driver methods it names; `swmode` is
the whole SWMODE word that carries the enable bits (log 12). -/
structure BootConfig where
  gconf : Word
  resolution : Nat
  hold : Word
  run : Word
  acceleration : Word
  deceleration : Word
  swmode : Word
  deriving DecidableEq, Repr

/-- The OPEN host-side parameters of 00_scope.md R8, each an argument of the host's programs. R8 and R276 give no unit and no
use of the home offset: it is a number that no command reads, and the unit of `homeTimeout` is the model's choice, one host tick
of R276, that is one POLLSW (log 12). -/
structure HostParams where
  accReg : Addr
  decReg : Addr
  packIholdIrun : Word → Word → Word
  packChopconf : Nat → Word
  homeReverse : Bool
  homeVel : Word
  homeTimeout : Nat
  homeOffset : Int
  bootConfig : Axis → BootConfig

/-- The default packing: IHOLD at [4:0], IRUN at [12:8] (R264). -/
def packIholdIrunDefault (hold run : Word) : Word :=
  ((run.extractLsb' 0 5).setWidth 32 <<< 8) ||| (hold.extractLsb' 0 5).setWidth 32

/-- The defaults of R8 where it gives one; `PACK_CHOPCONF` has none. -/
def hostDefaults (homeReverse : Bool) (homeVel : Word) (homeTimeout : Nat) (homeOffset : Int)
    (bootConfig : Axis → BootConfig) : HostParams where
  accReg := 0x26#7
  decReg := 0x28#7
  packIholdIrun := packIholdIrunDefault
  packChopconf := Config.packChopconf
  homeReverse := homeReverse
  homeVel := homeVel
  homeTimeout := homeTimeout
  homeOffset := homeOffset
  bootConfig := bootConfig

def regGCONF : Addr := 0x00#7
def regIHOLD_IRUN : Addr := 0x10#7
def regXACTUAL : Addr := 0x21#7
def regXTARGET : Addr := 0x2D#7
def regCHOPCONF : Addr := 0x6C#7

/-- The four members of the source's enum (20_memory.md R85, R263). -/
inductive RampModeName where
  | position
  | velocityPositive
  | velocityNegative
  | hold
  deriving DecidableEq, Repr

def rampModeNumber : RampModeName → Word
  | .position => 0#32
  | .velocityPositive => 1#32
  | .velocityNegative => 2#32
  | .hold => 3#32

/-- The Axis Driver methods that expand into a fixed list of commands (30_encoding.md R122). -/
inductive DriverCall where
  | setVelocity (v : Word)
  | setAcceleration (v : Word)
  | setDeceleration (v : Word)
  | setRampMode (m : RampModeName)
  | setPowerLevel (hold run : Word)
  | setXtarget (v : Word)
  | setXactual (v : Word)
  | setChopConf (resolution : Nat)
  | getVelocity
  | getAcceleration
  | getDeceleration
  | getXactual
  | getPowerLevel
  | getXtarget
  | goPos (target : Word)
  | constForward (v : Word)
  | constReverse (v : Word)
  | forward (steps v : Word)
  | reverse (steps v : Word)
  | stop
  | powerEnable
  | powerDisable
  | swapDirection (sd ss : Bool)
  | switchActiveEnable (fw bw : Bool)
  | readStatus
  | sgStatus
  | buttonStatus
  deriving DecidableEq, Repr

/-- The two commands of `goPos` (R268). -/
def goPosCommands (axis : BitVec 2) (target : Word) : List Instr :=
  [.write axis regRAMPMODE 0#32, .write axis regXTARGET target]

/-- The target of a relative move: `x ± m·steps` modulo 2^32, m = −1 when `swap_dir[A]` (R270). -/
def relativeTarget (reverse swapDir : Bool) (x steps : Word) : Word :=
  if reverse ^^ swapDir then x - steps else x + steps

/-- The expansion (R260–R275). `x` is what the expansion's first READ returned; only the relative moves use it. -/
def expand (h : HostParams) (a : Axis) (swapDir : Bool) (x : Word) : DriverCall → List Instr
  | .setVelocity v => [.wrnz (axisBits a) regVMAX v]
  | .setAcceleration v => [.wrnz (axisBits a) h.accReg v]
  | .setDeceleration v => [.wrnz (axisBits a) h.decReg v]
  | .setRampMode m => [.write (axisBits a) regRAMPMODE (rampModeNumber m)]
  | .setPowerLevel hold run => [.write (axisBits a) regIHOLD_IRUN (h.packIholdIrun hold run)]
  | .setXtarget v => [.write (axisBits a) regXTARGET v]
  | .setXactual v => [.write (axisBits a) regXACTUAL v]
  | .setChopConf r => [.write (axisBits a) regCHOPCONF (h.packChopconf r)]
  | .getVelocity => [.read (axisBits a) regVMAX]
  | .getAcceleration => [.read (axisBits a) h.accReg]
  | .getDeceleration => [.read (axisBits a) h.decReg]
  | .getXactual => [.read (axisBits a) regXACTUAL]
  | .getPowerLevel => [.read (axisBits a) regIHOLD_IRUN]
  | .getXtarget => [.read (axisBits a) regXTARGET]
  | .goPos t => goPosCommands (axisBits a) t
  | .constForward v => [.vel (axisBits a) false v]
  | .constReverse v => [.vel (axisBits a) true v]
  | .forward steps v =>
    .read (axisBits a) regXACTUAL :: .wrnz (axisBits a) regVMAX v ::
      goPosCommands (axisBits a) (relativeTarget false swapDir x steps)
  | .reverse steps v =>
    .read (axisBits a) regXACTUAL :: .wrnz (axisBits a) regVMAX v ::
      goPosCommands (axisBits a) (relativeTarget true swapDir x steps)
  | .stop => [.write (axisBits a) regRAMPMODE (rampModeNumber .hold)]
  | .powerEnable => [.pwr (axisBits a) true]
  | .powerDisable => [.pwr (axisBits a) false]
  | .swapDirection sd ss => [.swap (axisBits a) sd ss]
  | .switchActiveEnable fw bw => [.swpol (axisBits a) fw bw]
  | .readStatus => [.poll (axisBits a)]
  | .sgStatus => [.pollsg (axisBits a)]
  | .buttonStatus => [.pollsw (axisBits a)]

/-- How the host reads a getter's `rsp_data`: `getXtarget() -> i32`, every other `-> u32` (R267). -/
def getterValue (call : DriverCall) (data : Word) : Int :=
  if call = .getXtarget then data.toInt else data.toNat

/-- The host issues the rest of an expansion only after an OK response (70_reset_and_hazards.md R388). -/
def afterResponse (code : BitVec 3) (rest : List Instr) : List Instr := if code = 0#3 then rest else []

/-! ### The home sequence (R276) -/

/-- Where the host stands in `setHome`. -/
inductive HomeStage where
  | drive
  | await (ticks : Nat)
  | stopAtSwitch
  | zeroActual
  | zeroTarget
  | mark
  | done
  | stopTimedOut
  | homingTimeout
  | failed (code : BitVec 3)
  deriving DecidableEq, Repr

/-- The command the host issues at a stage; `fwd` and `pos` are the flags it keeps beside `homed` (R276). -/
def homeCommand (h : HostParams) (a : Axis) (fwd pos : Bool) : HomeStage → Option Instr
  | .drive => some (.vel (axisBits a) h.homeReverse h.homeVel)
  | .await _ => some (.pollsw (axisBits a))
  | .stopAtSwitch => some (.write (axisBits a) regRAMPMODE (rampModeNumber .hold))
  | .zeroActual => some (.write (axisBits a) regXACTUAL 0#32)
  | .zeroTarget => some (.write (axisBits a) regXTARGET 0#32)
  | .mark => some (.flags (axisBits a) (BitVec.ofBool true ++ BitVec.ofBool pos ++ BitVec.ofBool fwd))
  | .stopTimedOut => some (.write (axisBits a) regRAMPMODE (rampModeNumber .hold))
  | .done => none
  | .homingTimeout => none
  | .failed _ => none

/-- The level of the home switch: the forward switch when homing forward, the backward one otherwise (R253, log 12). -/
def homeLevel (h : HostParams) (s : State) (a : Axis) : Bool :=
  if h.homeReverse then backwardLevel s.cfg (s.ax a) else forwardLevel s.cfg (s.ax a)

/-- The next stage after a response with `code`, when the home switch's level reads `level` (R276, R388). The spec leaves open,
and the model chooses (log 12): `homeTimeout` counts host ticks, one per POLLSW response; the host polls at least once, even for
0; in one tick a level of 1 wins over the timeout; and a homing that has timed out is reported as HomingTimeout (R276) whatever
the code of the stop it then issues, where R388 alone would report that code. -/
def homeNext (h : HostParams) (code : BitVec 3) (level : Bool) (stage : HomeStage) : HomeStage :=
  match stage with
  | .drive => if code = 0#3 then .await 0 else .failed code
  | .await t =>
    if code ≠ 0#3 then .failed code
    else if level then .stopAtSwitch
    else if h.homeTimeout ≤ t + 1 then .stopTimedOut
    else .await (t + 1)
  | .stopAtSwitch => if code = 0#3 then .zeroActual else .failed code
  | .zeroActual => if code = 0#3 then .zeroTarget else .failed code
  | .zeroTarget => if code = 0#3 then .mark else .failed code
  | .mark => if code = 0#3 then .done else .failed code
  | .stopTimedOut => .homingTimeout
  | .done => .done
  | .homingTimeout => .homingTimeout
  | .failed c => .failed c

/-! ### The boot sequence (R376, steps 2–8) -/

/-- Step 2, in the order R376 lists its registers. R376 says "WRITE commands" and names four methods, of which
`setAcceleration` and `setDeceleration` expand to WRNZ (42_axis_control.md R261, R262): that the named methods are issued as
their expansions, GCONF and SWMODE by WRITE, is the model's choice (log 12). No expansion used here reads `swap_dir` or a READ's
result. -/
def configCommands (h : HostParams) (a : Axis) : List Instr :=
  let b := h.bootConfig a
  [.write (axisBits a) regGCONF b.gconf] ++
    [.setChopConf b.resolution, .setPowerLevel b.hold b.run, .setAcceleration b.acceleration,
      .setDeceleration b.deceleration].flatMap (expand h a false 0#32) ++
    [.write (axisBits a) regSWMODE b.swmode]

/-- The commands of boot for one axis, steps 2–8 in R376's order, which a host may change; `teleop` says whether the joystick
drives it, and is the model's generalisation of step 7, which names axis 2 (log 12). -/
def bootCommands (h : HostParams) (a : Axis) (sd ss fw bw : Bool) (flags : BitVec 3) (teleop : Bool) : List Instr :=
  configCommands h a ++
    [.swap (axisBits a) sd ss, .swpol (axisBits a) fw bw, .poll (axisBits a), .flags (axisBits a) flags] ++
    (if teleop then [.joycfg (axisBits a) true true] else []) ++
    [.pwr (axisBits a) true]

end Sys2Proof.Machine
end

