-- ==== Sys2Proof/Machine/RefDev.lean ====
section
/-! DEFINITION. The reference device of 95_test_vectors.md §2, one choice of the `Reply` draw: it answers the present value
of the register the previous datagram named. Nothing here is part of `step`. -/

namespace Sys2Proof.Machine

/-- RefDev for one axis: the writes so far, newest first, and the address of the previous datagram. -/
structure RefDev where
  writes : List (Addr × Word)
  last : Option Addr
  deriving DecidableEq, Repr

/-- All registers 0, no datagram yet. -/
def RefDev.fresh : RefDev := ⟨[], none⟩

/-- The value a list of writes leaves in a register: the newest write to it, 0 if there is none. -/
def refDevValue : List (Addr × Word) → Addr → Word
  | [], _ => 0#32
  | w :: ws, addr => if w.1 = addr then w.2 else refDevValue ws addr

/-- The reply to the next datagram; the status byte is always 0. -/
def refDevReply (dev : RefDev) : Datagram :=
  match dev.last with
  | none => 0#40
  | some addr => 0#8 ++ refDevValue dev.writes addr

/-- The device after a datagram: a write takes effect at chip-select release. -/
def refDevNext (dev : RefDev) (g : Datagram) : RefDev where
  writes := if dgDir g then (dgAddr g, dgData g) :: dev.writes else dev.writes
  last := some (dgAddr g)

/-- The draws of a run of datagrams to one axis, each granted at once, judged by the default predicate. -/
def refDevDraws : RefDev → List Datagram → List Draw
  | _, [] => []
  | dev, g :: gs => Draw.judged 0 (refDevReply dev) :: refDevDraws (refDevNext dev g) gs

end Sys2Proof.Machine
end

