-- ==== Sys2Proof/WellFormed.lean ====
section
/-! DEFINITION. Which instructions the assembler can write (30_encoding.md R120): an axis operand is 0, 1 or 2,
and the reserved ops have no syntax. Every other field value is legal (10_state.md R51). The machine gives a
meaning to the ill-formed ones too (their raw words are legal input, R117); nothing in the model assumes this check. -/

namespace Sys2Proof

/-- "`A` is an axis 0–2: the assembler refuses 3" (R120). -/
def axisNamed (axis : BitVec 2) : Bool := axis != 3#2

/-- The assembler has a line that writes this instruction (R120), or it is a datagram (R113: every one is legal). -/
def Instr.wellFormed : Instr → Bool
  | .nop => true
  | .xfer axis _ _ _ => axisNamed axis
  | .write axis _ _ => axisNamed axis
  | .wrnz axis _ _ => axisNamed axis
  | .read axis _ => axisNamed axis
  | .poll axis => axisNamed axis
  | .pollsg axis => axisNamed axis
  | .pollsw axis => axisNamed axis
  | .vel axis _ _ => axisNamed axis
  | .pwr axis _ => axisNamed axis
  | .swap axis _ _ => axisNamed axis
  | .swpol axis _ _ => axisNamed axis
  | .flags axis _ => axisNamed axis
  | .joycfg axis _ _ => axisNamed axis
  | .reserved14 => false
  | .reserved15 => false
  | .dgWrite _ _ => true
  | .dgRead _ _ => true

end Sys2Proof
end

