-- ==== Sys2Proof/Safety.lean ====
section
/-! DEFINITION. The terms the statements use: the invariant of the machine, what a safe step is, which fields an instruction
has, and the state an op leaves when the bus and the devices behave. -/

namespace Sys2Proof.Machine

/-! ### The invariant -/

/-- One axis: the bits of `tel_dev` that are not stored are 0 (10_state.md R45), `joy_code` is OK, BUS_TIMEOUT or
UNEXPECTED_ECHO (R64), and an axis to which nothing was sent has an empty pipeline record (R40). -/
abbrev AxisInv (x : AxisRegs) : Prop :=
  x.telDev &&& ~~~maskStored = 0#25 ∧ x.joyCode.toNat ≤ 2 ∧ (x.pend.pv = false → x.pend = Pend.reset)

/-- The engine: its counters stay in the ranges of R32 and R33, an idle engine has `seq_i = 0`, and the last transaction's
code is one a transaction can return (40_transaction.md R158). -/
abbrev EngineInv (p : Params) (e : Engine) : Prop :=
  e.seqI ≤ 5 ∧ (e.state = .idle → e.seqI = 0) ∧ e.bitCnt ≤ 40 ∧ (e.state = .setup ∨ e.state = .shift → e.bitCnt < 40) ∧
    e.divCnt < p.sckDiv ∧ e.toCnt ≤ p.txnTimeout ∧ (e.state = .req → e.toCnt < p.txnTimeout) ∧
    (codeBits e.last.code).toNat ≤ 2

/-- The invariant every step keeps: legal parameters (00_scope.md R8), a gate within its period (R63), `rsp_code` never
6 or 7 (R51, 60_exceptions.md R330), and the two above. -/
abbrev MachineInv (s : State) : Prop :=
  s.cfg.legal = true ∧ s.gateCnt < sampleCycles s.cfg ∧ s.rsp.code.toNat ≤ 5 ∧ EngineInv s.cfg s.eng ∧
    AxisInv (s.ax .a0) ∧ AxisInv (s.ax .a1) ∧ AxisInv (s.ax .a2)

/-- A safe step: the machine goes on (60_exceptions.md R337, R350). -/
def SafeStep (s : State) : Prop := ∃ t, step s = .next t

/-! ### Fields of an instruction -/

/-- The axis operand of a host op that has one (30_encoding.md R111). -/
def axisOperand : Instr → Option (BitVec 2)
  | .nop => none
  | .xfer axis _ _ _ => some axis
  | .write axis _ _ => some axis
  | .wrnz axis _ _ => some axis
  | .read axis _ => some axis
  | .poll axis => some axis
  | .pollsg axis => some axis
  | .pollsw axis => some axis
  | .vel axis _ _ => some axis
  | .pwr axis _ => some axis
  | .swap axis _ _ => some axis
  | .swpol axis _ _ => some axis
  | .flags axis _ => some axis
  | .joycfg axis _ _ => some axis
  | .reserved14 => none
  | .reserved15 => none
  | .dgWrite _ _ => none
  | .dgRead _ _ => none

/-- A host command, as opposed to a wire datagram (30_encoding.md, its two encodings). -/
def isCommand : Instr → Bool
  | .nop => true
  | .xfer _ _ _ _ => true
  | .write _ _ _ => true
  | .wrnz _ _ _ => true
  | .read _ _ => true
  | .poll _ => true
  | .pollsg _ => true
  | .pollsw _ => true
  | .vel _ _ _ => true
  | .pwr _ _ => true
  | .swap _ _ _ => true
  | .swpol _ _ _ => true
  | .flags _ _ => true
  | .joycfg _ _ _ => true
  | .reserved14 => true
  | .reserved15 => true
  | .dgWrite _ _ => false
  | .dgRead _ _ => false

/-- WRNZ with data 0, which `check` rejects (60_exceptions.md R331). -/
def zeroWrnz : Instr → Bool
  | .wrnz _ _ data => decide (data = 0#32)
  | .nop => false
  | .xfer _ _ _ _ => false
  | .write _ _ _ => false
  | .read _ _ => false
  | .poll _ => false
  | .pollsg _ => false
  | .pollsw _ => false
  | .vel _ _ _ => false
  | .pwr _ _ => false
  | .swap _ _ _ => false
  | .swpol _ _ _ => false
  | .flags _ _ => false
  | .joycfg _ _ _ => false
  | .reserved14 => false
  | .reserved15 => false
  | .dgWrite _ _ => false
  | .dgRead _ _ => false

/-- The bits of a command word an op reads, beside its op field (30_encoding.md R111). -/
def readMask (op : BitVec 4) : Command :=
  match op.toNat with
  | 0 => 0xF00000000000#48
  | 1 => 0xFCFFFFFFFFFF#48
  | 2 => 0xFC7FFFFFFFFF#48
  | 3 => 0xFC7FFFFFFFFF#48
  | 4 => 0xFC7F00000000#48
  | 5 => 0xFC0000000000#48
  | 6 => 0xFC0000000000#48
  | 7 => 0xFC0000000000#48
  | 8 => 0xFE00FFFFFFFF#48
  | 9 => 0xFE0000000000#48
  | 10 => 0xFF0000000000#48
  | 11 => 0xFF0000000000#48
  | 12 => 0xFC0000000007#48
  | 13 => 0xFF0000000000#48
  | _ => 0xF00000000000#48

/-! ### What an op leaves -/

/-- A draw on which a transaction returns OK: granted in time, echo not unexpected (40_transaction.md R158). -/
abbrev CleanDraw (p : Params) (d : Draw) : Prop := d.wait < p.txnTimeout ∧ d.unexpected = false

/-- The clock cycles of a host command: its IDLE and RESP cycles and its transactions up to the first that fails, none if its
check fails (70_reset_and_hazards.md R395, 60_exceptions.md R331). -/
def opCycles (i : Instr) (s : State) : Nat :=
  2 + txnsCycles (if axisOperand i = some 3#2 ∨ zeroWrnz i = true then 0 else txnCount i) s

/-- The result code of a transaction with draw `d` (R158). -/
def drawCode (p : Params) (d : Draw) : BitVec 3 :=
  if p.txnTimeout ≤ d.wait then 1#3 else if d.unexpected then 2#3 else 0#3

/-- The cycles of granted transactions in a row (70_reset_and_hazards.md R395). -/
def grantedSum (p : Params) : List Draw → Nat
  | [] => 0
  | d :: ds => grantedCycles p d.wait + grantedSum p ds

/-- The engine's datapath after a transaction that returned OK, when `pend[a]` was `p` before it (R153, R154, R158). -/
def afterTxn (w : Bool) (addr : Addr) (data : Word) (d : Draw) (p : Pend) (e : Engine) : Engine :=
  { e with
    txSr := datagram w addr data
    rxSr := d.reply
    bitCnt := 40
    divCnt := 0
    toCnt := d.wait
    sckHigh := false
    dwell := 0
    last := ⟨.ok, d.reply, p⟩ }

/-- The end of a host op: the response, the engine at rest, the draws that are left; everything else is `u`, the
state in which only time has passed, with the axis registers the op wrote. -/
def ended (code : BitVec 3) (data : Word) (status : BitVec 8) (prev : BitVec 9) (e : Engine) (draws : List Draw)
    (u : State) : State :=
  { u with
    rsp := ⟨code, data, status, prev, true⟩
    eng := atRest e
    world := { u.world with busq := draws } }

end Sys2Proof.Machine
end

