-- ==== Sys2Proof/Certificates/Slice0/Obligations.lean ====
section
/-! DEFINITION. The statements for the provers. In all of them `passCycles n s` is `s` after `n` clock cycles in which the
engine wrote nothing: only the filter's own registers (`gate_cnt`, `joy_next`, `joy_pend`), the response pulse and the world's
strobe and reset scripts move. An equation `exec i s = .next t` with `t` built on it says what the op writes and
that it writes nothing else. -/

open Sys2Proof Sys2Proof.Machine

/-! ### Reset -/

/-- 70_reset_and_hazards.md R371: every register's reset value, whatever the state before and the parameters; nothing of the
old registers is left. -/
def Obligations.ResetGivesEveryRegisterItsValue : Prop :=
  ∀ s : State,
    (∀ a, ((resetRegs s).ax a).pend = ⟨false, false, 0#7⟩ ∧ ((resetRegs s).ax a).swapDir = false ∧
      ((resetRegs s).ax a).swapSw = false ∧ ((resetRegs s).ax a).en = false ∧
      ((resetRegs s).ax a).telDev = 0#25 ∧ ((resetRegs s).ax a).sgRes = 0#10 ∧
      ((resetRegs s).ax a).oflags = 0#3 ∧ ((resetRegs s).ax a).prev = 0#32 ∧
      ((resetRegs s).ax a).joyEn = false ∧ ((resetRegs s).ax a).joyNext = 0#32 ∧
      ((resetRegs s).ax a).joyPend = false ∧ ((resetRegs s).ax a).joyCode = 0#3 ∧
      telemetry ((resetRegs s).ax a) = 0#25 ∧
      enPin (resetRegs s) a = s.cfg.enActiveLow) ∧
    (resetRegs s).eng.state = .idle ∧ (resetRegs s).eng.seqI = 0 ∧ (resetRegs s).eng.cur = 0#48 ∧
    (resetRegs s).eng.curSrc = false ∧ (resetRegs s).eng.txSr = 0#40 ∧ (resetRegs s).eng.rxSr = 0#40 ∧
    (resetRegs s).eng.bitCnt = 0 ∧ (resetRegs s).eng.divCnt = 0 ∧ (resetRegs s).eng.toCnt = 0 ∧
    (resetRegs s).eng.tmp0 = 0#32 ∧ (resetRegs s).eng.tmp1 = 0#32 ∧ (resetRegs s).eng.tmp2 = 0#32 ∧
    (resetRegs s).rsp.code = 0#3 ∧ (resetRegs s).rsp.data = 0#32 ∧ (resetRegs s).rsp.status = 0#8 ∧
    (resetRegs s).rsp.prev = 0#9 ∧ (resetRegs s).rsp.valid = false ∧
    (resetRegs s).gateCnt = sampleCycles s.cfg - 1 ∧
    ∀ t : State, t.cfg = s.cfg → t.world = s.world → resetRegs t = resetRegs s

/-- R370: `rst = 1` gives every register its reset value whatever the engine is doing; the outputs of such a cycle; a command
on the port is not taken and a strobe in the cycle is dropped. -/
def Obligations.ResetSignalWinsInAnyCycle : Prop :=
  (∀ (p : Pins) (s : State), p.rst = true → tick p s = resetRegs s) ∧
  ∀ s : State, resetDue s = true →
    (∃ t, step s = .next t ∧ t.cfg = s.cfg ∧ t.axes = (resetRegs s).axes ∧ t.eng = (resetRegs s).eng ∧
      t.rsp = (resetRegs s).rsp ∧ t.gateCnt = (resetRegs s).gateCnt ∧ t.world.hostq = s.world.hostq ∧
      t.world.joyq = skipStrobe s.world.joyq) ∧
    cmdReady s = false ∧ busy s = false ∧ rspValid s = false ∧ (∀ a, csN s a = true) ∧ sck s = true ∧
    mosi s = false ∧ busReq s = false ∧
    ∀ a, telPort s a = 0#25 ∧ sgPort s a = 0#10 ∧ joyCodePort s a = 0#3 ∧ enPin s a = s.cfg.enActiveLow

/-- R375, 43_joystick_filter.md R293: after reset the block is ready at once, and the gate, whatever strobes come, stays
closed for `SAMPLE_CYCLES − 1` cycles; without strobes it is open from then on. -/
def Obligations.ReadyAtOnceAndGateClosedAfterReset : Prop :=
  ∀ (p : Params) (w : World), resetDue (State.resetWith p w) = false →
    cmdReady (State.resetWith p w) = true ∧
    ((commandOnPort (State.resetWith p w)).isSome = true → accepts (State.resetWith p w) = true) ∧
    (∀ n, n < sampleCycles p - 1 → gateOpen (passCycles n (State.resetWith p w)) = false) ∧
    (w.joyq = [] → ∀ n, gateOpen (passCycles n (State.resetWith p w)) = decide (sampleCycles p - 1 ≤ n))

/-! ### Encoding -/

/-- 30_encoding.md R113, R121, R125: decoding undoes encoding, for every instruction and every value of every operand. -/
def Obligations.DecodeOfEncodeIsTheInstruction : Prop := ∀ i : Instr, decode (encode i) = i

/-- R112: a field an op does not read gives the same behaviour as 0, and the assembler's word has 0 there. -/
def Obligations.UnreadFieldsActAsZero : Prop :=
  (∀ w : Command, decodeCommand w = decodeCommand (w &&& readMask (opField w))) ∧
  ∀ (i : Instr) (w : Command), encode i = .cmd48 w → w &&& readMask (opField w) = w

/-- R125: the three outcomes of decoding a word, as the response its execution gives; a word that is an op runs the
instruction it decodes to. -/
def Obligations.DecodingVerdictIsTheResponse : Prop :=
  ∀ (w : Command) (s : State),
    (commandVerdict w = .illegalOp →
      ∃ t, exec (decodeCommand w) s = .next t ∧ t.rsp = ⟨5#3, 0#32, 0#8, 0#9, true⟩ ∧
        (opField w = 14#4 ∨ opField w = 15#4)) ∧
    (commandVerdict w = .badAxis →
      ∃ t, exec (decodeCommand w) s = .next t ∧ t.rsp = ⟨4#3, 0#32, 0#8, 0#9, true⟩ ∧ axisField w = 3#2) ∧
    (∀ i, commandVerdict w = .op i →
      i = decodeCommand w ∧ ∃ t, exec i s = .next t ∧ t.rsp.code ≠ 5#3 ∧ t.rsp.code ≠ 4#3)

/-- R121's worked encodings and a datagram, decoded (a sanity statement). -/
def Obligations.WorkedEncodingsDecode : Prop :=
  decodeTableWord 48 0x28270000C350 = some (.write 2#2 0x27#7 50000#32) ∧
  decodeTableWord 48 0x402100000000 = some (.read 0#2 0x21#7) ∧
  decodeTableWord 48 0x14A000000003 = some (.xfer 1#2 true 0x20#7 3#32) ∧
  decodeTableWord 48 0x8A00FFFFFC18 = some (.vel 2#2 true (-1000#32)) ∧
  decodeTableWord 48 0xB20000000000 = some (.swpol 0#2 true false) ∧
  decodeTableWord 48 0xC40000000005 = some (.flags 1#2 5#3) ∧
  decodeTableWord 48 0xDB0000000000 = some (.joycfg 2#2 true true) ∧
  decodeTableWord 40 0xA70000C350 = some (.dgWrite 0x27#7 50000#32)

/-- R120: whatever the assembler accepts is an instruction it may write: an axis 0–2, no reserved op. -/
def Obligations.AssemblerWritesOnlyWellFormed : Prop :=
  ∀ (line : List Char) (i : Instr), assemble line = some i → i.wellFormed = true

/-! ### The step -/

/-- 10_state.md R53, 70_reset_and_hazards.md R385: a quiescent block with a command on its port runs the instruction the
word decodes to; around it the step loads `cur` and `cur_src` and takes the command off the host's script. -/
def Obligations.StepRunsTheCommandOnThePort : Prop :=
  ∀ (s : State) (w : Command), cmdReady s = true → s.world.dgSlot = none → cutShort s = false →
    commandOnPort s = some w →
    step s = exec (decodeCommand w)
      { s with
        eng := { s.eng with cur := w, curSrc := false }
        world := { s.world with hostq := s.world.hostq.tail } }

/-- The model's datagram slot (log 6): a step runs the datagram in it as an instruction, before a waiting re-issue and a
command on the port; if a reset comes within its transaction (70_reset_and_hazards.md R370, R373), the step ends with that
reset: the slot is empty, the transaction's draw is used up (log 16) and every register has its reset value. -/
def Obligations.StepRunsTheDatagramInTheSlot : Prop :=
  ∀ (s : State) (g : Datagram), resetDue s = false → s.eng.state = .idle → s.world.dgSlot = some g →
    (resetWithin s (txnCycles s.cfg (nextDraw s)) = false →
      step s = exec (decodeDatagram g) { s with world := { s.world with dgSlot := none } }) ∧
    (resetWithin s (txnCycles s.cfg (nextDraw s)) = true →
      ∃ t, step s = .next t ∧ t.cfg = s.cfg ∧ t.axes = (resetRegs s).axes ∧ t.eng = (resetRegs s).eng ∧
        t.rsp = (resetRegs s).rsp ∧ t.gateCnt = (resetRegs s).gateCnt ∧ t.world.dgSlot = none ∧
        t.world.rstq = s.world.rstq.tail ∧ t.world.hostq = s.world.hostq ∧
        t.world.busq = (dropDraw s).world.busq ∧ t.world.drawCnt = (dropDraw s).world.drawCnt)

/-- The model's choice (log 7): an instruction placed where the next one is taken is the one the very next step runs. -/
def Obligations.PlacedWordRunsNext : Prop :=
  ∀ (s : State) (w : Nat),
    step (s.withFetchWord 48 w) =
      exec (decode (.cmd48 (BitVec.ofNat 48 w))) (acceptCommand (BitVec.ofNat 48 w) (s.withFetchWord 48 w)) ∧
    step (s.withFetchWord 40 w) =
      exec (decode (.dg40 (BitVec.ofNat 40 w))) (takeDatagram (s.withFetchWord 40 w))

/-- 60_exceptions.md R337, R350: no fault, no stuck state, no refused encoding, in any state. -/
def Obligations.EveryStepGoesOn : Prop :=
  (∀ s : State, SafeStep s) ∧ ∀ (i : Instr) (s : State), ∃ t, exec i s = .next t

/-- 00_scope.md R7, 40_transaction.md R150–R157, 70_reset_and_hazards.md R395, R396: one step of the transaction level is
exactly the clock cycles it lasts, register by register, samples, resets and timeouts included. -/
def Obligations.StepIsItsClockCycles : Prop :=
  ∀ s : State, s.cfg.legal = true → s.world.dgSlot = none → step s = .next (cycles (stepSpan s) s)

/-- The invariant of Safety.lean is kept by every step from every state that has it. -/
def Obligations.EveryStepKeepsTheInvariant : Prop := ∀ s t : State, MachineInv s → step s = .next t → MachineInv t

/-- The invariant holds after reset, for all legal parameters and any world. -/
def Obligations.TheInvariantHoldsAtReset : Prop :=
  MachineInv State.reset ∧ ∀ (p : Params) (w : World), p.legal = true → MachineInv (State.resetWith p w)

/-- 00_scope.md R8: a parameter is fixed for a run (log 3). -/
def Obligations.NoStepChangesAParameter : Prop := ∀ s t : State, step s = .next t → t.cfg = s.cfg

/-! ### Failures -/

/-- 60_exceptions.md R331, R333: axis 3 ends every op that has an axis with BAD_AXIS, a zero WRNZ among them; two cycles pass
and nothing but the response is written. The engine is at rest in the next state, where cur and cur_src read 0 (log 10). -/
def Obligations.AxisThreeIsBadAxis : Prop :=
  ∀ (i : Instr) (s : State), axisOperand i = some 3#2 →
    exec i s = .next (ended 4#3 0#32 0#8 0#9 s.eng s.world.busq (passCycles 2 s))

/-- 30_encoding.md R117: ops 14 and 15 answer ILLEGAL_OP and have no other effect, whatever their other fields hold. The
engine is at rest in the next state, where cur and cur_src read 0 (log 10). -/
def Obligations.ReservedOpsAnswerIllegalOp : Prop :=
  (∀ w : Command, opField w = 14#4 → decodeCommand w = .reserved14) ∧
  (∀ w : Command, opField w = 15#4 → decodeCommand w = .reserved15) ∧
  ∀ s : State,
    exec .reserved14 s = .next (ended 5#3 0#32 0#8 0#9 s.eng s.world.busq (passCycles 2 s)) ∧
    exec .reserved15 s = .next (ended 5#3 0#32 0#8 0#9 s.eng s.world.busq (passCycles 2 s))

/-- 40_transaction.md R166: WRNZ of exactly 0 on a legal axis is INVALID_ARGUMENT; no transaction, `pend[a]` unchanged. The
engine is at rest in the next state, where cur and cur_src read 0 (log 10). -/
def Obligations.ZeroWrnzIsInvalidArgument : Prop :=
  ∀ (s : State) (axis : BitVec 2) (addr : Addr), axis ≠ 3#2 →
    exec (.wrnz axis addr 0#32) s = .next (ended 3#3 0#32 0#8 0#9 s.eng s.world.busq (passCycles 2 s))

/-- 60_exceptions.md R330, R332: when an op's first transaction times out, the op ends with BUS_TIMEOUT, the unchanged
`pend[a]` in `rsp_prev`, and none of its other transactions (their draws are left). The engine is at rest in the next
state, where cur and cur_src read 0 (log 10) and the datapath keeps what it held (log 8). -/
def Obligations.FirstTransactionTimedOut : Prop :=
  ∀ (i : Instr) (s : State) (axis : BitVec 2) (a : Axis) (d : Draw) (rest : List Draw),
    axisOperand i = some axis → axisOf axis = some a → zeroWrnz i = false → txnCount i ≠ 0 →
    s.world.busq = d :: rest → s.cfg.txnTimeout ≤ d.wait →
    exec i s = .next (ended 1#3 0#32 0#8 (pendBits (s.ax a).pend)
      { s.eng with toCnt := s.cfg.txnTimeout, last := ⟨.busTimeout, 0#40, (s.ax a).pend⟩ } rest
      (passCycles (2 + s.cfg.txnTimeout) s))

/-- R330, R332, 10_state.md R40: when an op's first transaction has an unexpected echo, the op ends with the received bits
in the response; the datagram was clocked, so `pend[a]` names it. That `tx_sr` still holds the datagram after the op is the
model's choice (log 8). -/
def Obligations.FirstEchoUnexpected : Prop :=
  ∀ (i : Instr) (s : State) (axis : BitVec 2) (a : Axis) (d : Draw) (rest : List Draw),
    axisOperand i = some axis → axisOf axis = some a → zeroWrnz i = false → txnCount i ≠ 0 →
    s.world.busq = d :: rest → d.wait < s.cfg.txnTimeout → d.unexpected = true →
    ∃ t, exec i s = .next t ∧
      t.rsp = ⟨2#3, rxData d.reply, rxStatus d.reply, pendBits (s.ax a).pend, true⟩ ∧
      t.eng.txSr = datagram (opDatagram i a 0 s).1 (opDatagram i a 0 s).2.1 (opDatagram i a 0 s).2.2 ∧
      t.world.busq = rest ∧
      let u := passCycles (2 + grantedCycles s.cfg d.wait) s
      t.gateCnt = u.gateCnt ∧
      t.ax a = { u.ax a with pend := ⟨true, (opDatagram i a 0 s).1, (opDatagram i a 0 s).2.1⟩ } ∧
      ∀ b, b ≠ a → t.ax b = u.ax b

/-- 60_exceptions.md R330, R332; 40_transaction.md R158: a later transaction that fails, of any op with more than one. Those
before it stand: `rsp_prev` is the record of the last of them, and `pend[a]` names that one if the failing transaction timed out
and the failing one itself if its echo was unexpected; the op's further transactions do not run and nothing it buffered commits.
`sent k` is the op's datagram k; only SWPOL's third depends on what was read. That `tx_sr` still holds the last datagram sent
after the op is the model's choice (log 8). -/
def Obligations.LaterTransactionFails : Prop :=
  ∀ (i : Instr) (s : State) (axis : BitVec 2) (a : Axis) (good : List Draw) (d : Draw) (rest : List Draw),
    axisOperand i = some axis → axisOf axis = some a → zeroWrnz i = false →
    good ≠ [] → good.length < txnCount i → (∀ g ∈ good, CleanDraw s.cfg g) → ¬ CleanDraw s.cfg d →
    s.world.busq = good ++ d :: rest →
    let k := good.length
    let sent := fun j => opDatagram i a j
      { s with eng := { s.eng with tmp0 := (good.map fun g => rxData g.reply).getD 1 0#32 } }
    let before : Pend := ⟨true, (sent (k - 1)).1, (sent (k - 1)).2.1⟩
    let u := passCycles (2 + grantedSum s.cfg good + txnCycles s.cfg d) s
    ∃ t, exec i s = .next t ∧ t.world.busq = rest ∧ t.gateCnt = u.gateCnt ∧ (∀ b, b ≠ a → t.ax b = u.ax b) ∧
      (s.cfg.txnTimeout ≤ d.wait →
        t.rsp = ⟨1#3, 0#32, 0#8, pendBits before, true⟩ ∧ t.ax a = { u.ax a with pend := before } ∧
        t.eng.txSr = datagram (sent (k - 1)).1 (sent (k - 1)).2.1 (sent (k - 1)).2.2) ∧
      (d.wait < s.cfg.txnTimeout →
        t.rsp = ⟨2#3, rxData d.reply, rxStatus d.reply, pendBits before, true⟩ ∧
        t.ax a = { u.ax a with pend := ⟨true, (sent k).1, (sent k).2.1⟩ } ∧
        t.eng.txSr = datagram (sent k).1 (sent k).2.1 (sent k).2.2)

/-- 60_exceptions.md R334: whatever the draws, a host command whose response is not OK has changed, of the registers of an
axis, only `pend` of its own axis; the filter's request registers are what time alone makes of them over the op's cycles. -/
def Obligations.FailedCommandsArePrecise : Prop :=
  ∀ (i : Instr) (s t : State), isCommand i = true → exec i s = .next t → t.rsp.code ≠ 0#3 →
    ∀ a,
      t.ax a = { s.ax a with
        pend := (t.ax a).pend
        joyNext := ((passCycles (opCycles i s) s).ax a).joyNext
        joyPend := ((passCycles (opCycles i s) s).ax a).joyPend } ∧
      (axisOperand i ≠ some (axisBits a) → (t.ax a).pend = (s.ax a).pend)

/-! ### What each instruction does -/

/-- 40_transaction.md R160: any word with op = 0 is a NOP, its axis field included; it answers OK with zeros and writes
nothing but the response. The engine is at rest in the next state, where cur and cur_src read 0 (log 10). -/
def Obligations.NopOnlyResponds : Prop :=
  (∀ w : Command, opField w = 0#4 → decodeCommand w = .nop) ∧
  ∀ s : State, exec .nop s = .next (ended 0#3 0#32 0#8 0#9 s.eng s.world.busq (passCycles 2 s))

/-- R162: XFER sends its low 40 bits as the datagram and returns the echo with the record it belongs to. The model's
choice in the next state: the resting values of the engine's registers, bit_cnt 40 and div_cnt 0 among them (log 8), and cur
and cur_src read 0 at rest (log 10). -/
def Obligations.XferSendsItsDatagram : Prop :=
  ∀ (s : State) (axis : BitVec 2) (a : Axis) (w : Bool) (addr : Addr) (data : Word) (d : Draw) (rest : List Draw),
    axisOf axis = some a → s.world.busq = d :: rest → CleanDraw s.cfg d →
    let u := passCycles (2 + grantedSum s.cfg [d]) s
    exec (.xfer axis w addr data) s = .next
      (ended 0#3 (rxData d.reply) (rxStatus d.reply) (pendBits (s.ax a).pend)
        (afterTxn w addr data d (s.ax a).pend s.eng) rest
        (u.setAx a { u.ax a with pend := ⟨true, w, addr⟩ }))

/-- R164: WRITE sends `{1, addr, data}`, data 0 included. The model's choice in the next state: the resting values of the
engine's registers, bit_cnt 40 and div_cnt 0 among them (log 8), and cur and cur_src read 0 at rest (log 10). -/
def Obligations.WriteSendsOneWriteDatagram : Prop :=
  ∀ (s : State) (axis : BitVec 2) (a : Axis) (addr : Addr) (data : Word) (d : Draw) (rest : List Draw),
    axisOf axis = some a → s.world.busq = d :: rest → CleanDraw s.cfg d →
    let u := passCycles (2 + grantedSum s.cfg [d]) s
    exec (.write axis addr data) s = .next
      (ended 0#3 (rxData d.reply) (rxStatus d.reply) (pendBits (s.ax a).pend)
        (afterTxn true addr data d (s.ax a).pend s.eng) rest
        (u.setAx a { u.ax a with pend := ⟨true, true, addr⟩ }))

/-- R166: WRNZ of any value but 0 is a WRITE. The model's choice in the next state: the resting values of the engine's
registers, bit_cnt 40 and div_cnt 0 among them (log 8), and cur and cur_src read 0 at rest (log 10). -/
def Obligations.WrnzSendsEveryNonzeroValue : Prop :=
  ∀ (s : State) (axis : BitVec 2) (a : Axis) (addr : Addr) (data : Word) (d : Draw) (rest : List Draw),
    axisOf axis = some a → data ≠ 0#32 → s.world.busq = d :: rest → CleanDraw s.cfg d →
    let u := passCycles (2 + grantedSum s.cfg [d]) s
    exec (.wrnz axis addr data) s = .next
      (ended 0#3 (rxData d.reply) (rxStatus d.reply) (pendBits (s.ax a).pend)
        (afterTxn true addr data d (s.ax a).pend s.eng) rest
        (u.setAx a { u.ax a with pend := ⟨true, true, addr⟩ }))

/-- R170: READ runs two read transactions with data 0, discards the first echo and returns the second. The model's
choice in the next state: the resting values of the engine's registers, bit_cnt 40 and div_cnt 0 among them (log 8), and cur
and cur_src read 0 at rest (log 10). The second part gives, on any draws, the sequence of its transactions in literals. -/
def Obligations.ReadReturnsTheSecondEcho : Prop :=
  (∀ (s : State) (axis : BitVec 2) (a : Axis) (addr : Addr) (d1 d2 : Draw) (rest : List Draw),
    axisOf axis = some a → s.world.busq = d1 :: d2 :: rest → CleanDraw s.cfg d1 → CleanDraw s.cfg d2 →
    let u := passCycles (2 + grantedSum s.cfg [d1, d2]) s
    exec (.read axis addr) s = .next
      (ended 0#3 (rxData d2.reply) (rxStatus d2.reply) (pendBits ⟨true, false, addr⟩)
        (afterTxn false addr 0#32 d2 ⟨true, false, addr⟩ s.eng) rest
        (u.setAx a { u.ax a with pend := ⟨true, false, addr⟩ }))) ∧
  ∀ (s : State) (axis : BitVec 2) (a : Axis) (addr : Addr), axisOf axis = some a →
    exec (.read axis addr) s = .next (finish respondEcho
      (ifOk (txn a false addr 0#32) (txn a false addr 0#32 (passCycles 1 s)))) ∧
    ∀ k, k < 2 → opDatagram (.read axis addr) a k s = (false, addr, 0#32)

/-- 41_status_decode.md R210: POLL reads GSTAT, RAMPSTAT and DRVSTATUS, writes every stored telemetry element and the
stall-guard value, and returns the whole vector. The model's choice in the next state: the resting values of the engine's
registers, bit_cnt 40 and div_cnt 0 among them (log 8), and that after the commit the tmp registers keep their words and cur
and cur_src read 0 (log 10). The second part gives, on any draws, the sequence of its transactions in literals. -/
def Obligations.PollRefreshesTheTelemetry : Prop :=
  (∀ (s : State) (axis : BitVec 2) (a : Axis) (d1 d2 d3 d4 d5 d6 : Draw) (rest : List Draw),
    axisOf axis = some a → s.world.busq = d1 :: d2 :: d3 :: d4 :: d5 :: d6 :: rest →
    CleanDraw s.cfg d1 → CleanDraw s.cfg d2 → CleanDraw s.cfg d3 → CleanDraw s.cfg d4 → CleanDraw s.cfg d5 →
    CleanDraw s.cfg d6 →
    let u := passCycles (2 + grantedSum s.cfg [d1, d2, d3, d4, d5, d6]) s
    let x : AxisRegs := { u.ax a with
      pend := ⟨true, false, 0x6F#7⟩
      telDev := decodeGstat s.cfg (rxData d2.reply) ||| decodeRampstat (rxData d4.reply) |||
        decodeDrvstatus s.cfg (rxData d6.reply)
      sgRes := stallGuard s.cfg (rxData d6.reply) }
    exec (.poll axis) s = .next
      (ended 0#3 ((telemetry x).setWidth 32) (rxStatus d6.reply) (pendBits ⟨true, false, 0x6F#7⟩)
        (afterTxn false 0x6F#7 0#32 d6 ⟨true, false, 0x6F#7⟩
          { s.eng with tmp0 := rxData d2.reply, tmp1 := rxData d4.reply, tmp2 := rxData d6.reply }) rest
        (u.setAx a x))) ∧
  ∀ (s : State) (axis : BitVec 2) (a : Axis), axisOf axis = some a →
    let rd := fun (addr : Addr) (s : State) => ifOk (txn a false addr 0#32) (txn a false addr 0#32 s)
    exec (.poll axis) s = .next (finish (commitPoll a)
      (ifOk (fun s => ifOk keepTmp2 (rd 0x6F#7 s))
        (ifOk (fun s => ifOk keepTmp1 (rd 0x35#7 s)) (ifOk keepTmp0 (rd 0x01#7 (passCycles 1 s)))))) ∧
    ∀ k, k < 6 → opDatagram (.poll axis) a k s =
      (false, if k < 2 then 0x01#7 else if k < 4 then 0x35#7 else 0x6F#7, 0#32)

/-- R211: POLLSG reads RAMPSTAT and DRVSTATUS, writes elements 0 and 1 and the stall-guard value, and returns that value. The
premise is the machine's invariant that the bits which are not stored are 0 (10_state.md R45). The model's choice in the next
state: the resting values of the engine's registers, bit_cnt 40 and div_cnt 0 among them (log 8), and that after the commit
the tmp registers keep their words and cur and cur_src read 0 (log 10). The second part gives, on any draws, the sequence of
its transactions in literals. -/
def Obligations.PollsgRefreshesStallGuard : Prop :=
  (∀ (s : State) (axis : BitVec 2) (a : Axis) (d1 d2 d3 d4 : Draw) (rest : List Draw),
    axisOf axis = some a → s.world.busq = d1 :: d2 :: d3 :: d4 :: rest →
    CleanDraw s.cfg d1 → CleanDraw s.cfg d2 → CleanDraw s.cfg d3 → CleanDraw s.cfg d4 → AxisInv (s.ax a) →
    let u := passCycles (2 + grantedSum s.cfg [d1, d2, d3, d4]) s
    let x : AxisRegs := { u.ax a with
      pend := ⟨true, false, 0x6F#7⟩
      telDev := ((s.ax a).telDev &&& ~~~maskSG) ||| (decodeRampstat (rxData d2.reply) &&& maskSG)
      sgRes := stallGuard s.cfg (rxData d4.reply) }
    exec (.pollsg axis) s = .next
      (ended 0#3 (x.sgRes.setWidth 32) (rxStatus d4.reply) (pendBits ⟨true, false, 0x6F#7⟩)
        (afterTxn false 0x6F#7 0#32 d4 ⟨true, false, 0x6F#7⟩
          { s.eng with tmp1 := rxData d2.reply, tmp2 := rxData d4.reply }) rest
        (u.setAx a x))) ∧
  ∀ (s : State) (axis : BitVec 2) (a : Axis), axisOf axis = some a →
    let rd := fun (addr : Addr) (s : State) => ifOk (txn a false addr 0#32) (txn a false addr 0#32 s)
    exec (.pollsg axis) s = .next (finish (commitPollsg a)
      (ifOk (fun s => ifOk keepTmp2 (rd 0x6F#7 s)) (ifOk keepTmp1 (rd 0x35#7 (passCycles 1 s))))) ∧
    ∀ k, k < 4 → opDatagram (.pollsg axis) a k s = (false, if k < 2 then 0x35#7 else 0x6F#7, 0#32)

/-- R212: POLLSW reads RAMPSTAT, writes elements 6–11 and returns the whole vector. The model's choice in the next state: the
resting values of the engine's registers, bit_cnt 40 and div_cnt 0 among them (log 8), and that after the commit the tmp
registers keep their words and cur and cur_src read 0 (log 10). The second part gives, on any draws, the sequence of its
transactions in literals. -/
def Obligations.PollswRefreshesTheSwitches : Prop :=
  (∀ (s : State) (axis : BitVec 2) (a : Axis) (d1 d2 : Draw) (rest : List Draw),
    axisOf axis = some a → s.world.busq = d1 :: d2 :: rest → CleanDraw s.cfg d1 → CleanDraw s.cfg d2 →
    AxisInv (s.ax a) →
    let u := passCycles (2 + grantedSum s.cfg [d1, d2]) s
    let x : AxisRegs := { u.ax a with
      pend := ⟨true, false, 0x35#7⟩
      telDev := ((s.ax a).telDev &&& ~~~maskSW) ||| (decodeRampstat (rxData d2.reply) &&& maskSW) }
    exec (.pollsw axis) s = .next
      (ended 0#3 ((telemetry x).setWidth 32) (rxStatus d2.reply) (pendBits ⟨true, false, 0x35#7⟩)
        (afterTxn false 0x35#7 0#32 d2 ⟨true, false, 0x35#7⟩ { s.eng with tmp1 := rxData d2.reply }) rest
        (u.setAx a x))) ∧
  ∀ (s : State) (axis : BitVec 2) (a : Axis), axisOf axis = some a →
    exec (.pollsw axis) s = .next (finish (commitPollsw a)
      (ifOk keepTmp1 (ifOk (txn a false 0x35#7 0#32) (txn a false 0x35#7 0#32 (passCycles 1 s))))) ∧
    ∀ k, k < 2 → opDatagram (.pollsw axis) a k s = (false, 0x35#7, 0#32)

/-- 42_axis_control.md R240: VEL writes RAMPMODE 2 or 1 by `d XOR swap_dir[a]`, then VMAX with the magnitude of the signed
value, 0 and −2^31 included; the response is the second echo. The model's choice in the next state: the resting values of the
engine's registers, bit_cnt 40 and div_cnt 0 among them (log 8), and cur and cur_src read 0 at rest (log 10). The second part
gives, on any draws, the sequence of its transactions in literals. -/
def Obligations.VelSetsModeThenMagnitude : Prop :=
  (∀ (s : State) (axis : BitVec 2) (a : Axis) (d : Bool) (data : Word) (d1 d2 : Draw) (rest : List Draw),
    axisOf axis = some a → s.world.busq = d1 :: d2 :: rest → CleanDraw s.cfg d1 → CleanDraw s.cfg d2 →
    let u := passCycles (2 + grantedSum s.cfg [d1, d2]) s
    exec (.vel axis d data) s = .next
      (ended 0#3 (rxData d2.reply) (rxStatus d2.reply) (pendBits ⟨true, true, 0x20#7⟩)
        (afterTxn true 0x27#7 (BitVec.ofNat 32 data.toInt.natAbs) d2 ⟨true, true, 0x20#7⟩ s.eng) rest
        (u.setAx a { u.ax a with pend := ⟨true, true, 0x27#7⟩ })) ∧
    (velocityTxns a d data s).eng.txSr = datagram true 0x27#7 (BitVec.ofNat 32 data.toInt.natAbs) ∧
    (txn a true 0x20#7 (if d ^^ (s.ax a).swapDir then 2#32 else 1#32) s).eng.txSr =
      datagram true 0x20#7 (if d ^^ (s.ax a).swapDir then 2#32 else 1#32) ∧
    velocityTxns a d data s = ifOk (txn a true 0x27#7 (BitVec.ofNat 32 data.toInt.natAbs))
      (txn a true 0x20#7 (if d ^^ (s.ax a).swapDir then 2#32 else 1#32) s)) ∧
  ∀ (s : State) (axis : BitVec 2) (a : Axis) (d : Bool) (data : Word), axisOf axis = some a →
    let mode : Word := if d ^^ (s.ax a).swapDir then 2#32 else 1#32
    let speed : Word := BitVec.ofNat 32 data.toInt.natAbs
    exec (.vel axis d data) s = .next (finish respondEcho
      (ifOk (txn a true 0x27#7 speed) (txn a true 0x20#7 mode (passCycles 1 s)))) ∧
    opDatagram (.vel axis d data) a 0 s = (true, 0x20#7, mode) ∧
    opDatagram (.vel axis d data) a 1 s = (true, 0x27#7, speed)

/-- R250: PWR writes `en[a]`, and with it the enable pin, and nothing else but the response. The engine is at rest in
the next state, where cur and cur_src read 0 (log 10). -/
def Obligations.PwrSetsThePowerEnable : Prop :=
  ∀ (s : State) (axis : BitVec 2) (a : Axis) (d : Bool), axisOf axis = some a →
    let u := passCycles 2 s
    ∃ t, exec (.pwr axis d) s = .next t ∧
      t = ended 0#3 0#32 0#8 0#9 s.eng s.world.busq (u.setAx a { u.ax a with en := d }) ∧
      (resetDue t = false → enPin t a = (d ^^ s.cfg.enActiveLow))

/-- R251: SWAP writes the two labels and nothing else but the response; telemetry element 18 follows at once. The engine is at
rest in the next state, where cur and cur_src read 0 (log 10). -/
def Obligations.SwapRelabels : Prop :=
  ∀ (s : State) (axis : BitVec 2) (a : Axis) (d e : Bool), axisOf axis = some a →
    let u := passCycles 2 s
    ∃ t, exec (.swap axis d e) s = .next t ∧
      t = ended 0#3 0#32 0#8 0#9 s.eng s.world.busq (u.setAx a { u.ax a with swapDir := d, swapSw := e }) ∧
      (telemetry (t.ax a)).getLsbD 18 = d

/-- R252: SWPOL reads SWMODE twice and writes it back with the two polarity bits replaced by the labels in force; for
FWD_SWITCH_RIGHT = 0, of which R252 writes no formula, `swmodeWord` is the model's reading (log 14). The model's choice in the
next state: the resting values of the engine's registers, bit_cnt 40 and div_cnt 0 among them (log 8), and that after the
commit the tmp registers keep their words and cur and cur_src read 0 (log 10). The second part gives, on any draws, the
sequence of its transactions in literals. -/
def Obligations.SwpolRewritesThePolarityBits : Prop :=
  (∀ (s : State) (axis : BitVec 2) (a : Axis) (d e : Bool) (d1 d2 d3 : Draw) (rest : List Draw),
    axisOf axis = some a → s.world.busq = d1 :: d2 :: d3 :: rest →
    CleanDraw s.cfg d1 → CleanDraw s.cfg d2 → CleanDraw s.cfg d3 →
    let u := passCycles (2 + grantedSum s.cfg [d1, d2, d3]) s
    let v := swmodeWord s.cfg (s.ax a).swapSw d e (rxData d2.reply)
    exec (.swpol axis d e) s = .next
      (ended 0#3 v (rxStatus d3.reply) (pendBits ⟨true, false, 0x34#7⟩)
        (afterTxn true 0x34#7 v d3 ⟨true, false, 0x34#7⟩ { s.eng with tmp0 := rxData d2.reply }) rest
        (u.setAx a { u.ax a with pend := ⟨true, true, 0x34#7⟩ }))) ∧
  ∀ (s : State) (axis : BitVec 2) (a : Axis) (d e : Bool), axisOf axis = some a →
    exec (.swpol axis d e) s = .next (finish (commitSwpol a d e)
      (ifOk (fun s => txn a true 0x34#7 (swmodeWord s.cfg (s.ax a).swapSw d e s.eng.tmp0) s)
        (ifOk keepTmp0 (ifOk (txn a false 0x34#7 0#32) (txn a false 0x34#7 0#32 (passCycles 1 s)))))) ∧
    (∀ k, k < 2 → opDatagram (.swpol axis d e) a k s = (false, 0x34#7, 0#32)) ∧
    opDatagram (.swpol axis d e) a 2 s = (true, 0x34#7, swmodeWord s.cfg (s.ax a).swapSw d e s.eng.tmp0)

/-- R254: FLAGS loads the three host flags and nothing else but the response; telemetry elements 22–24 follow. The engine is
at rest in the next state, where cur and cur_src read 0 (log 10). -/
def Obligations.FlagsLoadsTheHostFlags : Prop :=
  ∀ (s : State) (axis : BitVec 2) (a : Axis) (data : BitVec 3), axisOf axis = some a →
    let u := passCycles 2 s
    ∃ t, exec (.flags axis data) s = .next t ∧
      t = ended 0#3 0#32 0#8 0#9 s.eng s.world.busq (u.setAx a { u.ax a with oflags := data }) ∧
      (telemetry (t.ax a)).extractLsb' 22 3 = data

/-- 43_joystick_filter.md R300: JOYCFG writes `joy_en[a]`, clears the latch when e = 1 and the request when d = 0; the clear
wins over a sample accepted in the RESP cycle, which has used the old `joy_en[a]` and `prev[a]`. The engine is at rest in
the next state, where cur and cur_src read 0 (log 10). -/
def Obligations.JoycfgConfiguresTheFilter : Prop :=
  ∀ (s : State) (axis : BitVec 2) (a : Axis) (d e : Bool), axisOf axis = some a →
    let u := passCycles 2 s
    exec (.joycfg axis d e) s = .next
      (ended 0#3 0#32 0#8 0#9 s.eng s.world.busq
        (u.setAx a { u.ax a with
          joyEn := d
          prev := if e then 0#32 else (s.ax a).prev
          joyPend := (u.ax a).joyPend && d }))

/-- 30_encoding.md R113, 40_transaction.md R158 (the model's choice of a meaning: log 6): a datagram is one transaction, on any
draw; on a clean one it writes the pipeline record of the slot's axis and the datapath and no response register. The resting
values of the datapath, bit_cnt 40 and div_cnt 0 among them, are the model's choice (log 8). -/
def Obligations.DatagramIsOneTransaction : Prop :=
  (∀ (s : State) (addr : Addr) (data : Word),
    exec (.dgWrite addr data) s = .next (txn s.world.dgAxis true addr data s) ∧
    exec (.dgRead addr data) s = .next (txn s.world.dgAxis false addr data s)) ∧
  ∀ (s : State) (addr : Addr) (data : Word) (d : Draw) (rest : List Draw),
    s.world.busq = d :: rest → CleanDraw s.cfg d →
    let a := s.world.dgAxis
    let u := passCycles (grantedSum s.cfg [d]) s
    exec (.dgWrite addr data) s = .next
      { u.setAx a { u.ax a with pend := ⟨true, true, addr⟩ } with
        eng := afterTxn true addr data d (s.ax a).pend s.eng
        world := { u.world with busq := rest } } ∧
    exec (.dgRead addr data) s = .next
      { u.setAx a { u.ax a with pend := ⟨true, false, addr⟩ } with
        eng := afterTxn false addr data d (s.ax a).pend s.eng
        world := { u.world with busq := rest } }

/-- R158, 10_state.md R40, R41: one transaction on any draw, scripted or free: the result triple, and `pend[a]` written
exactly when the datagram was clocked; no other axis is touched. That after the transaction `tx_sr` still holds the datagram and
`rx_sr` the reply, and that a timeout leaves both, is the model's choice (log 8). -/
def Obligations.TransactionResultAndPipeline : Prop :=
  ∀ (s : State) (a : Axis) (w : Bool) (addr : Addr) (data : Word),
    let d := nextDraw s
    let t := txn a w addr data s
    (d.wait < s.cfg.txnTimeout →
      t.eng.last = ⟨if d.unexpected then .unexpectedEcho else .ok, d.reply, (s.ax a).pend⟩ ∧
      (t.ax a).pend = ⟨true, w, addr⟩ ∧ t.eng.txSr = datagram w addr data ∧ t.eng.rxSr = d.reply) ∧
    (s.cfg.txnTimeout ≤ d.wait →
      t.eng.last = ⟨.busTimeout, 0#40, (s.ax a).pend⟩ ∧ (t.ax a).pend = (s.ax a).pend ∧
      t.eng.txSr = s.eng.txSr ∧ t.eng.rxSr = s.eng.rxSr) ∧
    ∀ b, b ≠ a → (t.ax b).pend = (s.ax b).pend

/-- R170, R172: on any draws, a READ that answers OK has `rsp_prev = {1, 0, addr}` and leaves `pend[a]` there, and its data is
the reply to a transaction whose predecessor on that axis was a read of `addr`. That `rx_sr`, by which the statement names that
reply, still holds it after the op is the model's choice (log 8). -/
def Obligations.OkReadNamesItsRegister : Prop :=
  ∀ (s t : State) (axis : BitVec 2) (addr : Addr), exec (.read axis addr) s = .next t → t.rsp.code = 0#3 →
    ∃ a, axisOf axis = some a ∧ t.rsp.prev = pendBits ⟨true, false, addr⟩ ∧
      (t.ax a).pend = ⟨true, false, addr⟩ ∧ t.eng.last.prev = ⟨true, false, addr⟩ ∧
      t.rsp.data = rxData t.eng.rxSr ∧ t.rsp.status = rxStatus t.eng.rxSr

/-! ### Status bits and operand words -/

/-- 41_status_decode.md R201–R203: the three slices, element by element, the stall-guard field and the five masks. -/
def Obligations.StatusSlices : Prop :=
  ∀ (p : Params) (g r v : Word) (i : Nat),
    ((decodeGstat p g).getLsbD i =
      if i = 19 then g.getLsbD p.gstatResetBit else if i = 20 then g.getLsbD p.gstatDrverrBit
      else if i = 21 then g.getLsbD p.gstatUvBit else false) ∧
    ((decodeRampstat r).getLsbD i =
      if i = 0 then r.getLsbD 13 else if i = 1 then r.getLsbD 6 else if i = 3 then r.getLsbD 8
      else if i = 4 then r.getLsbD 9 else if i = 5 then r.getLsbD 7 else if i = 6 then r.getLsbD 0
      else if i = 7 then r.getLsbD 1 else if i = 8 then r.getLsbD 4 else if i = 9 then r.getLsbD 5
      else if i = 10 then r.getLsbD 2 else if i = 11 then r.getLsbD 3 else false) ∧
    ((decodeDrvstatus p v).getLsbD i =
      if i = 2 then v.getLsbD p.drvStstBit else if i = 12 then v.getLsbD p.drvOlaBit
      else if i = 13 then v.getLsbD p.drvOlbBit else if i = 14 then v.getLsbD p.drvS2gaBit
      else if i = 15 then v.getLsbD p.drvS2gbBit else if i = 16 then v.getLsbD p.drvOtpwBit
      else if i = 17 then v.getLsbD p.drvOtBit else false) ∧
    (i < 10 → (stallGuard p v).getLsbD i = v.getLsbD (p.drvSgLsb + i)) ∧
    maskG.getLsbD i = decide (i = 19 ∨ i = 20 ∨ i = 21) ∧
    maskR.getLsbD i = decide (i = 0 ∨ i = 1 ∨ (3 ≤ i ∧ i ≤ 11)) ∧
    maskD.getLsbD i = decide (i = 2 ∨ (12 ≤ i ∧ i ≤ 17)) ∧
    maskSG.getLsbD i = decide (i = 0 ∨ i = 1) ∧
    maskSW.getLsbD i = decide (6 ≤ i ∧ i ≤ 11)

/-- R204: the three masks are disjoint and together are the stored bits; M_SG and M_SW lie in M_R; each slice keeps inside
its mask, so a full poll writes every stored element once; and a partial poll writes only its mask. -/
def Obligations.MasksPartitionTheStoredBits : Prop :=
  maskG &&& maskR = 0#25 ∧ maskG &&& maskD = 0#25 ∧ maskR &&& maskD = 0#25 ∧
  maskG ||| maskR ||| maskD = maskStored ∧ maskSG &&& ~~~maskR = 0#25 ∧ maskSW &&& ~~~maskR = 0#25 ∧
  (∀ i : Fin 25, maskStored.getLsbD i = decide (i.val ≠ 18 ∧ i.val < 22)) ∧
  (∀ (p : Params) (g r v : Word), decodeGstat p g &&& ~~~maskG = 0#25 ∧ decodeRampstat r &&& ~~~maskR = 0#25 ∧
    decodeDrvstatus p v &&& ~~~maskD = 0#25 ∧
    (decodeGstat p g ||| decodeRampstat r ||| decodeDrvstatus p v) &&& maskStored =
      decodeGstat p g ||| decodeRampstat r ||| decodeDrvstatus p v) ∧
  ∀ mask old new : Telemetry, mergeBits mask old new &&& ~~~mask = old &&& ~~~mask ∧
    mergeBits mask old new &&& mask = new &&& mask

/-- 10_state.md R44: element i of the vector: the stored ones from `tel_dev`, 18 and 22–24 live. -/
def Obligations.TelemetryElements : Prop :=
  ∀ (x : AxisRegs) (i : Nat),
    (telemetry x).getLsbD i =
      if i = 18 then x.swapDir else if i = 22 then isForward x else if i = 23 then isPositionMode x
      else if i = 24 then isHomed x else (decide (i < 25) && x.telDev.getLsbD i)

/-- 42_axis_control.md R253, with the default FWD_SWITCH_RIGHT = 1. -/
def Obligations.SwitchLevelsFollowTheLabel : Prop :=
  ∀ (p : Params) (x : AxisRegs), p.fwdSwitchRight = true →
    forwardLevel p x = (if x.swapSw then (telemetry x).getLsbD 6 else (telemetry x).getLsbD 7) ∧
    backwardLevel p x = (if x.swapSw then (telemetry x).getLsbD 7 else (telemetry x).getLsbD 6)

/-- R252: the word SWPOL writes: bits 2 and 3 from the operands by the label, every other bit as read. -/
def Obligations.SwmodeWordKeepsOtherBits : Prop :=
  ∀ (p : Params) (sw d e : Bool) (v : Word) (i : Nat), p.fwdSwitchRight = true →
    (swmodeWord p sw d e v).getLsbD i =
      if i = 2 then (if sw then d else e) else if i = 3 then (if sw then e else d) else v.getLsbD i

/-- 00_scope.md R9: the magnitude of a signed word is its mathematical absolute value, unsigned, with no overflow. -/
def Obligations.MagnitudeIsTheAbsoluteValue : Prop :=
  ∀ x : Word, (magnitude x).toNat = x.toInt.natAbs ∧ (isNegative x = true ↔ x.toInt < 0)

/-- 42_axis_control.md R260–R275: what every Axis Driver method expands to. ACC_REG, DEC_REG, PACK_IHOLD_IRUN and
PACK_CHOPCONF are OPEN (R8): the second part gives the defaults of the first three, and the fourth has none (log 12). `x` is
what the first READ of a relative move returned. The last part is the boot sequence of 70_reset_and_hazards.md R376, steps 2–8, for
one axis: the values are OPEN (BOOT_CONFIG), and the form of step 2 and the flag `teleop` are the model's choice (log 12). -/
def Obligations.DriverCallsExpand : Prop :=
  (∀ (h : HostParams) (a : Axis) (sd : Bool) (x v w : Word) (b c : Bool) (res : Nat),
    expand h a sd x (.setVelocity v) = [.wrnz (axisBits a) 0x27#7 v] ∧
    expand h a sd x (.setAcceleration v) = [.wrnz (axisBits a) h.accReg v] ∧
    expand h a sd x (.setDeceleration v) = [.wrnz (axisBits a) h.decReg v] ∧
    expand h a sd x (.setRampMode .position) = [.write (axisBits a) 0x20#7 0#32] ∧
    expand h a sd x (.setRampMode .velocityPositive) = [.write (axisBits a) 0x20#7 1#32] ∧
    expand h a sd x (.setRampMode .velocityNegative) = [.write (axisBits a) 0x20#7 2#32] ∧
    expand h a sd x (.setRampMode .hold) = [.write (axisBits a) 0x20#7 3#32] ∧
    expand h a sd x (.setPowerLevel v w) = [.write (axisBits a) 0x10#7 (h.packIholdIrun v w)] ∧
    expand h a sd x (.setXtarget v) = [.write (axisBits a) 0x2D#7 v] ∧
    expand h a sd x (.setXactual v) = [.write (axisBits a) 0x21#7 v] ∧
    expand h a sd x (.setChopConf res) = [.write (axisBits a) 0x6C#7 (h.packChopconf res)] ∧
    expand h a sd x .getVelocity = [.read (axisBits a) 0x27#7] ∧
    expand h a sd x .getAcceleration = [.read (axisBits a) h.accReg] ∧
    expand h a sd x .getDeceleration = [.read (axisBits a) h.decReg] ∧
    expand h a sd x .getXactual = [.read (axisBits a) 0x21#7] ∧
    expand h a sd x .getPowerLevel = [.read (axisBits a) 0x10#7] ∧
    expand h a sd x .getXtarget = [.read (axisBits a) 0x2D#7] ∧
    expand h a sd x (.goPos v) = [.write (axisBits a) 0x20#7 0#32, .write (axisBits a) 0x2D#7 v] ∧
    expand h a sd x (.constForward v) = [.vel (axisBits a) false v] ∧
    expand h a sd x (.constReverse v) = [.vel (axisBits a) true v] ∧
    expand h a sd x (.forward v w) = [.read (axisBits a) 0x21#7, .wrnz (axisBits a) 0x27#7 w,
      .write (axisBits a) 0x20#7 0#32, .write (axisBits a) 0x2D#7 (if sd then x - v else x + v)] ∧
    expand h a sd x (.reverse v w) = [.read (axisBits a) 0x21#7, .wrnz (axisBits a) 0x27#7 w,
      .write (axisBits a) 0x20#7 0#32, .write (axisBits a) 0x2D#7 (if sd then x + v else x - v)] ∧
    expand h a sd x .stop = [.write (axisBits a) 0x20#7 3#32] ∧
    expand h a sd x .powerEnable = [.pwr (axisBits a) true] ∧
    expand h a sd x .powerDisable = [.pwr (axisBits a) false] ∧
    expand h a sd x (.swapDirection b c) = [.swap (axisBits a) b c] ∧
    expand h a sd x (.switchActiveEnable b c) = [.swpol (axisBits a) b c] ∧
    expand h a sd x .readStatus = [.poll (axisBits a)] ∧
    expand h a sd x .sgStatus = [.pollsg (axisBits a)] ∧
    expand h a sd x .buttonStatus = [.pollsw (axisBits a)]) ∧
  (∀ (rev : Bool) (vel : Word) (limit : Nat) (off : Int) (boot : Axis → BootConfig) (hold run : Word),
    let h := hostDefaults rev vel limit off boot
    h.accReg = 0x26#7 ∧ h.decReg = 0x28#7 ∧
    (h.packIholdIrun hold run).toNat = run.toNat % 32 * 256 + hold.toNat % 32 ∧
    h.homeReverse = rev ∧ h.homeVel = vel ∧ h.homeTimeout = limit ∧ h.homeOffset = off ∧ h.bootConfig = boot) ∧
  (∀ (call : DriverCall) (data : Word),
    getterValue call data = if call = .getXtarget then data.toInt else (data.toNat : Int)) ∧
  ∀ (h : HostParams) (a : Axis) (sd ss fw bw : Bool) (f : BitVec 3) (teleop : Bool),
    let b := h.bootConfig a
    bootCommands h a sd ss fw bw f teleop =
      [.write (axisBits a) 0x00#7 b.gconf, .write (axisBits a) 0x6C#7 (h.packChopconf b.resolution),
        .write (axisBits a) 0x10#7 (h.packIholdIrun b.hold b.run), .wrnz (axisBits a) h.accReg b.acceleration,
        .wrnz (axisBits a) h.decReg b.deceleration, .write (axisBits a) 0x34#7 b.swmode,
        .swap (axisBits a) sd ss, .swpol (axisBits a) fw bw, .poll (axisBits a), .flags (axisBits a) f] ++
      (if teleop then [.joycfg (axisBits a) true true] else []) ++ [.pwr (axisBits a) true]

/-! ### Rules of the whole machine -/

/-- 10_state.md R30 (its table), 43_joystick_filter.md R299: on any draws, a host-readable register of an axis is written
only by the ops named for it. -/
def Obligations.OnlyTheNamedOpsWriteARegister : Prop :=
  ∀ (i : Instr) (s t : State) (a : Axis), exec i s = .next t →
    ((∀ axis d, i ≠ .pwr axis d) → (t.ax a).en = (s.ax a).en) ∧
    ((∀ axis d e, i ≠ .swap axis d e) → (t.ax a).swapDir = (s.ax a).swapDir ∧ (t.ax a).swapSw = (s.ax a).swapSw) ∧
    ((∀ axis data, i ≠ .flags axis data) → (t.ax a).oflags = (s.ax a).oflags) ∧
    ((∀ axis, i ≠ .poll axis ∧ i ≠ .pollsg axis ∧ i ≠ .pollsw axis) → (t.ax a).telDev = (s.ax a).telDev) ∧
    ((∀ axis, i ≠ .poll axis ∧ i ≠ .pollsg axis) → (t.ax a).sgRes = (s.ax a).sgRes) ∧
    ((∀ axis d e, i ≠ .joycfg axis d e) → (t.ax a).prev = (s.ax a).prev ∧ (t.ax a).joyEn = (s.ax a).joyEn) ∧
    (t.ax a).joyCode = (s.ax a).joyCode ∧
    (isCommand i = false → t.rsp.code = s.rsp.code ∧ t.rsp.data = s.rsp.data ∧ t.rsp.status = s.rsp.status ∧
      t.rsp.prev = s.rsp.prev)

/-- 70_reset_and_hazards.md R381, 60_exceptions.md R347: on any draws, a host op leaves every other axis as time alone
leaves it over the op's cycles: no pipeline record, label, flag, power, telemetry or latch of another axis changes, and its
request registers are what the filter alone makes of them. -/
def Obligations.OtherAxesAreUntouched : Prop :=
  ∀ (i : Instr) (s t : State) (a : Axis), isCommand i = true → axisOperand i ≠ some (axisBits a) →
    exec i s = .next t →
    t.ax a = (passCycles (opCycles i s) s).ax a ∧
    t.ax a = { s.ax a with joyNext := (t.ax a).joyNext, joyPend := (t.ax a).joyPend }

/-! ### The joystick filter -/

/-- 43_joystick_filter.md R294: the comparator is exact on integers for every pair of 32-bit values, with strict
inequalities; and counting 0 as positive gives the same comparator on every input. -/
def Obligations.ComparatorIsExact : Prop :=
  ∀ p n : Word,
    (reissueNeeded p n = true ↔
      p.toInt.sign ≠ n.toInt.sign ∨ 4 * n.toInt.natAbs > 5 * p.toInt.natAbs ∨
        4 * n.toInt.natAbs < 3 * p.toInt.natAbs) ∧
    (reissueNeeded p n = true ↔
      decide (p.toInt < 0) ≠ decide (n.toInt < 0) ∨ 4 * n.toInt.natAbs > 5 * p.toInt.natAbs ∨
        4 * n.toInt.natAbs < 3 * p.toInt.natAbs)

/-- R293: after an accept the gate is closed for the next `SAMPLE_CYCLES − 1` cycles, whatever strobes come, so accepts are
at least `SAMPLE_CYCLES` cycles apart. -/
def Obligations.AcceptsAreAPeriodApart : Prop :=
  ∀ (s : State) (v : Sample) (n : Nat), gateOpen s = true → n + 1 < sampleCycles s.cfg →
    gateOpen (passCycles n (filterCycle (some v) s)) = false

/-- R292: a strobe in a cycle that does not accept changes nothing that the cycle without it would not. -/
def Obligations.StrobesOutsideTheGateAreIgnored : Prop :=
  ∀ (s : State) (v : Sample), gateOpen s = false → filterCycle (some v) s = filterCycle none s

/-- R295: an accept latches the sample of every driven axis that fails the band test, and nothing else; the gate reloads. -/
def Obligations.AcceptLatchesWhatMustBeReissued : Prop :=
  ∀ (s : State) (v : Sample) (a : Axis), gateOpen s = true →
    (filterCycle (some v) s).gateCnt = sampleCycles s.cfg - 1 ∧
    (filterCycle (some v) s).ax a =
      if ((s.ax a).joyEn && maskDriven s.cfg a && reissueNeeded (s.ax a).prev (sampleOf v a)) = true then
        { s.ax a with joyNext := sampleOf v a, joyPend := true }
      else s.ax a

/-- R291, R299: on an axis that is not filter-driven no number of cycles and no strobes change anything. -/
def Obligations.UndrivenAxesAreNeverRequested : Prop :=
  ∀ (s : State) (n : Nat) (a : Axis), driven s a = false → (passCycles n s).ax a = s.ax a

/-- R297, 70_reset_and_hazards.md R396: a pending re-issue whose transactions are OK, and which no reset cuts short: RAMPMODE by
the sign and the label, VMAX with the magnitude, standstill cleared, power on, the latch set, the code OK, the request
cleared; the response registers keep their values. The model's choice in the next state: the resting values of the engine's
other registers, bit_cnt 40 and div_cnt 0 among them (log 8), and cur and cur_src read 0 at rest (log 10). -/
def Obligations.ReissueAppliesTheSample : Prop :=
  ∀ (s : State) (a : Axis) (d1 d2 : Draw) (rest : List Draw),
    s.eng.state = .idle → cutShort s = false → s.world.dgSlot = none → lowestPending s = some a →
    s.world.busq = d1 :: d2 :: rest → CleanDraw s.cfg d1 → CleanDraw s.cfg d2 → AxisInv (s.ax a) →
    let n := (s.ax a).joyNext
    let u := passCycles (2 + grantedSum s.cfg [d1, d2]) s
    step s = .next
      { u.setAx a { s.ax a with
          pend := ⟨true, true, 0x27#7⟩
          telDev := (s.ax a).telDev &&& ~~~4#25
          en := true
          prev := n
          joyCode := 0#3
          joyPend := false } with
        eng := atRest (afterTxn true 0x27#7 (BitVec.ofNat 32 n.toInt.natAbs) d2 ⟨true, true, 0x20#7⟩ s.eng)
        world := { u.world with busq := rest } } ∧
    u.rsp = { s.rsp with valid := false } ∧
    reissue a s = commitReissue a n (respCycle
      (ifOk (txn a true 0x27#7 (BitVec.ofNat 32 n.toInt.natAbs))
        (txn a true 0x20#7 (if decide (n.toInt < 0) ^^ (s.ax a).swapDir then 2#32 else 1#32)
          (passCycles 1 (loadReissue a s)))))

/-- R297, 60_exceptions.md R335: on any draws, scripted or free, a re-issue that no reset cuts short records the code of its
first transaction, or of its second if the first was OK: BUS_TIMEOUT for a draw not granted in time, UNEXPECTED_ECHO for an
unexpected echo. A re-issue that fails leaves the latch, the power and the telemetry as they were; the request is cleared
and the response registers are not touched either way. -/
def Obligations.FailedReissueLeavesTheLatch : Prop :=
  ∀ (s : State) (a : Axis),
    s.eng.state = .idle → cutShort s = false → s.world.dgSlot = none → lowestPending s = some a →
    let first := drawCode s.cfg (nextDraw s)
    let code := if first = 0#3 then drawCode s.cfg (nextDraw (dropDraw s)) else first
    ∃ t, step s = .next t ∧ (t.ax a).joyPend = false ∧ (t.ax a).joyCode = code ∧
      codeBits t.eng.last.code = code ∧
      t.rsp.code = s.rsp.code ∧ t.rsp.data = s.rsp.data ∧ t.rsp.status = s.rsp.status ∧
      t.rsp.prev = s.rsp.prev ∧ t.rsp.valid = false ∧ t.world.hostq = s.world.hostq ∧
      (code ≠ 0#3 →
        (t.ax a).prev = (s.ax a).prev ∧ (t.ax a).en = (s.ax a).en ∧ (t.ax a).telDev = (s.ax a).telDev) ∧
      (code = 0#3 → (t.ax a).prev = (s.ax a).joyNext ∧ (t.ax a).en = true) ∧
      ∀ b, b ≠ a → t.ax b = s.ax b

/-- R298, 20_memory.md R96: while a request waits, the engine takes no host command: a step runs the re-issue of the
lowest waiting axis and the command stays on the port. -/
def Obligations.ReissuesComeBeforeCommands : Prop :=
  ∀ s : State, anyPending s = true → resetDue s = false → s.eng.state = .idle → s.world.dgSlot = none →
    cutShort s = false →
    cmdReady s = false ∧
    ∃ a t, (s.ax a).joyPend = true ∧ (a = .a1 → s.axes.a0.joyPend = false) ∧
      (a = .a2 → s.axes.a0.joyPend = false ∧ s.axes.a1.joyPend = false) ∧
      step s = .next t ∧ t = reissue a s ∧ t.world.hostq = s.world.hostq

/-! ### Pins -/

/-- 40_transaction.md R150–R153, R156: the levels of the bus pins. At most one chip select is low. In SETUP, SHIFT and HOLD of a
transaction to axis a it is that axis's, the bus is requested, `sck` is high in SETUP and HOLD, and `mosi` holds `tx_sr[39]` in
SETUP and `tx_sr[0]` in HOLD. In cycle n of SHIFT, bit period `n / (2·SCK_DIV)`, `sck` is low in the first half of the period
and high in the second, and `mosi` is `tx_sr[39 − k]`. In IDLE, REQ, GAP and RESP the bus idles. -/
def Obligations.BusPinLevels : Prop :=
  (∀ s : State,
    (∀ a b, csN s a = false → csN s b = false → a = b) ∧
    (∀ a, csN s a = false → curCheck s = .ok a ∧
      (s.eng.state = .setup ∨ s.eng.state = .shift ∨ s.eng.state = .hold)) ∧
    (s.eng.state = .idle ∨ s.eng.state = .resp ∨ s.eng.state = .req ∨ s.eng.state = .gap →
      (∀ a, csN s a = true) ∧ sck s = true ∧ mosi s = false ∧
      busReq s = (decide (s.eng.state = .req) && !resetDue s)) ∧
    ∀ a, curCheck s = .ok a → resetDue s = false →
      (s.eng.state = .setup ∨ s.eng.state = .shift ∨ s.eng.state = .hold →
        csN s a = false ∧ (∀ b, b ≠ a → csN s b = true) ∧ busReq s = true) ∧
      (s.eng.state = .setup → sck s = true ∧ mosi s = s.eng.txSr.getLsbD 39) ∧
      (s.eng.state = .hold → sck s = true ∧ mosi s = s.eng.txSr.getLsbD 0)) ∧
  ∀ (s : State) (a : Axis) (n : Nat), s.cfg.legal = true → curCheck s = .ok a → s.eng.state = .shift →
    s.eng.bitCnt = 0 → s.eng.divCnt = 0 → s.eng.sckHigh = false →
    n < 80 * s.cfg.sckDiv → resetWithin s (n + 1) = false →
    csN (cycles n s) a = false ∧ busReq (cycles n s) = true ∧
    sck (cycles n s) = decide (s.cfg.sckDiv ≤ n % (2 * s.cfg.sckDiv)) ∧
    mosi (cycles n s) = s.eng.txSr.getLsbD (39 - n / (2 * s.cfg.sckDiv))

/-! ### Cycle counts -/

/-- 70_reset_and_hazards.md R395: with the default timing, immediate grants and no failing draw, the step that takes a command
lasts 2 cycles and 329 for each transaction its op runs, none if its check fails. R396: an IDLE engine with a waiting request
starts the re-issue in the next cycle, and the step lasts that IDLE cycle and the 659 cycles of the re-issue (log 23). -/
def Obligations.OpLengthsAreTheTable : Prop :=
  (∀ (s : State) (w : Command), s.cfg = Params.default → cmdReady s = true → cutShort s = false →
    commandOnPort s = some w → 6 ≤ s.world.busq.length → (∀ d ∈ s.world.busq, d.wait = 0 ∧ d.unexpected = false) →
    stepSpan s = 2 + 329 * (match check (opField w) (axisField w) (dataField w) with
      | .ok _ => (match (opField w).toNat with
        | 1 => 1
        | 2 => 1
        | 3 => 1
        | 4 => 2
        | 5 => 6
        | 6 => 4
        | 7 => 2
        | 8 => 2
        | 11 => 3
        | _ => 0)
      | .error _ => 0)) ∧
  ∀ s : State, s.cfg = Params.default → s.eng.state = .idle → resetDue s = false → s.world.dgSlot = none →
    cutShort s = false → anyPending s = true → 2 ≤ s.world.busq.length →
    (∀ d ∈ s.world.busq, d.wait = 0 ∧ d.unexpected = false) →
    cmdReady s = false ∧ (cycle s).eng.state = .req ∧ (cycle s).eng.curSrc = true ∧ stepSpan s = 1 + 659

/-! ### The source's round trip -/

/-- 95_test_vectors.md 1.1, the source's testable property 1: on every axis and for every nonzero value, setting a velocity and
reading it back returns the value, when the device is RefDev (its draws are a premise: 60_exceptions.md R350). -/
def Obligations.VelocityRoundTrip : Prop :=
  ∀ (s : State) (axis : BitVec 2) (a : Axis) (v : Word) (rest : List Draw),
    axisOf axis = some a → v ≠ 0#32 → 1 ≤ s.cfg.txnTimeout →
    s.world.busq = refDevDraws RefDev.fresh
      [datagram true 0x27#7 v, datagram false 0x27#7 0#32, datagram false 0x27#7 0#32] ++ rest →
    ∃ t u, exec (.wrnz axis 0x27#7 v) s = .next t ∧ t.rsp.code = 0#3 ∧
      exec (.read axis 0x27#7) t = .next u ∧
      u.rsp = ⟨0#3, v, 0#8, pendBits ⟨true, false, 0x27#7⟩, true⟩ ∧ u.world.busq = rest
end

