-- ==== Sys2Proof/Laws/Flags.lean ====
section
/-! SUPPORT. Small facts of the status bits: one telemetry bit, one bit under a mask, and the words kept inside the stored
bits. -/

namespace Sys2Proof.Machine

theorem telBit_getLsbD (i j : Nat) (b : Bool) :
    (telBit i b).getLsbD j = (b && decide (j = i) && decide (j < 25)) := by
  unfold telBit
  cases b
  · simp
  · simp only [if_true, BitVec.getLsbD_shiftLeft, BitVec.getLsbD_one, Bool.true_and]
    by_cases hj : j < 25 <;> by_cases h : j = i
    · subst h; simp [hj]
    · simp only [hj, decide_true, Bool.true_and, h, decide_false, Bool.false_and]
      by_cases hlt : j < i
      · simp [hlt]
      · have : ¬ j - i = 0 := by omega
        simp [hlt, this]
    · simp [hj]
    · simp [hj]

/-- A telemetry bit lies inside a mask that has it. -/
theorem telBit_and (m : Telemetry) (i : Nat) (b : Bool) (h : 1#25 <<< i &&& m = 1#25 <<< i) :
    telBit i b &&& m = telBit i b := by
  cases b
  · simp [telBit]
  · simpa [telBit] using h

theorem or_and (x y m : Telemetry) (hx : x &&& m = x) (hy : y &&& m = y) : (x ||| y) &&& m = x ||| y := by
  apply BitVec.eq_of_getLsbD_eq
  intro i _
  have h1 := congrArg (fun z => z.getLsbD i) hx
  have h2 := congrArg (fun z => z.getLsbD i) hy
  simp only [BitVec.getLsbD_and, BitVec.getLsbD_or] at *
  revert h1 h2
  cases x.getLsbD i <;> cases y.getLsbD i <;> cases m.getLsbD i <;> simp

theorem decodeGstat_and (p : Params) (g : Word) : decodeGstat p g &&& maskG = decodeGstat p g :=
  or_and _ _ _ (or_and _ _ _ (telBit_and _ _ _ (by decide)) (telBit_and _ _ _ (by decide)))
    (telBit_and _ _ _ (by decide))

theorem decodeRampstat_and (r : Word) : decodeRampstat r &&& maskR = decodeRampstat r := by
  unfold decodeRampstat
  repeat' apply or_and
  all_goals exact telBit_and _ _ _ (by decide)

theorem decodeDrvstatus_and (p : Params) (v : Word) : decodeDrvstatus p v &&& maskD = decodeDrvstatus p v := by
  unfold decodeDrvstatus
  repeat' apply or_and
  all_goals exact telBit_and _ _ _ (by decide)

/-- A word inside one mask is inside a larger one. -/
theorem and_mono {x m n : Telemetry} (h : x &&& m = x) (hm : m &&& n = m) : x &&& n = x := by
  rw [← h, BitVec.and_assoc, hm]

/-- What POLL writes is stored whole (41_status_decode.md R204, R210). -/
theorem decode_stored (p : Params) (g r v : Word) :
    (decodeGstat p g ||| decodeRampstat r ||| decodeDrvstatus p v) &&& maskStored =
      decodeGstat p g ||| decodeRampstat r ||| decodeDrvstatus p v :=
  or_and _ _ _ (or_and _ _ _ (and_mono (decodeGstat_and p g) (by decide)) (and_mono (decodeRampstat_and r) (by decide)))
    (and_mono (decodeDrvstatus_and p v) (by decide))

/-- No bit outside the stored ones: the same said as a fixed point of the mask. -/
theorem stored_iff (x : Telemetry) : x &&& ~~~maskStored = 0#25 ↔ x &&& maskStored = x := by
  constructor
  · intro h
    apply BitVec.eq_of_getLsbD_eq
    intro i hi
    have h1 := congrArg (fun z => z.getLsbD i) h
    simp only [BitVec.getLsbD_and, BitVec.getLsbD_not, hi, decide_true, Bool.true_and, BitVec.getLsbD_zero] at *
    revert h1
    cases x.getLsbD i <;> cases maskStored.getLsbD i <;> simp
  · intro h
    rw [← h, BitVec.and_assoc]
    simp

/-- A merge of stored bits under a mask of stored bits is stored. -/
theorem mergeBits_stored (m old new : Telemetry) (hm : m &&& maskStored = m) (h : old &&& maskStored = old) :
    mergeBits m old new &&& maskStored = mergeBits m old new := by
  apply or_and
  · rw [BitVec.and_assoc, BitVec.and_comm (~~~m), ← BitVec.and_assoc, h]
  · rw [BitVec.and_assoc, hm]

end Sys2Proof.Machine
end

