-- ==== Sys2Proof/Laws/State.lean ====
section
/-! SUPPORT. One lemma per field per update of the state: the per-axis writes, the stored telemetry, the response, the
small engine writes. -/

namespace Sys2Proof.Machine

/-! ### setAx -/

@[simp] theorem State.ax_setAx_same (s : State) (a : Axis) (x : AxisRegs) : (s.setAx a x).ax a = x := by
  cases a <;> rfl

theorem State.ax_setAx_ne (s : State) {a b : Axis} (x : AxisRegs) (h : b ≠ a) : (s.setAx a x).ax b = s.ax b := by
  cases a <;> cases b <;> first | rfl | exact absurd rfl h

@[simp] theorem State.setAx_cfg (s : State) (a : Axis) (x : AxisRegs) : (s.setAx a x).cfg = s.cfg := by
  cases a <;> rfl
@[simp] theorem State.setAx_gateCnt (s : State) (a : Axis) (x : AxisRegs) :
    (s.setAx a x).gateCnt = s.gateCnt := by cases a <;> rfl
@[simp] theorem State.setAx_rsp (s : State) (a : Axis) (x : AxisRegs) : (s.setAx a x).rsp = s.rsp := by
  cases a <;> rfl
@[simp] theorem State.setAx_eng (s : State) (a : Axis) (x : AxisRegs) : (s.setAx a x).eng = s.eng := by
  cases a <;> rfl
@[simp] theorem State.setAx_world (s : State) (a : Axis) (x : AxisRegs) : (s.setAx a x).world = s.world := by
  cases a <;> rfl

/-- Writing back what is there changes nothing. -/
@[simp] theorem State.setAx_ax (s : State) (a : Axis) : s.setAx a (s.ax a) = s := by cases a <;> rfl

@[simp] theorem State.setAx_setAx (s : State) (a : Axis) (x y : AxisRegs) :
    (s.setAx a x).setAx a y = s.setAx a y := by cases a <;> rfl

@[simp] theorem State.ax_mk (cfg : Params) (x y z : AxisRegs) (g : Nat) (r : Response) (e : Engine) (w : World) :
    (State.mk cfg ⟨x, y, z⟩ g r e w).ax .a0 = x ∧ (State.mk cfg ⟨x, y, z⟩ g r e w).ax .a1 = y ∧
      (State.mk cfg ⟨x, y, z⟩ g r e w).ax .a2 = z := ⟨rfl, rfl, rfl⟩

/-! ### Updates that leave the axes alone -/

@[simp] theorem State.ax_rsp (s : State) (r : Response) (a : Axis) : ({ s with rsp := r } : State).ax a = s.ax a := by
  cases a <;> rfl
@[simp] theorem State.ax_eng (s : State) (e : Engine) (a : Axis) : ({ s with eng := e } : State).ax a = s.ax a := by
  cases a <;> rfl
@[simp] theorem State.ax_world (s : State) (w : World) (a : Axis) :
    ({ s with world := w } : State).ax a = s.ax a := by cases a <;> rfl
@[simp] theorem State.ax_gateCnt (s : State) (g : Nat) (a : Axis) :
    ({ s with gateCnt := g } : State).ax a = s.ax a := by cases a <;> rfl

/-! ### withTelDev -/

@[simp] theorem withTelDev_telDev (x : AxisRegs) (v : Telemetry) : (withTelDev x v).telDev = v &&& maskStored := rfl
@[simp] theorem withTelDev_pend (x : AxisRegs) (v : Telemetry) : (withTelDev x v).pend = x.pend := rfl
@[simp] theorem withTelDev_swapDir (x : AxisRegs) (v : Telemetry) : (withTelDev x v).swapDir = x.swapDir := rfl
@[simp] theorem withTelDev_swapSw (x : AxisRegs) (v : Telemetry) : (withTelDev x v).swapSw = x.swapSw := rfl
@[simp] theorem withTelDev_en (x : AxisRegs) (v : Telemetry) : (withTelDev x v).en = x.en := rfl
@[simp] theorem withTelDev_sgRes (x : AxisRegs) (v : Telemetry) : (withTelDev x v).sgRes = x.sgRes := rfl
@[simp] theorem withTelDev_oflags (x : AxisRegs) (v : Telemetry) : (withTelDev x v).oflags = x.oflags := rfl
@[simp] theorem withTelDev_prev (x : AxisRegs) (v : Telemetry) : (withTelDev x v).prev = x.prev := rfl
@[simp] theorem withTelDev_joyEn (x : AxisRegs) (v : Telemetry) : (withTelDev x v).joyEn = x.joyEn := rfl
@[simp] theorem withTelDev_joyNext (x : AxisRegs) (v : Telemetry) : (withTelDev x v).joyNext = x.joyNext := rfl
@[simp] theorem withTelDev_joyPend (x : AxisRegs) (v : Telemetry) : (withTelDev x v).joyPend = x.joyPend := rfl
@[simp] theorem withTelDev_joyCode (x : AxisRegs) (v : Telemetry) : (withTelDev x v).joyCode = x.joyCode := rfl

/-! ### respond -/

section
variable (c : Code) (data : Word) (status : BitVec 8) (prev : BitVec 9) (s : State)

@[simp] theorem respond_rsp : (respond c data status prev s).rsp = ⟨codeBits c, data, status, prev, true⟩ := rfl
@[simp] theorem respond_cfg : (respond c data status prev s).cfg = s.cfg := rfl
@[simp] theorem respond_axes : (respond c data status prev s).axes = s.axes := rfl
@[simp] theorem respond_ax (a : Axis) : (respond c data status prev s).ax a = s.ax a := by cases a <;> rfl
@[simp] theorem respond_gateCnt : (respond c data status prev s).gateCnt = s.gateCnt := rfl
@[simp] theorem respond_eng : (respond c data status prev s).eng = s.eng := rfl
@[simp] theorem respond_world : (respond c data status prev s).world = s.world := rfl
end

/-! ### dropDraw -/

@[simp] theorem dropDraw_cfg (s : State) : (dropDraw s).cfg = s.cfg := by unfold dropDraw; split <;> rfl
@[simp] theorem dropDraw_axes (s : State) : (dropDraw s).axes = s.axes := by unfold dropDraw; split <;> rfl
@[simp] theorem dropDraw_ax (s : State) (a : Axis) : (dropDraw s).ax a = s.ax a := by
  cases a <;> simp [State.ax]
@[simp] theorem dropDraw_gateCnt (s : State) : (dropDraw s).gateCnt = s.gateCnt := by
  unfold dropDraw; split <;> rfl
@[simp] theorem dropDraw_rsp (s : State) : (dropDraw s).rsp = s.rsp := by unfold dropDraw; split <;> rfl
@[simp] theorem dropDraw_eng (s : State) : (dropDraw s).eng = s.eng := by unfold dropDraw; split <;> rfl
@[simp] theorem dropDraw_hostq (s : State) : (dropDraw s).world.hostq = s.world.hostq := by
  unfold dropDraw; split <;> rfl
@[simp] theorem dropDraw_joyq (s : State) : (dropDraw s).world.joyq = s.world.joyq := by
  unfold dropDraw; split <;> rfl
@[simp] theorem dropDraw_rstq (s : State) : (dropDraw s).world.rstq = s.world.rstq := by
  unfold dropDraw; split <;> rfl
@[simp] theorem dropDraw_dgSlot (s : State) : (dropDraw s).world.dgSlot = s.world.dgSlot := by
  unfold dropDraw; split <;> rfl
@[simp] theorem dropDraw_dgAxis (s : State) : (dropDraw s).world.dgAxis = s.world.dgAxis := by
  unfold dropDraw; split <;> rfl

/-- A scripted draw is the next one, and is gone after it. -/
theorem nextDraw_scripted {s : State} {d : Draw} {rest : List Draw} (h : s.world.busq = d :: rest) :
    nextDraw s = d := by simp [nextDraw, h]

theorem dropDraw_scripted {s : State} {d : Draw} {rest : List Draw} (h : s.world.busq = d :: rest) :
    dropDraw s = { s with world := { s.world with busq := rest } } := by simp [dropDraw, h]

end Sys2Proof.Machine
end

