-- ==== Sys2Proof/Laws/Time.lean ====
section
/-! SUPPORT. What the passing of clock cycles can do, said once: it runs the filter (`gate_cnt`, `joy_next`, `joy_pend`),
ends the response pulse, and moves the strobe and reset scripts on; everything else stays, edits of everything
else commute with it, and times add up. -/

namespace Sys2Proof.Machine

/-! ### An axis under the filter -/

/-- Two register sets of one axis that differ at most in the filter's request (`joy_next`, `joy_pend`). -/
def SameButRequest (x y : AxisRegs) : Prop := x = { y with joyNext := x.joyNext, joyPend := x.joyPend }

theorem SameButRequest.rfl' (x : AxisRegs) : SameButRequest x x := rfl

theorem SameButRequest.trans' {x y z : AxisRegs} (h : SameButRequest x y) (k : SameButRequest y z) :
    SameButRequest x z := by
  unfold SameButRequest at *
  rw [h, k]

theorem latchAxis_same (s : State) (v : Sample) (a : Axis) : SameButRequest (latchAxis s v a) (s.ax a) := by
  unfold latchAxis
  split <;> rfl

/-- Everything one step of time leaves alone. -/
structure TimeFrame (t s : State) : Prop where
  cfg : t.cfg = s.cfg
  eng : t.eng = s.eng
  axes : ∀ a, SameButRequest (t.ax a) (s.ax a)
  rspCode : t.rsp.code = s.rsp.code
  rspData : t.rsp.data = s.rsp.data
  rspStatus : t.rsp.status = s.rsp.status
  rspPrev : t.rsp.prev = s.rsp.prev
  hostq : t.world.hostq = s.world.hostq
  busq : t.world.busq = s.world.busq
  drawCnt : t.world.drawCnt = s.world.drawCnt
  dgSlot : t.world.dgSlot = s.world.dgSlot
  dgAxis : t.world.dgAxis = s.world.dgAxis

theorem TimeFrame.rfl' (s : State) : TimeFrame s s :=
  ⟨rfl, rfl, fun _ => rfl, rfl, rfl, rfl, rfl, rfl, rfl, rfl, rfl, rfl⟩

theorem TimeFrame.trans' {u t s : State} (h : TimeFrame u t) (k : TimeFrame t s) : TimeFrame u s :=
  ⟨h.cfg.trans k.cfg, h.eng.trans k.eng, fun a => (h.axes a).trans' (k.axes a), h.rspCode.trans k.rspCode,
    h.rspData.trans k.rspData, h.rspStatus.trans k.rspStatus, h.rspPrev.trans k.rspPrev, h.hostq.trans k.hostq,
    h.busq.trans k.busq, h.drawCnt.trans k.drawCnt, h.dgSlot.trans k.dgSlot, h.dgAxis.trans k.dgAxis⟩

theorem coast_frame (n : Nat) (s : State) : TimeFrame (coast n s) s :=
  ⟨rfl, rfl, fun a => by cases a <;> rfl, rfl, rfl, rfl, rfl, rfl, rfl, rfl, rfl, rfl⟩

theorem filterCycle_frame (v : Option Sample) (s : State) : TimeFrame (filterCycle v s) s := by
  unfold filterCycle
  split
  · split
    · refine ⟨rfl, rfl, fun a => ?_, rfl, rfl, rfl, rfl, rfl, rfl, rfl, rfl, rfl⟩
      cases a <;> exact latchAxis_same s _ _
    · exact ⟨rfl, rfl, fun a => by cases a <;> rfl, rfl, rfl, rfl, rfl, rfl, rfl, rfl, rfl, rfl⟩
  · exact ⟨rfl, rfl, fun a => by cases a <;> rfl, rfl, rfl, rfl, rfl, rfl, rfl, rfl, rfl, rfl⟩

/-- Moving the strobe script leaves the same things alone. -/
theorem joyq_frame (q : List Strobe) (s : State) :
    TimeFrame { s with world := { s.world with joyq := q } } s :=
  ⟨rfl, rfl, fun a => by cases a <;> rfl, rfl, rfl, rfl, rfl, rfl, rfl, rfl, rfl, rfl⟩

theorem runFilter_frame (q : List Strobe) (n : Nat) (s : State) : TimeFrame (runFilter q n s) s := by
  induction q generalizing n s with
  | nil => exact (coast_frame n _).trans' (joyq_frame [] s)
  | cons st rest ih =>
    unfold runFilter
    split
    · exact (ih _ _).trans' ((filterCycle_frame _ _).trans' (coast_frame _ _))
    · exact (coast_frame n _).trans' (joyq_frame _ s)

theorem passCycles_frame (n : Nat) (s : State) : TimeFrame (passCycles n s) s := by
  have h := runFilter_frame s.world.joyq n s
  exact ⟨h.cfg, h.eng, fun a => by simpa [passCycles] using h.axes a, h.rspCode, h.rspData, h.rspStatus, h.rspPrev,
    h.hostq, h.busq, h.drawCnt, h.dgSlot, h.dgAxis⟩

@[simp] theorem passCycles_cfg (n : Nat) (s : State) : (passCycles n s).cfg = s.cfg := (passCycles_frame n s).cfg
@[simp] theorem passCycles_eng (n : Nat) (s : State) : (passCycles n s).eng = s.eng := (passCycles_frame n s).eng
@[simp] theorem passCycles_hostq (n : Nat) (s : State) : (passCycles n s).world.hostq = s.world.hostq :=
  (passCycles_frame n s).hostq
@[simp] theorem passCycles_busq (n : Nat) (s : State) : (passCycles n s).world.busq = s.world.busq :=
  (passCycles_frame n s).busq
@[simp] theorem passCycles_drawCnt (n : Nat) (s : State) : (passCycles n s).world.drawCnt = s.world.drawCnt :=
  (passCycles_frame n s).drawCnt
@[simp] theorem passCycles_dgSlot (n : Nat) (s : State) : (passCycles n s).world.dgSlot = s.world.dgSlot :=
  (passCycles_frame n s).dgSlot
@[simp] theorem passCycles_dgAxis (n : Nat) (s : State) : (passCycles n s).world.dgAxis = s.world.dgAxis :=
  (passCycles_frame n s).dgAxis
@[simp] theorem passCycles_rspCode (n : Nat) (s : State) : (passCycles n s).rsp.code = s.rsp.code :=
  (passCycles_frame n s).rspCode
@[simp] theorem passCycles_rspData (n : Nat) (s : State) : (passCycles n s).rsp.data = s.rsp.data :=
  (passCycles_frame n s).rspData
@[simp] theorem passCycles_rspStatus (n : Nat) (s : State) : (passCycles n s).rsp.status = s.rsp.status :=
  (passCycles_frame n s).rspStatus
@[simp] theorem passCycles_rspPrev (n : Nat) (s : State) : (passCycles n s).rsp.prev = s.rsp.prev :=
  (passCycles_frame n s).rspPrev

section
variable (n : Nat) (s : State) (a : Axis)

theorem passCycles_ax : SameButRequest ((passCycles n s).ax a) (s.ax a) := (passCycles_frame n s).axes a

@[simp] theorem passCycles_pend : ((passCycles n s).ax a).pend = (s.ax a).pend := by rw [passCycles_ax n s a]
@[simp] theorem passCycles_swapDir : ((passCycles n s).ax a).swapDir = (s.ax a).swapDir := by
  rw [passCycles_ax n s a]
@[simp] theorem passCycles_swapSw : ((passCycles n s).ax a).swapSw = (s.ax a).swapSw := by
  rw [passCycles_ax n s a]
@[simp] theorem passCycles_en : ((passCycles n s).ax a).en = (s.ax a).en := by rw [passCycles_ax n s a]
@[simp] theorem passCycles_telDev : ((passCycles n s).ax a).telDev = (s.ax a).telDev := by
  rw [passCycles_ax n s a]
@[simp] theorem passCycles_sgRes : ((passCycles n s).ax a).sgRes = (s.ax a).sgRes := by rw [passCycles_ax n s a]
@[simp] theorem passCycles_oflags : ((passCycles n s).ax a).oflags = (s.ax a).oflags := by
  rw [passCycles_ax n s a]
@[simp] theorem passCycles_prev : ((passCycles n s).ax a).prev = (s.ax a).prev := by rw [passCycles_ax n s a]
@[simp] theorem passCycles_joyEn : ((passCycles n s).ax a).joyEn = (s.ax a).joyEn := by rw [passCycles_ax n s a]
@[simp] theorem passCycles_joyCode : ((passCycles n s).ax a).joyCode = (s.ax a).joyCode := by
  rw [passCycles_ax n s a]
end

/-! ### Edits of the engine and of the bus script commute with time -/

/-- An edit of the engine and of the scripts the filter does not look at. -/
def withBus (e : Engine) (h : List HostCommand) (b : List Draw) (k : Nat) (g : Option Datagram) (s : State) : State :=
  { s with eng := e, world := { s.world with hostq := h, busq := b, drawCnt := k, dgSlot := g } }

theorem coast_withBus (n : Nat) (e : Engine) (h : List HostCommand) (b : List Draw) (k : Nat)
    (g : Option Datagram) (s : State) : coast n (withBus e h b k g s) = withBus e h b k g (coast n s) := rfl

theorem filterCycle_withBus (v : Option Sample) (e : Engine) (h : List HostCommand) (b : List Draw) (k : Nat)
    (g : Option Datagram) (s : State) :
    filterCycle v (withBus e h b k g s) = withBus e h b k g (filterCycle v s) := by
  cases v with
  | none => rfl
  | some v =>
    unfold filterCycle
    have hg : gateOpen (withBus e h b k g s) = gateOpen s := rfl
    simp only [hg]
    split <;> rfl

theorem runFilter_withBus (q : List Strobe) (n : Nat) (e : Engine) (h : List HostCommand) (b : List Draw) (k : Nat)
    (g : Option Datagram) (s : State) :
    runFilter q n (withBus e h b k g s) = withBus e h b k g (runFilter q n s) := by
  induction q generalizing n s with
  | nil => rfl
  | cons st rest ih =>
    unfold runFilter
    split
    · rw [coast_withBus, filterCycle_withBus, ih]
    · rfl

theorem passCycles_withBus (n : Nat) (e : Engine) (h : List HostCommand) (b : List Draw) (k : Nat)
    (g : Option Datagram) (s : State) :
    passCycles n (withBus e h b k g s) = withBus e h b k g (passCycles n s) := by
  have := runFilter_withBus s.world.joyq n e h b k g s
  simp only [passCycles, show (withBus e h b k g s).world.joyq = s.world.joyq from rfl, this]
  rfl

/-- The engine's registers do not matter to time. -/
theorem passCycles_setEng (n : Nat) (e : Engine) (s : State) :
    passCycles n { s with eng := e } = { passCycles n s with eng := e } := by
  have h := passCycles_withBus n e s.world.hostq s.world.busq s.world.drawCnt s.world.dgSlot s
  have hl : withBus e s.world.hostq s.world.busq s.world.drawCnt s.world.dgSlot s = { s with eng := e } := rfl
  rw [hl] at h
  rw [h, ← passCycles_hostq n s, ← passCycles_busq n s, ← passCycles_drawCnt n s, ← passCycles_dgSlot n s]
  rfl

/-- Neither do the draws. -/
theorem passCycles_dropDraw (n : Nat) (s : State) : passCycles n (dropDraw s) = dropDraw (passCycles n s) := by
  unfold dropDraw
  simp only [passCycles_busq]
  cases hq : s.world.busq with
  | nil =>
    have h := passCycles_withBus n s.eng s.world.hostq s.world.busq (s.world.drawCnt + 1) s.world.dgSlot s
    simpa [withBus, hq] using h
  | cons d rest =>
    have h := passCycles_withBus n s.eng s.world.hostq rest s.world.drawCnt s.world.dgSlot s
    simpa [withBus, hq] using h

/-- Neither does taking a command, nor anything else of the host's command script. -/
theorem passCycles_setHostq (n : Nat) (q : List HostCommand) (s : State) :
    passCycles n { s with world := { s.world with hostq := q } } =
      { passCycles n s with world := { (passCycles n s).world with hostq := q } } := by
  have h := passCycles_withBus n s.eng q s.world.busq s.world.drawCnt s.world.dgSlot s
  simpa [withBus] using h

/-! ### Edits of the pipeline record commute with time -/

/-- Write `pend[a]`. -/
def withPend (a : Axis) (p : Pend) (s : State) : State := s.setAx a { s.ax a with pend := p }

theorem coast_withPend (n : Nat) (a : Axis) (p : Pend) (s : State) :
    coast n (withPend a p s) = withPend a p (coast n s) := by cases a <;> rfl

theorem gateOpen_withPend (a : Axis) (p : Pend) (s : State) : gateOpen (withPend a p s) = gateOpen s := by
  cases a <;> rfl

theorem latchAxis_withPend (a b : Axis) (p : Pend) (v : Sample) (s : State) :
    latchAxis (withPend a p s) v b =
      if b = a then { latchAxis s v b with pend := p } else latchAxis s v b := by
  cases a <;> cases b <;> simp [latchAxis, withPend, State.setAx, State.ax, driven] <;> split <;> rfl

theorem filterCycle_withPend (v : Option Sample) (a : Axis) (p : Pend) (s : State) :
    filterCycle v (withPend a p s) = withPend a p (filterCycle v s) := by
  cases v with
  | none => cases a <;> rfl
  | some v =>
    unfold filterCycle
    simp only [gateOpen_withPend]
    split
    · simp only [acceptSample, latchAxis_withPend, endPulse]
      cases a <;> rfl
    · cases a <;> rfl

theorem runFilter_withPend (q : List Strobe) (n : Nat) (a : Axis) (p : Pend) (s : State) :
    runFilter q n (withPend a p s) = withPend a p (runFilter q n s) := by
  induction q generalizing n s with
  | nil => cases a <;> rfl
  | cons st rest ih =>
    unfold runFilter
    split
    · rw [coast_withPend, filterCycle_withPend, ih]
    · cases a <;> rfl

theorem passCycles_withPend (n : Nat) (a : Axis) (p : Pend) (s : State) :
    passCycles n (withPend a p s) = withPend a p (passCycles n s) := by
  have h := runFilter_withPend s.world.joyq n a p s
  have hq : (withPend a p s).world = s.world := by cases a <;> rfl
  simp only [passCycles, hq, h]
  cases a <;> rfl

/-! ### Times add up -/

theorem coast_add (m n : Nat) (s : State) : coast n (coast m s) = coast (m + n) s := by
  simp only [coast, State.mk.injEq, Response.mk.injEq, true_and, and_true]
  refine ⟨by omega, ?_⟩
  by_cases hm : m = 0 <;> by_cases hn : n = 0 <;> simp [hm, hn]

theorem filterCycle_joyq (v : Option Sample) (s : State) (q : List Strobe) :
    filterCycle v { s with world := { s.world with joyq := q } } =
      { filterCycle v s with world := { (filterCycle v s).world with joyq := q } } := by
  cases v with
  | none => rfl
  | some v =>
    unfold filterCycle
    have hg : gateOpen { s with world := { s.world with joyq := q } } = gateOpen s := rfl
    simp only [hg]
    split <;> rfl

/-- The script in the state does not matter to `runFilter`, which is given its own. -/
theorem runFilter_joyq (q q' : List Strobe) (n : Nat) (s : State) :
    runFilter q n { s with world := { s.world with joyq := q' } } = runFilter q n s := by
  induction q generalizing n s with
  | nil => rfl
  | cons st rest ih =>
    unfold runFilter
    split
    · have h : filterCycle (some st.sample) (coast st.wait { s with world := { s.world with joyq := q' } }) =
          { filterCycle (some st.sample) (coast st.wait s) with
            world := { (filterCycle (some st.sample) (coast st.wait s)).world with joyq := q' } } :=
        filterCycle_joyq (some st.sample) (coast st.wait s) q'
      rw [h, ih]
    · rfl

theorem runFilter_add (q : List Strobe) (m n : Nat) (s : State) :
    runFilter (runFilter q m s).world.joyq n (runFilter q m s) = runFilter q (m + n) s := by
  induction q generalizing m s with
  | nil => exact coast_add m n { s with world := { s.world with joyq := [] } }
  | cons st rest ih =>
    by_cases h : st.wait < m
    · have e1 : runFilter (st :: rest) m s =
          runFilter rest (m - st.wait - 1) (filterCycle (some st.sample) (coast st.wait s)) := by
        simp [runFilter, h]
      have e2 : runFilter (st :: rest) (m + n) s =
          runFilter rest (m - st.wait - 1 + n) (filterCycle (some st.sample) (coast st.wait s)) := by
        have h2 : st.wait < m + n := by omega
        have h3 : m + n - st.wait - 1 = m - st.wait - 1 + n := by omega
        simp [runFilter, h2, h3]
      rw [e1, e2, ih]
    · have e1 : runFilter (st :: rest) m s =
          coast m { s with world := { s.world with joyq := { st with wait := st.wait - m } :: rest } } := by
        simp [runFilter, h]
      rw [e1]
      show runFilter ({ st with wait := st.wait - m } :: rest) n _ = _
      by_cases h2 : st.wait < m + n
      · have h3 : st.wait - m < n := by omega
        have h4 : m + n - st.wait - 1 = n - (st.wait - m) - 1 := by omega
        simp only [runFilter, h2, h3, if_true, h4]
        have h5 : m + (st.wait - m) = st.wait := by omega
        rw [coast_add, h5]
        have := filterCycle_joyq (some st.sample) (coast st.wait s) ({ st with wait := st.wait - m } :: rest)
        have h6 : coast st.wait { s with world := { s.world with joyq := { st with wait := st.wait - m } :: rest } } =
            { coast st.wait s with
              world := { (coast st.wait s).world with joyq := { st with wait := st.wait - m } :: rest } } := rfl
        rw [h6, this, runFilter_joyq]
      · have h3 : ¬ st.wait - m < n := by omega
        have h4 : st.wait - m - n = st.wait - (m + n) := by omega
        simp only [runFilter, h2, h3, if_false, h4]
        rw [← coast_add m n]
        rfl

theorem resetNearer_add (q : List Nat) (m n : Nat) : resetNearer n (resetNearer m q) = resetNearer (m + n) q := by
  cases q with
  | nil => rfl
  | cons w rest => simp [resetNearer, Nat.sub_sub]

theorem runFilter_rstq (q : List Strobe) (n : Nat) (r : List Nat) (s : State) :
    runFilter q n { s with world := { s.world with rstq := r } } =
      { runFilter q n s with world := { (runFilter q n s).world with rstq := r } } := by
  induction q generalizing n s with
  | nil => rfl
  | cons st rest ih =>
    unfold runFilter
    split
    · have h : filterCycle (some st.sample) (coast st.wait { s with world := { s.world with rstq := r } }) =
          { filterCycle (some st.sample) (coast st.wait s) with
            world := { (filterCycle (some st.sample) (coast st.wait s)).world with rstq := r } } := by
        unfold filterCycle
        have hg : gateOpen (coast st.wait { s with world := { s.world with rstq := r } }) =
            gateOpen (coast st.wait s) := rfl
        simp only [hg]
        split <;> rfl
      rw [h, ih]
    · rfl

theorem runFilter_rstq_eq (q : List Strobe) (n : Nat) (s : State) : (runFilter q n s).world.rstq = s.world.rstq := by
  have h := runFilter_rstq q n s.world.rstq s
  have h2 : ({ s with world := { s.world with rstq := s.world.rstq } } : State) = s := rfl
  rw [h2] at h
  rw [h]

/-- `m` cycles and then `n` cycles are `m + n` cycles. -/
theorem passCycles_add (m n : Nat) (s : State) : passCycles n (passCycles m s) = passCycles (m + n) s := by
  have h := runFilter_add s.world.joyq m n s
  simp only [passCycles, runFilter_rstq_eq]
  rw [runFilter_rstq, h]
  simp [resetNearer_add]

/-- No time, no change. -/
theorem coast_zero (s : State) : coast 0 s = s := by simp [coast]

theorem passCycles_zero (s : State) : passCycles 0 s = s := by
  have h : runFilter s.world.joyq 0 s = s := by
    cases hq : s.world.joyq with
    | nil => simp only [runFilter, coast_zero]; rw [← hq]
    | cons st rest =>
      simp only [runFilter, Nat.not_lt_zero, if_false, coast_zero, Nat.sub_zero]
      rw [← hq]
  have h2 : resetNearer 0 s.world.rstq = s.world.rstq := by cases s.world.rstq <;> rfl
  simp only [passCycles, h, h2]

end Sys2Proof.Machine
end

