-- ==== Sys2Proof/Laws/Txn.lean ====
section
/-! SUPPORT. What the shared operations of an op can do, said once: a transaction on any draw and on a scripted one, the
two-transaction read, the check, the response and the two ways an op ends. -/

namespace Sys2Proof.Machine

/-! ### Time and the op's edits -/

theorem passCycles_one_add (n : Nat) (s : State) : passCycles n (passCycles 1 s) = passCycles (n + 1) s := by
  rw [passCycles_add, Nat.add_comm]

@[simp] theorem withPend_eng (a : Axis) (p : Pend) (s : State) : (withPend a p s).eng = s.eng := by cases a <;> rfl
@[simp] theorem withPend_cfg (a : Axis) (p : Pend) (s : State) : (withPend a p s).cfg = s.cfg := by cases a <;> rfl
@[simp] theorem withPend_world (a : Axis) (p : Pend) (s : State) : (withPend a p s).world = s.world := by
  cases a <;> rfl
@[simp] theorem withPend_rsp (a : Axis) (p : Pend) (s : State) : (withPend a p s).rsp = s.rsp := by cases a <;> rfl
@[simp] theorem withPend_gateCnt (a : Axis) (p : Pend) (s : State) : (withPend a p s).gateCnt = s.gateCnt := by
  cases a <;> rfl
@[simp] theorem withPend_ax_same (a : Axis) (p : Pend) (s : State) :
    (withPend a p s).ax a = { s.ax a with pend := p } := by cases a <;> rfl
theorem withPend_ax_ne (a b : Axis) (p : Pend) (s : State) (h : b ≠ a) : (withPend a p s).ax b = s.ax b :=
  State.ax_setAx_ne s _ h
@[simp] theorem withPend_withPend (a : Axis) (p q : Pend) (s : State) :
    withPend a q (withPend a p s) = withPend a q s := by cases a <;> rfl

section
variable (e : Engine) (h : List HostCommand) (b : List Draw) (k : Nat) (g : Option Datagram) (s : State)

@[simp] theorem withBus_eng : (withBus e h b k g s).eng = e := rfl
@[simp] theorem withBus_cfg : (withBus e h b k g s).cfg = s.cfg := rfl
@[simp] theorem withBus_rsp : (withBus e h b k g s).rsp = s.rsp := rfl
@[simp] theorem withBus_gateCnt : (withBus e h b k g s).gateCnt = s.gateCnt := rfl
@[simp] theorem withBus_ax (a : Axis) : (withBus e h b k g s).ax a = s.ax a := by cases a <;> rfl
@[simp] theorem withBus_hostq : (withBus e h b k g s).world.hostq = h := rfl
@[simp] theorem withBus_busq : (withBus e h b k g s).world.busq = b := rfl
@[simp] theorem withBus_drawCnt : (withBus e h b k g s).world.drawCnt = k := rfl
@[simp] theorem withBus_dgSlot : (withBus e h b k g s).world.dgSlot = g := rfl
@[simp] theorem withBus_withBus (e' : Engine) (h' : List HostCommand) (b' : List Draw) (k' : Nat)
    (g' : Option Datagram) : withBus e' h' b' k' g' (withBus e h b k g s) = withBus e' h' b' k' g' s := rfl
theorem withBus_withPend (a : Axis) (p : Pend) :
    withBus e h b k g (withPend a p s) = withPend a p (withBus e h b k g s) := by cases a <;> rfl
end

/-! ### The transaction -/

/-- What every transaction leaves alone, on any draw: it writes `pend[a]`, the datapath and the result, takes a draw,
and lets time pass. -/
structure TxnFrame (a : Axis) (t s : State) : Prop where
  cfg : t.cfg = s.cfg
  axes : ∀ b, SameButRequest (t.ax b) { s.ax b with pend := (t.ax b).pend }
  pend : ∀ b, b ≠ a → (t.ax b).pend = (s.ax b).pend
  state : t.eng.state = s.eng.state
  seqI : t.eng.seqI = s.eng.seqI
  cur : t.eng.cur = s.eng.cur
  curSrc : t.eng.curSrc = s.eng.curSrc
  rspCode : t.rsp.code = s.rsp.code
  rspData : t.rsp.data = s.rsp.data
  rspStatus : t.rsp.status = s.rsp.status
  rspPrev : t.rsp.prev = s.rsp.prev
  hostq : t.world.hostq = s.world.hostq
  dgSlot : t.world.dgSlot = s.world.dgSlot
  dgAxis : t.world.dgAxis = s.world.dgAxis

theorem TxnFrame.rfl' (a : Axis) (s : State) : TxnFrame a s s :=
  ⟨rfl, fun _ => rfl, fun _ _ => rfl, rfl, rfl, rfl, rfl, rfl, rfl, rfl, rfl, rfl, rfl, rfl⟩

theorem TxnFrame.trans' {a : Axis} {u t s : State} (h : TxnFrame a u t) (k : TxnFrame a t s) : TxnFrame a u s where
  cfg := h.cfg.trans k.cfg
  axes b := by
    have h1 := h.axes b
    have k1 := k.axes b
    unfold SameButRequest at *
    rw [h1, k1]
  pend b hb := (h.pend b hb).trans (k.pend b hb)
  state := h.state.trans k.state
  seqI := h.seqI.trans k.seqI
  cur := h.cur.trans k.cur
  curSrc := h.curSrc.trans k.curSrc
  rspCode := h.rspCode.trans k.rspCode
  rspData := h.rspData.trans k.rspData
  rspStatus := h.rspStatus.trans k.rspStatus
  rspPrev := h.rspPrev.trans k.rspPrev
  hostq := h.hostq.trans k.hostq
  dgSlot := h.dgSlot.trans k.dgSlot
  dgAxis := h.dgAxis.trans k.dgAxis

/-- Time alone is within a transaction's frame. -/
theorem TimeFrame.toTxn {t s : State} (h : TimeFrame t s) (a : Axis) : TxnFrame a t s where
  cfg := h.cfg
  axes b := by
    have h1 := h.axes b
    unfold SameButRequest at *
    rw [h1]
  pend b _ := by rw [h.axes b]
  state := by rw [h.eng]
  seqI := by rw [h.eng]
  cur := by rw [h.eng]
  curSrc := by rw [h.eng]
  rspCode := h.rspCode
  rspData := h.rspData
  rspStatus := h.rspStatus
  rspPrev := h.rspPrev
  hostq := h.hostq
  dgSlot := h.dgSlot
  dgAxis := h.dgAxis

/-- A transaction that is granted (R158), in one form: time passes, the draw is gone, `pend[a]` and the datapath are
written. -/
theorem txn_granted_eq (a : Axis) (w : Bool) (addr : Addr) (data : Word) (s : State)
    (h : (nextDraw s).wait < s.cfg.txnTimeout) :
    txn a w addr data s =
      withPend a ⟨true, w, addr⟩ { dropDraw (passCycles (grantedCycles s.cfg (nextDraw s).wait) s) with
        eng := { afterTxn w addr data (nextDraw s) (s.ax a).pend s.eng with
          last := ⟨echoCode (nextDraw s), (nextDraw s).reply, (s.ax a).pend⟩ } } := by
  cases a <;> simp [txn, granted, h, txnCycles, txnResult, clockTxn, withPend, State.setAx, State.ax, afterTxn]

/-- A transaction that times out (R156, R158). -/
theorem txn_timeout_eq (a : Axis) (w : Bool) (addr : Addr) (data : Word) (s : State)
    (h : s.cfg.txnTimeout ≤ (nextDraw s).wait) :
    txn a w addr data s =
      { dropDraw (passCycles s.cfg.txnTimeout s) with
        eng := { s.eng with toCnt := s.cfg.txnTimeout, last := ⟨.busTimeout, 0#40, (s.ax a).pend⟩ } } := by
  have h' : ¬ (nextDraw s).wait < s.cfg.txnTimeout := by omega
  simp [txn, granted, h', txnCycles, txnResult, timeoutTxn]

theorem dropDraw_frame (a : Axis) (s : State) : TxnFrame a (dropDraw s) s :=
  ⟨by simp, fun b => by simp [SameButRequest], fun b _ => by simp, by simp, by simp, by simp, by simp, by simp, by simp,
    by simp, by simp, by simp, by simp, by simp⟩

/-- Writing the datapath and the result leaves alone what a transaction leaves alone. -/
theorem setEng_frame (a : Axis) (s : State) (e : Engine) (h1 : e.state = s.eng.state) (h2 : e.seqI = s.eng.seqI)
    (h3 : e.cur = s.eng.cur) (h4 : e.curSrc = s.eng.curSrc) : TxnFrame a { s with eng := e } s :=
  ⟨rfl, fun b => by cases b <;> rfl, fun b _ => by cases b <;> rfl, h1, h2, h3, h4, rfl, rfl, rfl, rfl, rfl, rfl, rfl⟩

theorem withPend_frame (a : Axis) (p : Pend) (s : State) : TxnFrame a (withPend a p s) s := by
  refine ⟨by simp, fun b => ?_, fun b hb => by rw [withPend_ax_ne _ _ _ _ hb], by simp, by simp, by simp, by simp,
    by simp, by simp, by simp, by simp, by simp, by simp, by simp⟩
  by_cases hb : b = a
  · subst hb; rw [withPend_ax_same]; rfl
  · rw [withPend_ax_ne _ _ _ _ hb]; rfl

theorem txn_frame (a : Axis) (w : Bool) (addr : Addr) (data : Word) (s : State) :
    TxnFrame a (txn a w addr data s) s := by
  by_cases h : (nextDraw s).wait < s.cfg.txnTimeout
  · rw [txn_granted_eq a w addr data s h]
    exact (withPend_frame a _ _).trans'
      ((setEng_frame a _ _ (by simp [afterTxn]) (by simp [afterTxn]) (by simp [afterTxn]) (by simp [afterTxn])).trans'
        ((dropDraw_frame a _).trans' ((passCycles_frame _ s).toTxn a)))
  · rw [txn_timeout_eq a w addr data s (by omega)]
    exact (setEng_frame a _ _ (by simp) (by simp) (by simp) (by simp)).trans'
        ((dropDraw_frame a _).trans' ((passCycles_frame _ s).toTxn a))

/-- A transaction on a scripted draw that is granted. -/
theorem txn_scripted_granted {s : State} {d : Draw} {rest : List Draw} (a : Axis) (w : Bool) (addr : Addr) (data : Word)
    (hq : s.world.busq = d :: rest) (hw : d.wait < s.cfg.txnTimeout) :
    txn a w addr data s =
      withPend a ⟨true, w, addr⟩
        (withBus { afterTxn w addr data d (s.ax a).pend s.eng with last := ⟨echoCode d, d.reply, (s.ax a).pend⟩ }
          s.world.hostq rest s.world.drawCnt s.world.dgSlot (passCycles (grantedCycles s.cfg d.wait) s)) := by
  have hn := nextDraw_scripted hq
  have hd : (passCycles (grantedCycles s.cfg d.wait) s).world.busq = d :: rest := by simp [hq]
  rw [txn_granted_eq a w addr data s (by rw [hn]; exact hw), hn, dropDraw_scripted hd]
  rw [← passCycles_hostq (grantedCycles s.cfg d.wait) s, ← passCycles_drawCnt (grantedCycles s.cfg d.wait) s,
    ← passCycles_dgSlot (grantedCycles s.cfg d.wait) s]
  rfl

/-- A transaction on a scripted clean draw. -/
theorem txn_scripted_clean {s : State} {d : Draw} {rest : List Draw} (a : Axis) (w : Bool) (addr : Addr) (data : Word)
    (hq : s.world.busq = d :: rest) (hc : CleanDraw s.cfg d) :
    txn a w addr data s =
      withPend a ⟨true, w, addr⟩
        (withBus (afterTxn w addr data d (s.ax a).pend s.eng)
          s.world.hostq rest s.world.drawCnt s.world.dgSlot (passCycles (grantedCycles s.cfg d.wait) s)) := by
  rw [txn_scripted_granted a w addr data hq hc.1]
  simp [echoCode, hc.2, afterTxn]

/-- A transaction on a scripted draw that times out. -/
theorem txn_scripted_timeout {s : State} {d : Draw} {rest : List Draw} (a : Axis) (w : Bool) (addr : Addr) (data : Word)
    (hq : s.world.busq = d :: rest) (hw : s.cfg.txnTimeout ≤ d.wait) :
    txn a w addr data s =
      withBus { s.eng with toCnt := s.cfg.txnTimeout, last := ⟨.busTimeout, 0#40, (s.ax a).pend⟩ }
        s.world.hostq rest s.world.drawCnt s.world.dgSlot (passCycles s.cfg.txnTimeout s) := by
  have hn := nextDraw_scripted hq
  have hd : (passCycles s.cfg.txnTimeout s).world.busq = d :: rest := by simp [hq]
  rw [txn_timeout_eq a w addr data s (by rw [hn]; exact hw), dropDraw_scripted hd]
  rw [← passCycles_hostq s.cfg.txnTimeout s, ← passCycles_drawCnt s.cfg.txnTimeout s,
    ← passCycles_dgSlot s.cfg.txnTimeout s]
  rfl

/-- The result of a transaction is one of three codes (R158). -/
theorem txn_code (a : Axis) (w : Bool) (addr : Addr) (data : Word) (s : State) :
    (txn a w addr data s).eng.last = txnResult s.cfg (nextDraw s) (s.ax a).pend := rfl

theorem txnResult_code (p : Params) (d : Draw) (q : Pend) :
    (txnResult p d q).code = .ok ∨ (txnResult p d q).code = .busTimeout ∨
      (txnResult p d q).code = .unexpectedEcho := by
  unfold txnResult echoCode
  split
  · split <;> simp
  · simp

/-! ### Sequences -/

theorem ifOk_pos {next : State → State} {s : State} (h : lastOk s = true) : ifOk next s = next s := by simp [ifOk, h]
theorem ifOk_neg {next : State → State} {s : State} (h : lastOk s = false) : ifOk next s = s := by simp [ifOk, h]

theorem ifOk_frame {a : Axis} {next : State → State} (h : ∀ s, TxnFrame a (next s) s) (s : State) :
    TxnFrame a (ifOk next s) s := by
  unfold ifOk; split
  · exact h s
  · exact TxnFrame.rfl' a s

theorem readTwice_frame (a : Axis) (addr : Addr) (s : State) : TxnFrame a (readTwice a addr s) s :=
  (ifOk_frame (txn_frame a false addr 0#32) _).trans' (txn_frame a false addr 0#32 s)

theorem keepTmp0_frame (a : Axis) (s : State) : TxnFrame a (keepTmp0 s) s :=
  ⟨rfl, fun b => by cases b <;> rfl, fun b _ => by cases b <;> rfl, rfl, rfl, rfl, rfl, rfl, rfl, rfl, rfl, rfl, rfl, rfl⟩
theorem keepTmp1_frame (a : Axis) (s : State) : TxnFrame a (keepTmp1 s) s :=
  ⟨rfl, fun b => by cases b <;> rfl, fun b _ => by cases b <;> rfl, rfl, rfl, rfl, rfl, rfl, rfl, rfl, rfl, rfl, rfl, rfl⟩
theorem keepTmp2_frame (a : Axis) (s : State) : TxnFrame a (keepTmp2 s) s :=
  ⟨rfl, fun b => by cases b <;> rfl, fun b _ => by cases b <;> rfl, rfl, rfl, rfl, rfl, rfl, rfl, rfl, rfl, rfl, rfl, rfl⟩

theorem velocityTxns_frame (a : Axis) (d : Bool) (v : Word) (s : State) : TxnFrame a (velocityTxns a d v s) s :=
  (ifOk_frame (txn_frame a true regVMAX _) _).trans' (txn_frame a true regRAMPMODE _ s)

theorem pollswTxns_frame (a : Axis) (s : State) : TxnFrame a (pollswTxns a s) s :=
  (ifOk_frame (keepTmp1_frame a) _).trans' (readTwice_frame a regRAMPSTAT s)

theorem readKeep1_frame (a : Axis) (addr : Addr) (s : State) : TxnFrame a (ifOk keepTmp1 (readTwice a addr s)) s :=
  (ifOk_frame (keepTmp1_frame a) _).trans' (readTwice_frame a addr s)

theorem readKeep2_frame (a : Axis) (addr : Addr) (s : State) : TxnFrame a (ifOk keepTmp2 (readTwice a addr s)) s :=
  (ifOk_frame (keepTmp2_frame a) _).trans' (readTwice_frame a addr s)

/-- POLLSG's first half is POLLSW's, so are POLL's second and third parts over its first. -/
theorem pollsgTxns_eq (a : Axis) (s : State) :
    pollsgTxns a s = ifOk (fun s => ifOk keepTmp2 (readTwice a regDRVSTATUS s)) (pollswTxns a s) := rfl

theorem pollsgTxns_frame (a : Axis) (s : State) : TxnFrame a (pollsgTxns a s) s := by
  rw [pollsgTxns_eq]
  exact (ifOk_frame (readKeep2_frame a regDRVSTATUS) _).trans' (pollswTxns_frame a s)

theorem pollTxns_eq (a : Axis) (s : State) :
    pollTxns a s = ifOk (fun s => ifOk keepTmp2 (readTwice a regDRVSTATUS s))
      (ifOk (fun s => ifOk keepTmp1 (readTwice a regRAMPSTAT s)) (ifOk keepTmp0 (readTwice a regGSTAT s))) := rfl

theorem pollTxns_frame (a : Axis) (s : State) : TxnFrame a (pollTxns a s) s := by
  rw [pollTxns_eq]
  have h0 : TxnFrame a (ifOk keepTmp0 (readTwice a regGSTAT s)) s :=
    (ifOk_frame (keepTmp0_frame a) _).trans' (readTwice_frame a regGSTAT s)
  have h1 := (ifOk_frame (readKeep1_frame a regRAMPSTAT) _).trans' h0
  exact (ifOk_frame (readKeep2_frame a regDRVSTATUS) _).trans' h1

theorem swpolTxns_frame (a : Axis) (d e : Bool) (s : State) : TxnFrame a (swpolTxns a d e s) s :=
  (ifOk_frame (next := fun s => txn a true regSWMODE (swpolWord a d e s) s) (fun s => txn_frame a true regSWMODE _ s) _).trans'
    ((ifOk_frame (keepTmp0_frame a) _).trans' (readTwice_frame a regSWMODE s))

/-- A two-transaction read on two scripted clean draws. -/
theorem readTwice_scripted_clean {s : State} {d1 d2 : Draw} {rest : List Draw} (a : Axis) (addr : Addr)
    (hq : s.world.busq = d1 :: d2 :: rest) (h1 : CleanDraw s.cfg d1) (h2 : CleanDraw s.cfg d2) :
    readTwice a addr s =
      withPend a ⟨true, false, addr⟩
        (withBus (afterTxn false addr 0#32 d2 ⟨true, false, addr⟩ s.eng)
          s.world.hostq rest s.world.drawCnt s.world.dgSlot
          (passCycles (grantedCycles s.cfg d1.wait + grantedCycles s.cfg d2.wait) s)) := by
  unfold readTwice
  rw [txn_scripted_clean a false addr 0#32 hq h1, ifOk_pos (by simp [lastOk, afterTxn])]
  rw [txn_scripted_clean (d := d2) (rest := rest) a false addr 0#32 (by simp) (by simpa using h2)]
  simp only [withPend_cfg, withBus_cfg, passCycles_cfg, withPend_eng, withBus_eng, withPend_world, withBus_hostq,
    withBus_drawCnt, withBus_dgSlot, passCycles_withPend, passCycles_withBus, passCycles_add, withPend_ax_same,
    withBus_withPend, withPend_withPend, withBus_withBus]
  rfl

/-! ### The check and the two exits -/

theorem axisOf_three : axisOf 3#2 = none := rfl

theorem axisOf_some_iff (axis : BitVec 2) (a : Axis) : axisOf axis = some a ↔ axis = axisBits a := by
  cases a <;> revert axis <;> decide

theorem axisOf_none_iff (axis : BitVec 2) : axisOf axis = none ↔ axis = 3#2 := by revert axis; decide

/-- A legal op on a legal axis passes the check, unless it is WRNZ of 0 (R331). -/
theorem check_ok {op : BitVec 4} {axis : BitVec 2} {data : Word} {a : Axis} (h14 : op ≠ 14#4) (h15 : op ≠ 15#4)
    (ha : axisOf axis = some a) (hz : op = 3#4 → data ≠ 0#32) : check op axis data = .ok a := by
  unfold check
  rw [if_neg (by simp [h14, h15]), ha]
  simp only
  rw [if_neg (fun h => hz h.1 h.2)]

/-- A host op whose check passes is its body after one cycle. -/
theorem hostOp_ok {op : BitVec 4} {axis : BitVec 2} {data : Word} {a : Axis} (body : Axis → State → State) (s : State)
    (h : check op axis data = .ok a) : hostOp op axis data body s = body a (passCycles 1 s) := by
  unfold hostOp; simp only [startCycle, h]

/-- A host op whose check fails takes two cycles and writes the response (R331). -/
theorem hostOp_error {op : BitVec 4} {axis : BitVec 2} {data : Word} {c : Code} (body : Axis → State → State)
    (s : State) (h : check op axis data = .error c) :
    hostOp op axis data body s = raiseResponse c { passCycles 2 s with eng := atRest s.eng } := by
  have h2 : passCycles 1 (passCycles 1 s) = passCycles 2 s := passCycles_add 1 1 s
  unfold hostOp; simp only [startCycle, h, raise, respCycle, h2]
  simp [atRest]

/-- The failing checks (R331, R333). -/
theorem check_error {op : BitVec 4} {axis : BitVec 2} {data : Word} {c : Code} (h : check op axis data = .error c) :
    (c = .illegalOp ∧ (op = 14#4 ∨ op = 15#4)) ∨ (c = .badAxis ∧ axis = 3#2) ∨
      (c = .invalidArgument ∧ axis ≠ 3#2 ∧ op = 3#4 ∧ data = 0#32) := by
  unfold check at h
  split at h
  · cases h; exact .inl ⟨rfl, ‹_›⟩
  · split at h
    · cases h; exact .inr (.inl ⟨rfl, (axisOf_none_iff axis).1 ‹_›⟩)
    · split at h
      · rename_i a ha hz
        cases h
        refine .inr (.inr ⟨rfl, fun h3 => ?_, hz⟩)
        rw [(axisOf_none_iff axis).2 h3] at ha
        cases ha
      · cases h

/-- `finish` after transactions that were OK. -/
theorem finish_ok {commit : State → State} {s : State} (h : s.eng.last.code = .ok) :
    finish commit s = commit (respCycle s) := by
  simp [finish, respCycle, atRest, lastOk, h]

/-- `finish` after a transaction that failed (R332). -/
theorem finish_fail {commit : State → State} {s : State} (h : s.eng.last.code ≠ .ok) :
    finish commit s = failTxn (respCycle s) := by
  simp [finish, respCycle, atRest, lastOk, h]

theorem respCycle_eq (s : State) : respCycle s = { passCycles 1 s with eng := atRest s.eng } := by
  simp [respCycle, atRest]

/-! ### The states an op passes through, in one form -/

/-- The form every state inside an op has: `n` cycles have passed since `s`, and the engine, the draws and `pend[a]` are
as given. -/
def inOp (a : Axis) (p : Pend) (e : Engine) (draws : List Draw) (n : Nat) (s : State) : State :=
  withPend a p (withBus e s.world.hostq draws s.world.drawCnt s.world.dgSlot (passCycles n s))

section
variable (a : Axis) (p : Pend) (e : Engine) (draws : List Draw) (n : Nat) (s : State)

@[simp] theorem inOp_cfg : (inOp a p e draws n s).cfg = s.cfg := by simp [inOp]
@[simp] theorem inOp_eng : (inOp a p e draws n s).eng = e := by simp [inOp]
@[simp] theorem inOp_busq : (inOp a p e draws n s).world.busq = draws := by simp [inOp]
@[simp] theorem inOp_pend : ((inOp a p e draws n s).ax a).pend = p := by simp [inOp]
@[simp] theorem inOp_swapDir (b : Axis) : ((inOp a p e draws n s).ax b).swapDir = (s.ax b).swapDir := by
  by_cases hb : b = a
  · subst hb; simp [inOp]
  · rw [inOp, withPend_ax_ne _ _ _ _ hb]; simp
@[simp] theorem inOp_swapSw (b : Axis) : ((inOp a p e draws n s).ax b).swapSw = (s.ax b).swapSw := by
  by_cases hb : b = a
  · subst hb; simp [inOp]
  · rw [inOp, withPend_ax_ne _ _ _ _ hb]; simp

theorem inOp_setEng (e' : Engine) : { inOp a p e draws n s with eng := e' } = inOp a p e' draws n s := by
  cases a <;> rfl

/-- More time. -/
theorem passCycles_inOp (m : Nat) : passCycles m (inOp a p e draws n s) = inOp a p e draws (n + m) s := by
  simp [inOp, passCycles_withPend, passCycles_withBus, passCycles_add]

theorem respCycle_inOp : respCycle (inOp a p e draws n s) = inOp a p (atRest e) draws (n + 1) s := by
  rw [respCycle_eq, passCycles_inOp, inOp_setEng, inOp_eng]

theorem keepTmp0_inOp :
    keepTmp0 (inOp a p e draws n s) = inOp a p { e with tmp0 := rxData e.last.rx } draws n s := by
  unfold keepTmp0 lastData; rw [inOp_eng, inOp_setEng]
theorem keepTmp1_inOp :
    keepTmp1 (inOp a p e draws n s) = inOp a p { e with tmp1 := rxData e.last.rx } draws n s := by
  unfold keepTmp1 lastData; rw [inOp_eng, inOp_setEng]
theorem keepTmp2_inOp :
    keepTmp2 (inOp a p e draws n s) = inOp a p { e with tmp2 := rxData e.last.rx } draws n s := by
  unfold keepTmp2 lastData; rw [inOp_eng, inOp_setEng]

/-- A clean transaction inside an op. -/
theorem txn_inOp_clean (w : Bool) (addr : Addr) (data : Word) (d : Draw) (hc : CleanDraw s.cfg d) :
    txn a w addr data (inOp a p e (d :: draws) n s) =
      inOp a ⟨true, w, addr⟩ (afterTxn w addr data d p e) draws (n + grantedCycles s.cfg d.wait) s := by
  rw [txn_scripted_clean (d := d) (rest := draws) a w addr data (by simp) (by simpa using hc)]
  have h := passCycles_inOp a p e (d :: draws) n s (grantedCycles s.cfg d.wait)
  simp only [inOp_cfg, inOp_eng, inOp_pend, h]
  cases a <;> rfl

/-- A clean transaction at the start of an op. -/
theorem txn_start_clean (w : Bool) (addr : Addr) (data : Word) (d : Draw) (hq : s.world.busq = d :: draws)
    (hc : CleanDraw s.cfg d) :
    txn a w addr data (passCycles 1 s) =
      inOp a ⟨true, w, addr⟩ (afterTxn w addr data d (s.ax a).pend s.eng) draws (1 + grantedCycles s.cfg d.wait) s := by
  rw [txn_scripted_clean (d := d) (rest := draws) a w addr data (by simp [hq]) (by simpa using hc)]
  simp [passCycles_add, inOp]

/-- The result of a clean transaction is OK. -/
theorem lastOk_afterTxn (w : Bool) (addr : Addr) (data : Word) (d : Draw) (q : Pend) :
    lastOk (inOp a p (afterTxn w addr data d q e) draws n s) = true := by simp [lastOk, afterTxn]

/-- The second transaction of a two-transaction read, and so the whole read. -/
theorem readTwice_inOp_clean (addr : Addr) (d1 d2 : Draw) (h1 : CleanDraw s.cfg d1) (h2 : CleanDraw s.cfg d2) :
    readTwice a addr (inOp a p e (d1 :: d2 :: draws) n s) =
      inOp a ⟨true, false, addr⟩ (afterTxn false addr 0#32 d2 ⟨true, false, addr⟩ e) draws
        (n + grantedCycles s.cfg d1.wait + grantedCycles s.cfg d2.wait) s := by
  unfold readTwice
  rw [txn_inOp_clean _ _ _ _ _ _ _ _ _ _ h1, ifOk_pos (lastOk_afterTxn _ _ _ _ _ _ _ _ _ _ _),
    txn_inOp_clean _ _ _ _ _ _ _ _ _ _ h2]
  rfl

theorem readTwice_start_clean (addr : Addr) (d1 d2 : Draw) (hq : s.world.busq = d1 :: d2 :: draws)
    (h1 : CleanDraw s.cfg d1) (h2 : CleanDraw s.cfg d2) :
    readTwice a addr (passCycles 1 s) =
      inOp a ⟨true, false, addr⟩ (afterTxn false addr 0#32 d2 ⟨true, false, addr⟩ s.eng) draws
        (1 + grantedCycles s.cfg d1.wait + grantedCycles s.cfg d2.wait) s := by
  unfold readTwice
  rw [txn_start_clean _ _ _ _ _ _ _ hq h1, ifOk_pos (lastOk_afterTxn _ _ _ _ _ _ _ _ _ _ _),
    txn_inOp_clean _ _ _ _ _ _ _ _ _ _ h2]
  rfl

/-- Inside an op, after a transaction that was OK, the next part runs. -/
theorem ifOk_inOp (next : State → State) (h : e.last.code = .ok) :
    ifOk next (inOp a p e draws n s) = next (inOp a p e draws n s) := ifOk_pos (by simp [lastOk, h])

theorem readKeep0_start_clean (addr : Addr) (d1 d2 : Draw) (hq : s.world.busq = d1 :: d2 :: draws)
    (h1 : CleanDraw s.cfg d1) (h2 : CleanDraw s.cfg d2) :
    ifOk keepTmp0 (readTwice a addr (passCycles 1 s)) =
      inOp a ⟨true, false, addr⟩
        (afterTxn false addr 0#32 d2 ⟨true, false, addr⟩ { s.eng with tmp0 := rxData d2.reply }) draws
        (1 + grantedCycles s.cfg d1.wait + grantedCycles s.cfg d2.wait) s := by
  rw [readTwice_start_clean _ _ _ _ _ _ hq h1 h2, ifOk_inOp _ _ _ _ _ _ _ rfl, keepTmp0_inOp]
  rfl

theorem readKeep1_start_clean (addr : Addr) (d1 d2 : Draw) (hq : s.world.busq = d1 :: d2 :: draws)
    (h1 : CleanDraw s.cfg d1) (h2 : CleanDraw s.cfg d2) :
    ifOk keepTmp1 (readTwice a addr (passCycles 1 s)) =
      inOp a ⟨true, false, addr⟩
        (afterTxn false addr 0#32 d2 ⟨true, false, addr⟩ { s.eng with tmp1 := rxData d2.reply }) draws
        (1 + grantedCycles s.cfg d1.wait + grantedCycles s.cfg d2.wait) s := by
  rw [readTwice_start_clean _ _ _ _ _ _ hq h1 h2, ifOk_inOp _ _ _ _ _ _ _ rfl, keepTmp1_inOp]
  rfl

theorem readKeep1_inOp_clean (addr : Addr) (d1 d2 : Draw) (h1 : CleanDraw s.cfg d1) (h2 : CleanDraw s.cfg d2) :
    ifOk keepTmp1 (readTwice a addr (inOp a p e (d1 :: d2 :: draws) n s)) =
      inOp a ⟨true, false, addr⟩
        (afterTxn false addr 0#32 d2 ⟨true, false, addr⟩ { e with tmp1 := rxData d2.reply }) draws
        (n + grantedCycles s.cfg d1.wait + grantedCycles s.cfg d2.wait) s := by
  rw [readTwice_inOp_clean _ _ _ _ _ _ _ _ _ h1 h2, ifOk_inOp _ _ _ _ _ _ _ rfl, keepTmp1_inOp]
  rfl

theorem readKeep2_inOp_clean (addr : Addr) (d1 d2 : Draw) (h1 : CleanDraw s.cfg d1) (h2 : CleanDraw s.cfg d2) :
    ifOk keepTmp2 (readTwice a addr (inOp a p e (d1 :: d2 :: draws) n s)) =
      inOp a ⟨true, false, addr⟩
        (afterTxn false addr 0#32 d2 ⟨true, false, addr⟩ { e with tmp2 := rxData d2.reply }) draws
        (n + grantedCycles s.cfg d1.wait + grantedCycles s.cfg d2.wait) s := by
  rw [readTwice_inOp_clean _ _ _ _ _ _ _ _ _ h1 h2, ifOk_inOp _ _ _ _ _ _ _ rfl, keepTmp2_inOp]
  rfl

/-- A response after the RESP cycle of an op in that form: nothing else is written. -/
theorem respond_inOp (c : Code) (data : Word) (status : BitVec 8) (prev : BitVec 9) :
    respond c data status prev (inOp a p (atRest e) draws n s) =
      ended (codeBits c) data status prev e draws
        ((passCycles n s).setAx a { (passCycles n s).ax a with pend := p }) := by
  have hh := passCycles_hostq n s
  have hd := passCycles_drawCnt n s
  have hg := passCycles_dgSlot n s
  unfold inOp
  generalize passCycles n s = u at *
  rw [← hh, ← hd, ← hg]
  cases a <;> rfl
end

/-- The two cycles of an op without a transaction. -/
theorem respCycle_start (s : State) : respCycle (passCycles 1 s) = { passCycles 2 s with eng := atRest s.eng } := by
  have h2 : passCycles 1 (passCycles 1 s) = passCycles 2 s := passCycles_add 1 1 s
  rw [respCycle_eq, h2, passCycles_eng]

/-- An op without a transaction that writes one axis and responds done. -/
theorem setAx_two (a : Axis) (f : AxisRegs → AxisRegs) (s : State) :
    respondDone ((respCycle (passCycles 1 s)).setAx a (f ((respCycle (passCycles 1 s)).ax a))) =
      ended 0#3 0#32 0#8 0#9 s.eng s.world.busq ((passCycles 2 s).setAx a (f ((passCycles 2 s).ax a))) := by
  have hb := passCycles_busq 2 s
  rw [respCycle_start]
  generalize passCycles 2 s = u at *
  rw [← hb]
  cases a <;> rfl

/-- An op without a transaction: a response after its two cycles. -/
theorem respond_two (c : Code) (data : Word) (status : BitVec 8) (prev : BitVec 9) (s : State) :
    respond c data status prev (respCycle (passCycles 1 s)) =
      ended (codeBits c) data status prev s.eng s.world.busq (passCycles 2 s) := by
  have hb := passCycles_busq 2 s
  rw [respCycle_start]
  generalize passCycles 2 s = u at *
  rw [← hb]
  rfl

end Sys2Proof.Machine
end

