-- ==== Sys2Proof/Laws/Exec.lean ====
section
/-! SUPPORT. What `exec` can do with a host command, said once: it answers a next state, by one of four ends (NOP, a failed
check, a failed transaction, the op's commit). -/

namespace Sys2Proof.Machine

/-- The transactions of an op, as its meaning runs them. -/
def opTxns (i : Instr) (a : Axis) (s : State) : State :=
  match i with
  | .xfer _ w addr data => txn a w addr data s
  | .write _ addr data => txn a true addr data s
  | .wrnz _ addr data => txn a true addr data s
  | .read _ addr => readTwice a addr s
  | .poll _ => pollTxns a s
  | .pollsg _ => pollsgTxns a s
  | .pollsw _ => pollswTxns a s
  | .vel _ d v => velocityTxns a d v s
  | .swpol _ d e => swpolTxns a d e s
  | .nop => s
  | .pwr _ _ => s
  | .swap _ _ _ => s
  | .flags _ _ => s
  | .joycfg _ _ _ => s
  | .reserved14 => s
  | .reserved15 => s
  | .dgWrite _ _ => s
  | .dgRead _ _ => s

theorem opTxns_frame (i : Instr) (a : Axis) (s : State) : TxnFrame a (opTxns i a s) s := by
  cases i
  case xfer => exact txn_frame ..
  case write => exact txn_frame ..
  case wrnz => exact txn_frame ..
  case read => exact readTwice_frame ..
  case poll => exact pollTxns_frame ..
  case pollsg => exact pollsgTxns_frame ..
  case pollsw => exact pollswTxns_frame ..
  case vel => exact velocityTxns_frame ..
  case swpol => exact swpolTxns_frame ..
  all_goals exact TxnFrame.rfl' a s

/-- The codes a transaction can leave in `eng.last` (R158). -/
def TxnCode (c : Code) : Prop := c = .ok ∨ c = .busTimeout ∨ c = .unexpectedEcho

theorem txn_txnCode (a : Axis) (w : Bool) (addr : Addr) (data : Word) (s : State) :
    TxnCode (txn a w addr data s).eng.last.code := by
  rw [txn_code]; exact txnResult_code ..

theorem ifOk_txnCode {next : State → State} {s : State} (h : TxnCode s.eng.last.code)
    (hn : ∀ s, TxnCode s.eng.last.code → TxnCode (next s).eng.last.code) : TxnCode (ifOk next s).eng.last.code := by
  unfold ifOk; split
  · exact hn s h
  · exact h

theorem readTwice_txnCode (a : Axis) (addr : Addr) (s : State) : TxnCode (readTwice a addr s).eng.last.code :=
  ifOk_txnCode (txn_txnCode ..) fun _ _ => txn_txnCode ..

theorem opTxns_txnCode (i : Instr) (a : Axis) (s : State) (hc : isCommand i = true) (h : txnCount i ≠ 0) :
    TxnCode (opTxns i a s).eng.last.code := by
  cases i
  case xfer => exact txn_txnCode ..
  case write => exact txn_txnCode ..
  case wrnz => exact txn_txnCode ..
  case read => exact readTwice_txnCode ..
  case poll =>
    simp only [opTxns, pollTxns_eq]
    refine ifOk_txnCode (ifOk_txnCode (ifOk_txnCode (readTwice_txnCode ..) fun _ h => h) fun s _ => ?_) fun s _ => ?_
    all_goals exact ifOk_txnCode (readTwice_txnCode ..) fun _ h => h
  case pollsg =>
    simp only [opTxns, pollsgTxns_eq, pollswTxns]
    refine ifOk_txnCode (ifOk_txnCode (readTwice_txnCode ..) fun _ h => h) fun s _ => ?_
    exact ifOk_txnCode (readTwice_txnCode ..) fun _ h => h
  case pollsw => exact ifOk_txnCode (readTwice_txnCode ..) fun _ h => h
  case vel => exact ifOk_txnCode (txn_txnCode ..) fun _ _ => txn_txnCode ..
  case swpol =>
    exact ifOk_txnCode (ifOk_txnCode (readTwice_txnCode ..) fun _ h => h) fun _ _ => txn_txnCode ..
  all_goals first | exact absurd rfl h | exact absurd hc (by simp [isCommand])

/-- The RESP cycle changes no axis but in its filter request. -/
theorem respCycle_ax (s : State) (b : Axis) : SameButRequest ((respCycle s).ax b) (s.ax b) := by
  rw [respCycle_eq]; exact passCycles_ax 1 s b

/-- The state in which an op commits, against the state before the op: the axes. -/
theorem atResp_ax (i : Instr) (a b : Axis) (s : State) :
    SameButRequest ((respCycle (opTxns i a (passCycles 1 s))).ax b)
      { s.ax b with pend := ((respCycle (opTxns i a (passCycles 1 s))).ax b).pend } := by
  have h1 := respCycle_ax (opTxns i a (passCycles 1 s)) b
  have h2 := (opTxns_frame i a (passCycles 1 s)).axes b
  have h3 := passCycles_ax 1 s b
  unfold SameButRequest at *
  rw [h1, h2, h3]

/-- Of the pipeline records, only that of the op's axis can differ. -/
theorem atResp_pend (i : Instr) (a b : Axis) (s : State) (hb : b ≠ a) :
    ((respCycle (opTxns i a (passCycles 1 s))).ax b).pend = (s.ax b).pend := by
  rw [respCycle_ax, (opTxns_frame i a (passCycles 1 s)).pend b hb, passCycles_pend]

@[simp] theorem failTxn_ax (s : State) (b : Axis) : (failTxn s).ax b = s.ax b := by simp [failTxn]

@[simp] theorem ended_ax (code : BitVec 3) (data : Word) (status : BitVec 8) (prev : BitVec 9) (e : Engine)
    (draws : List Draw) (u : State) (b : Axis) : (ended code data status prev e draws u).ax b = u.ax b := by
  cases b <;> rfl

/-- What a host command leaves. -/
inductive CommandEnd (i : Instr) (s : State) : State → Prop where
  | nop : i = .nop → CommandEnd i s (ended 0#3 0#32 0#8 0#9 s.eng s.world.busq (passCycles 2 s))
  | badAxis : axisOperand i = some 3#2 →
      CommandEnd i s (ended 4#3 0#32 0#8 0#9 s.eng s.world.busq (passCycles 2 s))
  | illegalOp : i = .reserved14 ∨ i = .reserved15 →
      CommandEnd i s (ended 5#3 0#32 0#8 0#9 s.eng s.world.busq (passCycles 2 s))
  | invalidArgument : zeroWrnz i = true → axisOperand i ≠ some 3#2 →
      CommandEnd i s (ended 3#3 0#32 0#8 0#9 s.eng s.world.busq (passCycles 2 s))
  | failed (axis : BitVec 2) (a : Axis) : axisOperand i = some axis → axisOf axis = some a → zeroWrnz i = false →
      txnCount i ≠ 0 →
      (opTxns i a (passCycles 1 s)).eng.last.code ≠ .ok →
      CommandEnd i s (failTxn (respCycle (opTxns i a (passCycles 1 s))))
  | done (axis : BitVec 2) (a : Axis) : axisOperand i = some axis → axisOf axis = some a → zeroWrnz i = false →
      (txnCount i ≠ 0 → (opTxns i a (passCycles 1 s)).eng.last.code = .ok) →
      CommandEnd i s (opCommit i a (respCycle (opTxns i a (passCycles 1 s))))

theorem raise_two (c : Code) (s : State) :
    raiseResponse c { passCycles 2 s with eng := atRest s.eng } =
      ended (codeBits c) 0#32 0#8 0#9 s.eng s.world.busq (passCycles 2 s) := by
  have hb := passCycles_busq 2 s
  generalize passCycles 2 s = u at *
  rw [← hb]
  rfl

theorem hostOp_end {i : Instr} {op : BitVec 4} {axis : BitVec 2} {data : Word} {body : Axis → State → State} {s : State}
    (hi : axisOperand i = some axis) (h14 : op ≠ 14#4) (h15 : op ≠ 15#4) (hz : zeroWrnz i = decide (op = 3#4 ∧ data = 0#32))
    (hb : ∀ a, axisOf axis = some a → zeroWrnz i = false → CommandEnd i s (body a (passCycles 1 s))) :
    CommandEnd i s (hostOp op axis data body s) := by
  cases hc : check op axis data with
  | ok a =>
    rw [hostOp_ok _ _ hc]
    unfold check at hc
    rw [if_neg (by simp [h14, h15])] at hc
    split at hc
    · cases hc
    · split at hc
      · cases hc
      · rename_i hn
        cases hc
        exact hb a (by assumption) (by rw [hz]; exact decide_eq_false hn)
  | error c =>
    rw [hostOp_error _ _ hc, raise_two]
    rcases check_error hc with ⟨rfl, h | h⟩ | ⟨rfl, h⟩ | ⟨rfl, h3, h1, h2⟩
    · exact absurd h h14
    · exact absurd h h15
    · subst h; exact .badAxis hi
    · exact .invalidArgument (by rw [hz]; simp [h1, h2]) (by rw [hi]; simpa using h3)

theorem finish_end {i : Instr} {axis : BitVec 2} {s : State} {commit : State → State} {a : Axis}
    (hi : axisOperand i = some axis) (ha : axisOf axis = some a) (hz : zeroWrnz i = false) (ht : txnCount i ≠ 0)
    (hcm : commit = opCommit i a) :
    CommandEnd i s (finish commit (opTxns i a (passCycles 1 s))) := by
  by_cases h : (opTxns i a (passCycles 1 s)).eng.last.code = .ok
  · rw [finish_ok h, hcm]; exact .done axis a hi ha hz fun _ => h
  · rw [finish_fail h]; exact .failed axis a hi ha hz ht h

/-- Every host command ends in one of those ways, in every state and on any draws (60_exceptions.md R331, R332). -/
theorem exec_command (i : Instr) (s : State) (hc : isCommand i = true) : ∃ t, exec i s = .next t ∧ CommandEnd i s t := by
  cases i
  case nop => exact ⟨_, congrArg Host.Outcome.next (respond_two ..), .nop rfl⟩
  case reserved14 =>
    refine ⟨_, congrArg Host.Outcome.next ((hostOp_error _ s (c := .illegalOp) (by rfl)).trans (raise_two _ s)), ?_⟩
    exact .illegalOp (.inl rfl)
  case reserved15 =>
    refine ⟨_, congrArg Host.Outcome.next ((hostOp_error _ s (c := .illegalOp) (by rfl)).trans (raise_two _ s)), ?_⟩
    exact .illegalOp (.inr rfl)
  case dgWrite => exact absurd hc (by simp [isCommand])
  case dgRead => exact absurd hc (by simp [isCommand])
  case wrnz axis addr data =>
    exact ⟨_, rfl, hostOp_end rfl (by decide) (by decide) (by simp [zeroWrnz])
      fun a ha hz => finish_end (i := .wrnz axis addr data) rfl ha hz (by simp [txnCount]) rfl⟩
  case xfer axis w addr data =>
    exact ⟨_, rfl, hostOp_end rfl (by decide) (by decide) (by simp [zeroWrnz])
      fun a ha hz => finish_end (i := .xfer axis w addr data) rfl ha hz (by simp [txnCount]) rfl⟩
  case write axis addr data =>
    exact ⟨_, rfl, hostOp_end rfl (by decide) (by decide) (by simp [zeroWrnz])
      fun a ha hz => finish_end (i := .write axis addr data) rfl ha hz (by simp [txnCount]) rfl⟩
  case read axis addr =>
    exact ⟨_, rfl, hostOp_end rfl (by decide) (by decide) (by simp [zeroWrnz])
      fun a ha hz => finish_end (i := .read axis addr) rfl ha hz (by simp [txnCount]) rfl⟩
  case poll axis =>
    exact ⟨_, rfl, hostOp_end rfl (by decide) (by decide) (by simp [zeroWrnz])
      fun a ha hz => finish_end (i := .poll axis) rfl ha hz (by simp [txnCount]) rfl⟩
  case pollsg axis =>
    exact ⟨_, rfl, hostOp_end rfl (by decide) (by decide) (by simp [zeroWrnz])
      fun a ha hz => finish_end (i := .pollsg axis) rfl ha hz (by simp [txnCount]) rfl⟩
  case pollsw axis =>
    exact ⟨_, rfl, hostOp_end rfl (by decide) (by decide) (by simp [zeroWrnz])
      fun a ha hz => finish_end (i := .pollsw axis) rfl ha hz (by simp [txnCount]) rfl⟩
  case vel axis d v =>
    exact ⟨_, rfl, hostOp_end rfl (by decide) (by decide) (by simp [zeroWrnz])
      fun a ha hz => finish_end (i := .vel axis d v) rfl ha hz (by simp [txnCount]) rfl⟩
  case swpol axis d e =>
    exact ⟨_, rfl, hostOp_end rfl (by decide) (by decide) (by simp [zeroWrnz])
      fun a ha hz => finish_end (i := .swpol axis d e) rfl ha hz (by simp [txnCount]) rfl⟩
  case pwr axis d =>
    exact ⟨_, rfl, hostOp_end rfl (by decide) (by decide) (by simp [zeroWrnz])
      fun a ha hz => .done (i := .pwr axis d) axis a rfl ha hz fun h => absurd rfl h⟩
  case swap axis d e =>
    exact ⟨_, rfl, hostOp_end rfl (by decide) (by decide) (by simp [zeroWrnz])
      fun a ha hz => .done (i := .swap axis d e) axis a rfl ha hz fun h => absurd rfl h⟩
  case flags axis data =>
    exact ⟨_, rfl, hostOp_end rfl (by decide) (by decide) (by simp [zeroWrnz])
      fun a ha hz => .done (i := .flags axis data) axis a rfl ha hz fun h => absurd rfl h⟩
  case joycfg axis d e =>
    exact ⟨_, rfl, hostOp_end rfl (by decide) (by decide) (by simp [zeroWrnz])
      fun a ha hz => .done (i := .joycfg axis d e) axis a rfl ha hz fun h => absurd rfl h⟩

end Sys2Proof.Machine
end

