-- ==== Sys2Proof/Laws/Clock.lean ====
section
/-! SUPPORT. The cycle level said once: what a cycle inside a transaction does, what each phase of a transaction does, and
that a whole transaction, and all the transactions of an op, are their clock cycles. -/

namespace Sys2Proof.Machine

/-! ### Time and cycles -/

/-- `s` after `n` cycles in which the engine's registers became `e` and nothing else of the engine's was written. -/
def atCycle (n : Nat) (e : Engine) (s : State) : State := { passCycles n s with eng := e }

@[simp] theorem atCycle_eng (n : Nat) (e : Engine) (s : State) : (atCycle n e s).eng = e := rfl
@[simp] theorem atCycle_cfg (n : Nat) (e : Engine) (s : State) : (atCycle n e s).cfg = s.cfg := passCycles_cfg n s
theorem atCycle_ax (n : Nat) (e : Engine) (s : State) (a : Axis) : (atCycle n e s).ax a = (passCycles n s).ax a :=
  State.ax_eng ..
@[simp] theorem atCycle_pend (n : Nat) (e : Engine) (s : State) (a : Axis) :
    ((atCycle n e s).ax a).pend = (s.ax a).pend := by rw [atCycle_ax, passCycles_pend]

theorem atCycle_atCycle (m n : Nat) (e f : Engine) (s : State) :
    atCycle n f (atCycle m e s) = atCycle (m + n) f s := by
  unfold atCycle; rw [passCycles_setEng, passCycles_add]

theorem atCycle_zero (e : Engine) (s : State) : atCycle 0 e s = { s with eng := e } := by
  unfold atCycle; rw [passCycles_zero]

@[simp] theorem nextDraw_atCycle (n : Nat) (e : Engine) (s : State) : nextDraw (atCycle n e s) = nextDraw s := by
  simp [nextDraw, atCycle]

theorem passCycles_rstq (n : Nat) (s : State) : (passCycles n s).world.rstq = resetNearer n s.world.rstq := by
  simp only [passCycles, runFilter_rstq_eq]

/-- No reset within `m` more cycles, after `n` of them. -/
theorem resetWithin_atCycle {n m : Nat} {e : Engine} {s : State} (h : resetWithin s (n + m) = false) :
    resetWithin (atCycle n e s) m = false := by
  unfold resetWithin at *
  show (match (passCycles n s).world.rstq with | w :: _ => decide (w < m) | [] => false) = false
  rw [passCycles_rstq]
  cases hq : s.world.rstq with
  | nil => rfl
  | cons w rest => simp [hq, resetNearer] at h ⊢; omega

theorem resetWithin_le {s : State} {m n : Nat} (hmn : m ≤ n) (h : resetWithin s n = false) :
    resetWithin s m = false := by
  unfold resetWithin at *
  split
  · rename_i w _ hq; simp [hq] at h ⊢; omega
  · rfl

theorem resetDue_of_within {s : State} {n : Nat} (h : resetWithin s (n + 1) = false) : resetDue s = false := by
  unfold resetWithin at h; unfold resetDue
  split
  · simp_all; omega
  · rfl

theorem filterCycle_world (v : Option Sample) (s : State) : (filterCycle v s).world = s.world := by
  unfold filterCycle; split
  · split <;> rfl
  · rfl

theorem runFilter_zero (q : List Strobe) (s : State) :
    runFilter q 0 s = { s with world := { s.world with joyq := q } } := by
  cases q with
  | nil => rw [runFilter, coast_zero]
  | cons st rest => rw [runFilter, if_neg (by omega), coast_zero]; rfl

/-- One cycle of time, as the cycle level does it. -/
theorem passCycles_one (s : State) :
    passCycles 1 s = { filterCycle (joyOnPort s) s with world := { s.world with
      rstq := resetNearer 1 s.world.rstq
      joyq := skipStrobe s.world.joyq } } := by
  have hw := fun v => filterCycle_world v s
  unfold passCycles
  cases hq : s.world.joyq with
  | nil => simp [runFilter, coast, joyOnPort, hq, filterCycle, endPulse, skipStrobe]
  | cons st rest =>
    by_cases h0 : st.wait = 0
    · have hj : joyOnPort s = some st.sample := by simp [joyOnPort, hq, h0]
      have hk : skipStrobe (st :: rest) = rest := by simp [skipStrobe, h0]
      have hr : runFilter (st :: rest) 1 s =
          { filterCycle (some st.sample) s with world := { s.world with joyq := rest } } := by
        rw [runFilter, if_pos (by omega), h0, coast_zero]
        have := runFilter_zero rest (filterCycle (some st.sample) s)
        rw [show 1 - 0 - 1 = 0 from rfl, this, hw]
      rw [hr, hj, hk]
    · have hj : joyOnPort s = none := by simp [joyOnPort, hq, h0]
      have hk : skipStrobe (st :: rest) = { st with wait := st.wait - 1 } :: rest := by simp [skipStrobe, h0]
      rw [hj, hk, runFilter, if_neg (by omega)]
      simp [coast, filterCycle, endPulse]

theorem cycles_succ (n : Nat) (s : State) : cycles (n + 1) s = cycle (cycles n s) := by
  induction n generalizing s with
  | zero => rfl
  | succ n ih => exact ih (cycle s)

theorem cycles_add (m n : Nat) (s : State) : cycles (m + n) s = cycles n (cycles m s) := by
  induction m generalizing s with
  | zero => rw [Nat.zero_add]; rfl
  | succ m ih => rw [Nat.succ_add]; exact ih (cycle s)

/-! ### One cycle inside a transaction -/

/-- A transaction is under way. -/
def inTransfer (e : Engine) : Prop :=
  e.state = .req ∨ e.state = .setup ∨ e.state = .shift ∨ e.state = .hold ∨ e.state = .gap

theorem filterCycle_eng (v : Option Sample) (s : State) : (filterCycle v s).eng = s.eng := (filterCycle_frame v s).eng

/-- The datagrams of an op do not depend on what the filter writes. -/
theorem opDatagram_frame (i : Instr) (a : Axis) (k : Nat) {t s : State} (h : TimeFrame t s) :
    opDatagram i a k t = opDatagram i a k s := by
  have ha := h.axes a
  unfold SameButRequest at ha
  cases i <;> simp only [opDatagram, swpolWord, h.cfg, h.eng] <;> rw [ha]

/-- A cycle inside a transaction that does not end it moves the engine's registers and passes time. -/
theorem cycle_transfer {s : State} {a : Axis} (hr : resetDue s = false) (hc : curCheck s = .ok a)
    (ht : inTransfer s.eng) (he : txnEnds s = false) :
    cycle s = atCycle 1 (txnEngine (pinsOf s) a s).eng s := by
  have hf : engineFree s = false := by
    unfold engineFree inTransfer at *
    rcases ht with h | h | h | h | h <;> simp [h]
  have hh : hostCycle s = s.world.hostq := by simp [hostCycle, hf]
  have hb := filterCycle_frame (pinsOf s).joy s
  have hT : txnEngine (pinsOf s) a (filterCycle (pinsOf s).joy s) =
      { filterCycle (pinsOf s).joy s with eng := (txnEngine (pinsOf s) a s).eng } := by
    have hp : ((filterCycle (pinsOf s).joy s).ax a).pend = (s.ax a).pend := by
      have h1 := hb.axes a
      rw [SameButRequest] at h1
      rw [h1]
    have hd := opDatagram_frame (curInstr s) a s.eng.seqI hb
    have hi : curInstr (filterCycle (pinsOf s).joy s) = curInstr s := by simp [curInstr, hb.eng]
    unfold txnEnds at he
    unfold inTransfer at ht
    unfold txnEngine
    simp only [hb.eng, hb.cfg, hi, hd, hp]
    rcases ht with h | h | h | h | h <;> simp only [h, hc] at he ⊢
    · split
      · rfl
      · split <;> rfl
    · split <;> rfl
    · by_cases h1 : s.eng.sckHigh = true <;> by_cases h2 : s.cfg.sckDiv ≤ s.eng.divCnt + 1 <;>
        by_cases h3 : s.eng.divCnt = 0 <;>
        simp only [h1, h2, h3, if_true, if_false, Bool.false_eq_true, Nat.zero_add] <;> simp only [h3, Nat.zero_add] at h2 <;>
        simp only [h2, if_true, if_false]
    · simp only [decide_eq_false_iff_not] at he
      simp only [if_neg he]
    · split
      · simp only [lastOk, hb.eng]
        by_cases hg : (decide (s.eng.last.code = .ok) && decide (s.eng.seqI + 1 < txnCount (curInstr s))) = true
        · simp only [if_pos hg]; erw [if_pos hg]
        · simp only [if_neg hg]; erw [if_neg hg]
      · rfl
  have hE : tick (pinsOf s) s = txnEngine (pinsOf s) a (filterCycle (pinsOf s).joy s) := by
    have h1 : curCheck (filterCycle (pinsOf s).joy s) = .ok a := by simpa [curCheck, hb.eng] using hc
    have h0 : (pinsOf s).rst = false := hr
    unfold tick engineCycle
    simp only [h0, Bool.false_eq_true, if_false, hb.eng, h1]
    unfold inTransfer at ht
    rcases ht with h | h | h | h | h <;> simp only [h]
  unfold cycle
  simp only [hr, he, hh, hE, hT]
  unfold atCycle
  rw [passCycles_one]
  have hw := hb.hostq
  have hj : (pinsOf s).joy = joyOnPort s := rfl
  have hw : (filterCycle (joyOnPort s) s).world = s.world := filterCycle_world _ s
  simp only [hj, hw, Bool.false_eq_true, if_false]

/-- A run of cycles inside a transaction, given the engine after each. -/
theorem cycles_transfer {s : State} {a : Axis} {N : Nat} (E : Nat → Engine) (h0 : s.eng = E 0)
    (hr : resetWithin s N = false)
    (h : ∀ n, n < N → curCheck (atCycle n (E n) s) = .ok a ∧ inTransfer (E n) ∧ txnEnds (atCycle n (E n) s) = false ∧
      (txnEngine (pinsOf (atCycle n (E n) s)) a (atCycle n (E n) s)).eng = E (n + 1)) :
    cycles N s = atCycle N (E N) s := by
  suffices ∀ m, m ≤ N → cycles m s = atCycle m (E m) s from this N (Nat.le_refl N)
  intro m hm
  induction m with
  | zero => rw [atCycle_zero, ← h0]; rfl
  | succ m ih =>
    obtain ⟨h1, h2, h3, h4⟩ := h m hm
    have hd : resetDue (atCycle m (E m) s) = false := by
      refine resetDue_of_within (n := N - m - 1) (resetWithin_atCycle ?_)
      rwa [show m + (N - m - 1 + 1) = N by omega]
    rw [cycles_succ, ih (by omega), cycle_transfer hd h1 h2 h3, h4, atCycle_atCycle]

/-- The registers a transaction's check and op are read from. -/
theorem curCheck_at {n : Nat} {e : Engine} {s : State} {a : Axis} (h : e.cur = s.eng.cur) (hc : curCheck s = .ok a) :
    curCheck (atCycle n e s) = .ok a := by rw [← hc]; simp [curCheck, h]
theorem curInstr_atCycle {n : Nat} {e : Engine} {s : State} (h : e.cur = s.eng.cur) :
    curInstr (atCycle n e s) = curInstr s := by simp [curInstr, h]
theorem opDatagram_atCycle {n : Nat} {e : Engine} {s : State} (i : Instr) (a : Axis) (k : Nat)
    (h : e.tmp0 = s.eng.tmp0) : opDatagram i a k (atCycle n e s) = opDatagram i a k s := by
  have h1 := opDatagram_frame i a k (passCycles_frame n s)
  rw [← h1]
  cases i <;> simp only [opDatagram, swpolWord, atCycle_ax, atCycle_cfg, atCycle_eng, passCycles_eng, passCycles_cfg, h]

/-! ### The phases of a transaction -/

/-- The engine with its REQ counter at `n`, its dwell counter at `k`, or its shift registers as given. -/
def setTo (e : Engine) (n : Nat) : Engine := { e with toCnt := n }
def setDwell (e : Engine) (k : Nat) : Engine := { e with dwell := k }
def setShift (e : Engine) (b k : Nat) (high : Bool) (rx : Datagram) : Engine :=
  { e with bitCnt := b, divCnt := k, sckHigh := high, rxSr := rx }

/-- REQ cycles before the grant or the timeout (R156). -/
theorem cycles_wait {s : State} {a : Axis} {N : Nat} (hs : s.eng.state = .req) (h0 : s.eng.toCnt = 0)
    (hc : curCheck s = .ok a) (hN : N ≤ (nextDraw s).wait) (hT : N < s.cfg.txnTimeout)
    (hr : resetWithin s N = false) : cycles N s = atCycle N (setTo s.eng N) s := by
  refine cycles_transfer (a := a) (setTo s.eng) (by simp [setTo, ← h0]) hr fun n hn => ?_
  have h2 : ¬ (nextDraw s).wait ≤ n := by omega
  have h3 : ¬ s.cfg.txnTimeout ≤ n + 1 := by omega
  refine ⟨curCheck_at (by rfl) hc, .inl hs, ?_, ?_⟩
  · unfold txnEnds
    rw [curCheck_at (by rfl) hc]
    simp [hs, pinsOf, setTo, h3]
  · unfold txnEngine
    have hst : (setTo s.eng n).state = .req := hs
    simp only [atCycle_eng, hst, pinsOf, nextDraw_atCycle, atCycle_cfg]
    simp [setTo, hs, h2, h3]

/-- The cycle of the grant (R156). -/
theorem cycle_grant {s : State} {a : Axis} (hs : s.eng.state = .req) (hc : curCheck s = .ok a)
    (hg : (nextDraw s).wait ≤ s.eng.toCnt) (hr : resetDue s = false) :
    cycle s = atCycle 1 (enterSetup (datagram (opDatagram (curInstr s) a s.eng.seqI s).1
      (opDatagram (curInstr s) a s.eng.seqI s).2.1 (opDatagram (curInstr s) a s.eng.seqI s).2.2) s.eng) s := by
  rw [cycle_transfer hr hc (.inl hs) (by simp [txnEnds, hc, hs, pinsOf, hg])]
  simp [txnEngine, hs, pinsOf, hg]

/-- SETUP (R151, R152). -/
theorem cycles_setup {s : State} {a : Axis} (hs : s.eng.state = .setup) (h0 : s.eng.dwell = 0)
    (hc : curCheck s = .ok a) (hp : 1 ≤ s.cfg.csSetup) (hr : resetWithin s s.cfg.csSetup = false) :
    cycles s.cfg.csSetup s = atCycle s.cfg.csSetup { setDwell s.eng 0 with state := .shift } s := by
  let E : Nat → Engine := fun n => if n < s.cfg.csSetup then setDwell s.eng n else { setDwell s.eng 0 with state := .shift }
  have hE := cycles_transfer (a := a) E (N := s.cfg.csSetup) (by simp only [E]; rw [if_pos (by omega)]; simp [setDwell, ← h0]) hr ?_
  · rw [hE]; simp [E]
  · intro n hn
    have e1 : E n = setDwell s.eng n := by simp only [E]; rw [if_pos hn]
    rw [e1]
    have hst : (setDwell s.eng n).state = .setup := hs
    refine ⟨curCheck_at (by rfl) hc, .inr (.inl hs), ?_, ?_⟩
    · unfold txnEnds; rw [curCheck_at (by rfl) hc]; simp [hst]
    · unfold txnEngine
      simp only [atCycle_eng, hst, atCycle_cfg]
      by_cases h : s.cfg.csSetup ≤ n + 1
      · have : ¬ n + 1 < s.cfg.csSetup := by omega
        simp [E, setDwell, h, this, hs]
      · have : n + 1 < s.cfg.csSetup := by omega
        simp [E, setDwell, h, this, hs]

/-- One bit on the wire: the reply's bit lands in `rx_sr` (R152, R154). -/
def bitIn (d : Draw) (b : Nat) (rx : Datagram) : Datagram :=
  rx ||| ((BitVec.ofBool (d.reply.getLsbD (39 - b))).setWidth 40 <<< (39 - b))

/-- The low half of a bit period. -/
theorem cycles_low {s : State} {a : Axis} (b : Nat) (rx : Datagram) (hs : s.eng.state = .shift)
    (he : s.eng = setShift s.eng b 0 false rx) (hc : curCheck s = .ok a) (hp : 1 ≤ s.cfg.sckDiv)
    (hr : resetWithin s s.cfg.sckDiv = false) :
    cycles s.cfg.sckDiv s = atCycle s.cfg.sckDiv (setShift s.eng b 0 true rx) s := by
  let E : Nat → Engine := fun n => if n < s.cfg.sckDiv then setShift s.eng b n false rx else setShift s.eng b 0 true rx
  have hE := cycles_transfer (a := a) E (N := s.cfg.sckDiv) (by simp only [E]; rw [if_pos (by omega)]; exact he) hr ?_
  · rw [hE]; simp [E]
  · intro n hn
    have e1 : E n = setShift s.eng b n false rx := by simp only [E]; rw [if_pos hn]
    rw [e1]
    have hst : (setShift s.eng b n false rx).state = .shift := hs
    refine ⟨curCheck_at (by rfl) hc, .inr (.inr (.inl hs)), ?_, ?_⟩
    · unfold txnEnds; rw [curCheck_at (by rfl) hc]; simp [hst]
    · unfold txnEngine
      simp only [atCycle_eng, hst, atCycle_cfg]
      by_cases h : s.cfg.sckDiv ≤ n + 1
      · have : ¬ n + 1 < s.cfg.sckDiv := by omega
        simp [E, setShift, h, this, hs]
      · have : n + 1 < s.cfg.sckDiv := by omega
        simp [E, setShift, h, this, hs]

/-- The high half: `miso` is sampled in its first cycle. -/
theorem cycles_high {s : State} {a : Axis} (b : Nat) (rx : Datagram) (hs : s.eng.state = .shift)
    (he : s.eng = setShift s.eng b 0 true rx) (hc : curCheck s = .ok a) (hp : 1 ≤ s.cfg.sckDiv)
    (hr : resetWithin s s.cfg.sckDiv = false) :
    cycles s.cfg.sckDiv s = atCycle s.cfg.sckDiv
      { setShift s.eng (b + 1) 0 false (bitIn (nextDraw s) b rx) with
        state := if 40 ≤ b + 1 then .hold else .shift } s := by
  let E : Nat → Engine := fun n =>
    if n = 0 then s.eng
    else if n < s.cfg.sckDiv then setShift s.eng b n true (bitIn (nextDraw s) b rx)
    else { setShift s.eng (b + 1) 0 false (bitIn (nextDraw s) b rx) with state := if 40 ≤ b + 1 then .hold else .shift }
  have hE := cycles_transfer (a := a) E (N := s.cfg.sckDiv) (by simp [E]) hr ?_
  · rw [hE]
    have : s.cfg.sckDiv ≠ 0 := by omega
    simp [E, this]
  · intro n hn
    have e1 : E n = setShift s.eng b n true (if n = 0 then rx else bitIn (nextDraw s) b rx) := by
      simp only [E]
      by_cases h0 : n = 0
      · subst h0; simpa using he
      · simp [h0, hn]
    rw [e1]
    have hst : (setShift s.eng b n true (if n = 0 then rx else bitIn (nextDraw s) b rx)).state = .shift := hs
    refine ⟨curCheck_at (by rfl) hc, .inr (.inr (.inl hs)), ?_, ?_⟩
    · unfold txnEnds; rw [curCheck_at (by rfl) hc]; simp [hst]
    · unfold txnEngine
      simp only [atCycle_eng, hst, atCycle_cfg, pinsOf, nextDraw_atCycle]
      by_cases h0 : n = 0
      · subst h0
        by_cases h : s.cfg.sckDiv ≤ 0 + 1
        · have : ¬ 0 + 1 < s.cfg.sckDiv := by omega
          simp only [Nat.zero_add] at h this
          simp [E, setShift, h, this, bitIn]
        · have : 0 + 1 < s.cfg.sckDiv := by omega
          simp only [Nat.zero_add] at h this
          simp [E, setShift, h, this, bitIn, hs]
      · by_cases h : s.cfg.sckDiv ≤ n + 1
        · have : ¬ n + 1 < s.cfg.sckDiv := by omega
          simp [E, setShift, h, this, h0]
        · have : n + 1 < s.cfg.sckDiv := by omega
          simp [E, setShift, h, this, h0, hs]

/-- `rx_sr` after `k` bits of a reply. -/
def rxAfter (d : Draw) : Nat → Datagram
  | 0 => 0#40
  | k + 1 => bitIn d k (rxAfter d k)

theorem rxAfter_getLsbD (d : Draw) (k j : Nat) (hk : k ≤ 40) (hj : j < 40) :
    (rxAfter d k).getLsbD j = (decide (40 - k ≤ j) && d.reply.getLsbD j) := by
  induction k with
  | zero => simp [rxAfter]; omega
  | succ k ih =>
    rw [rxAfter, bitIn, BitVec.getLsbD_or, ih (by omega), BitVec.getLsbD_shiftLeft, BitVec.getLsbD_setWidth]
    by_cases h : j = 39 - k
    · subst h
      have h1 : ¬ 40 - k ≤ 39 - k := by omega
      have h3 : 39 - k < 40 := by omega
      simp [h1, h3]
    · by_cases h1 : 40 - k ≤ j
      · have h3 : j - (39 - k) ≠ 0 := by omega
        have h5 : 39 ≤ j + k := by omega
        simp [h1, h3, h5]
      · have h3 : j < 39 - k := by omega
        have h5 : ¬ 39 ≤ j + k := by omega
        simp [h1, h3, h5]

/-- After 40 bits it is the reply (R154). -/
theorem rxAfter_all (d : Draw) : rxAfter d 40 = d.reply := by
  apply BitVec.eq_of_getLsbD_eq
  intro j hj
  rw [rxAfter_getLsbD d 40 j (Nat.le_refl 40) hj]; simp

/-- The engine after `k` whole bits. -/
def afterBits (d : Draw) (k : Nat) (e : Engine) : Engine :=
  { setShift e k 0 false (rxAfter d k) with state := if 40 ≤ k then .hold else .shift }

/-- SHIFT, `k` bits of it (R152–R154). -/
theorem cycles_bits {s : State} {a : Axis} (k : Nat) (hk : k ≤ 40) (he : s.eng = afterBits (nextDraw s) 0 s.eng)
    (hc : curCheck s = .ok a) (hp : 1 ≤ s.cfg.sckDiv) (hr : resetWithin s (2 * s.cfg.sckDiv * k) = false) :
    cycles (2 * s.cfg.sckDiv * k) s = atCycle (2 * s.cfg.sckDiv * k) (afterBits (nextDraw s) k s.eng) s := by
  induction k with
  | zero => rw [Nat.mul_zero, atCycle_zero, ← he]; rfl
  | succ k ih =>
    have hle : 2 * s.cfg.sckDiv * (k + 1) = 2 * s.cfg.sckDiv * k + s.cfg.sckDiv + s.cfg.sckDiv := by
      rw [Nat.mul_succ]; omega
    have hk' : ¬ 40 ≤ k := by omega
    rw [hle] at hr ⊢
    have hr1 : resetWithin s (2 * s.cfg.sckDiv * k + s.cfg.sckDiv) = false := resetWithin_le (Nat.le_add_right _ _) hr
    have hr2 : resetWithin s (2 * s.cfg.sckDiv * k) = false := resetWithin_le (Nat.le_add_right _ _) hr1
    have h1 := ih (by omega) hr2
    have e1 : afterBits (nextDraw s) k s.eng = setShift (afterBits (nextDraw s) k s.eng) k 0 false (rxAfter (nextDraw s) k) := rfl
    have hs1 : (afterBits (nextDraw s) k s.eng).state = .shift := by simp [afterBits, hk']
    have h2 := cycles_low (s := atCycle (2 * s.cfg.sckDiv * k) (afterBits (nextDraw s) k s.eng) s) (a := a) k
      (rxAfter (nextDraw s) k) hs1 e1 (curCheck_at (by rfl) hc) (by simpa using hp)
      (by rw [atCycle_cfg]; exact resetWithin_atCycle hr1)
    rw [atCycle_cfg, atCycle_atCycle, atCycle_eng] at h2
    have h3 := cycles_high (s := atCycle (2 * s.cfg.sckDiv * k + s.cfg.sckDiv)
      (setShift (afterBits (nextDraw s) k s.eng) k 0 true (rxAfter (nextDraw s) k)) s) (a := a) k
      (rxAfter (nextDraw s) k) hs1 rfl (curCheck_at (by rfl) hc) (by simpa using hp)
      (by rw [atCycle_cfg]; exact resetWithin_atCycle hr)
    rw [atCycle_cfg, atCycle_atCycle, atCycle_eng, nextDraw_atCycle] at h3
    rw [cycles_add, cycles_add, h1, h2, h3]
    rfl

/-- HOLD before chip-select release (R155). -/
theorem cycles_hold {s : State} {a : Axis} {N : Nat} (hs : s.eng.state = .hold) (h0 : s.eng.dwell = 0)
    (hc : curCheck s = .ok a) (hN : N < s.cfg.csHold) (hr : resetWithin s N = false) :
    cycles N s = atCycle N (setDwell s.eng N) s := by
  refine cycles_transfer (a := a) (setDwell s.eng) (by simp [setDwell, ← h0]) hr fun n hn => ?_
  have h3 : ¬ s.cfg.csHold ≤ n + 1 := by omega
  refine ⟨curCheck_at (by rfl) hc, .inr (.inr (.inr (.inl hs))), ?_, ?_⟩
  · unfold txnEnds
    rw [curCheck_at (by rfl) hc]
    simp [hs, setDwell, h3]
  · unfold txnEngine
    have hst : (setDwell s.eng n).state = .hold := hs
    simp only [atCycle_eng, hst, atCycle_cfg]
    simp [setDwell, hs, h3]

/-- What follows GAP: the op's next transaction, or RESP (R157). -/
def nextPhase (i : Instr) (e : Engine) : Engine :=
  if decide (e.last.code = .ok) && decide (e.seqI + 1 < txnCount i) then
    enterReq { e with seqI := e.seqI + 1 }
  else { e with state := .resp }

/-- GAP (R155, R157). -/
theorem cycles_gap {s : State} {a : Axis} (hs : s.eng.state = .gap) (h0 : s.eng.dwell = 0)
    (hc : curCheck s = .ok a) (hp : 1 ≤ s.cfg.csIdle) (hr : resetWithin s s.cfg.csIdle = false) :
    cycles s.cfg.csIdle s = atCycle s.cfg.csIdle (nextPhase (curInstr s) s.eng) s := by
  let E : Nat → Engine := fun n => if n < s.cfg.csIdle then setDwell s.eng n else nextPhase (curInstr s) s.eng
  have hE := cycles_transfer (a := a) E (N := s.cfg.csIdle)
    (by simp only [E]; rw [if_pos (by omega)]; simp [setDwell, ← h0]) hr ?_
  · rw [hE]; simp [E]
  · intro n hn
    have e1 : E n = setDwell s.eng n := by simp only [E]; rw [if_pos hn]
    rw [e1]
    have hst : (setDwell s.eng n).state = .gap := hs
    refine ⟨curCheck_at (by rfl) hc, .inr (.inr (.inr (.inr hs))), ?_, ?_⟩
    · unfold txnEnds; rw [curCheck_at (by rfl) hc]; simp [hst]
    · unfold txnEngine
      have hi : curInstr (atCycle n (setDwell s.eng n) s) = curInstr s := curInstr_atCycle rfl
      simp only [atCycle_eng, hst, atCycle_cfg, hi, lastOk]
      by_cases h : s.cfg.csIdle ≤ n + 1
      · have : ¬ n + 1 < s.cfg.csIdle := by omega
        have hd0 : ({ s.eng with dwell := 0 } : Engine) = s.eng := by rw [← h0]
        rw [← hd0] at hs
        simp only [E, this, if_false, nextPhase]
        rw [← hd0]
        simp only [setDwell]
        by_cases hg : (decide (s.eng.last.code = .ok) && decide (s.eng.seqI + 1 < txnCount (curInstr s))) = true
        · simp only [if_pos hg]; erw [if_pos h, if_pos hg]; rfl
        · simp only [if_neg hg]; erw [if_pos h, if_neg hg]
      · have : n + 1 < s.cfg.csIdle := by omega
        simp [E, setDwell, h, this, hs]

/-- Keeping a word writes the engine alone. -/
theorem keepTmp_eq (i : Instr) (k : Nat) (s : State) : keepTmp i k s = { s with eng := (keepTmp i k s).eng } := by
  cases i <;> simp only [keepTmp] <;> repeat' split
  all_goals rfl

/-- The word kept after a transaction that was OK (R210–R212, R252). -/
def keepOk (i : Instr) (k : Nat) (s : State) : State := if lastOk s then keepTmp i k s else s

theorem keepOk_eq (i : Instr) (k : Nat) (s : State) : keepOk i k s = { s with eng := (keepOk i k s).eng } := by
  unfold keepOk; split
  · exact keepTmp_eq i k s
  · rfl

/-- What it writes depends on the engine alone. -/
theorem keepOk_eng (i : Instr) (k : Nat) {s t : State} (h : s.eng = t.eng) : (keepOk i k s).eng = (keepOk i k t).eng := by
  unfold keepOk lastOk
  rw [h]
  split
  · cases i <;> simp only [keepTmp, keepTmp0, keepTmp1, keepTmp2, lastData, h] <;> repeat' split
    all_goals simp only [h]
  · exact h

/-- The engine after keeping a word. -/
def keepEngine (i : Instr) (k : Nat) (e : Engine) : Engine := (keepOk i k { State.reset with eng := e }).eng

theorem keepOk_keep (i : Instr) (k : Nat) (s : State) : keepOk i k s = { s with eng := keepEngine i k s.eng } := by
  rw [keepOk_eq, keepEngine, keepOk_eng i k (s := s) (t := { State.reset with eng := s.eng }) rfl]

/-- Chip-select release (R151, R154): `pend[a]` and the result are written, and the op keeps its word. -/
theorem txnEngine_release (p : Pins) {a : Axis} {s : State} (hs : s.eng.state = .hold) (hd : s.cfg.csHold ≤ s.eng.dwell + 1) :
    txnEngine p a s = keepOk (curInstr s) s.eng.seqI (withPend a
      ⟨true, (opDatagram (curInstr s) a s.eng.seqI s).1, (opDatagram (curInstr s) a s.eng.seqI s).2.1⟩
      { s with eng := { s.eng with
          state := .gap
          dwell := 0
          last := ⟨if p.echoUnexpected then .unexpectedEcho else .ok, s.eng.rxSr, (s.ax a).pend⟩ } }) := by
  unfold txnEngine
  simp only [hs, hd, if_true]
  cases a <;> rfl

theorem dropDraw_setEng (s : State) (e : Engine) : dropDraw { s with eng := e } = { dropDraw s with eng := e } := by
  unfold dropDraw; cases s.world.busq <;> rfl

theorem dropDraw_withPend (a : Axis) (p : Pend) (s : State) : dropDraw (withPend a p s) = withPend a p (dropDraw s) := by
  unfold dropDraw; rw [withPend_world]; cases s.world.busq <;> cases a <;> rfl

/-- The same for a whole cycle; the draw is used up. -/
theorem cycle_release {s : State} {a : Axis} (hs : s.eng.state = .hold) (hc : curCheck s = .ok a)
    (hd : s.cfg.csHold ≤ s.eng.dwell + 1) (hr : resetDue s = false) :
    cycle s = keepOk (curInstr s) s.eng.seqI (withPend a
      ⟨true, (opDatagram (curInstr s) a s.eng.seqI s).1, (opDatagram (curInstr s) a s.eng.seqI s).2.1⟩
      (dropDraw (atCycle 1 { s.eng with
        state := .gap
        dwell := 0
        last := ⟨echoCode (nextDraw s), s.eng.rxSr, (s.ax a).pend⟩ } s))) := by
  have hf : engineFree s = false := by simp [engineFree, hs]
  have hh : hostCycle s = s.world.hostq := by simp [hostCycle, hf]
  have he : txnEnds s = true := by simp [txnEnds, hc, hs, hd]
  have hb := filterCycle_frame (pinsOf s).joy s
  have h1 : curCheck (filterCycle (pinsOf s).joy s) = .ok a := by simpa [curCheck, hb.eng] using hc
  have h0 : (pinsOf s).rst = false := hr
  have hp : ((filterCycle (pinsOf s).joy s).ax a).pend = (s.ax a).pend := by
    have h1 := hb.axes a
    rw [SameButRequest] at h1
    rw [h1]
  have hdg := opDatagram_frame (curInstr s) a s.eng.seqI hb
  have hi : curInstr (filterCycle (pinsOf s).joy s) = curInstr s := by simp [curInstr, hb.eng]
  have hE : tick (pinsOf s) s = txnEngine (pinsOf s) a (filterCycle (pinsOf s).joy s) := by
    unfold tick engineCycle
    simp only [h0, Bool.false_eq_true, if_false, hb.eng, h1, hs]
  have hT := txnEngine_release (pinsOf s) (a := a) (s := filterCycle (pinsOf s).joy s) (by rw [hb.eng, hs])
    (by rw [hb.cfg, hb.eng]; exact hd)
  rw [hi, hb.eng, hdg, hp] at hT
  unfold cycle
  simp only [hr, he, hh, hE, hT, Bool.false_eq_true, if_false, if_true]
  have hj : (pinsOf s).joy = joyOnPort s := rfl
  have hw : (filterCycle (joyOnPort s) s).world = s.world := filterCycle_world _ s
  have hu : (if (pinsOf s).echoUnexpected = true then Code.unexpectedEcho else Code.ok) = echoCode (nextDraw s) := rfl
  rw [hu, hj]
  unfold atCycle
  rw [passCycles_one]
  rw [keepOk_keep, keepOk_keep]
  simp only [withPend_eng, dropDraw_eng]
  generalize keepEngine (curInstr s) s.eng.seqI _ = e'
  generalize filterCycle (joyOnPort s) s = f at *
  generalize s.eng = eng
  rw [hw]
  generalize s.world = w
  obtain ⟨hq, rq, jq, bq, dc, ds, da⟩ := w
  cases bq <;> cases a <;> rfl

/-- The last REQ cycle of a transaction that times out (R156). -/
theorem cycle_timeout {s : State} {a : Axis} (hs : s.eng.state = .req) (hc : curCheck s = .ok a)
    (hg : ¬ (nextDraw s).wait ≤ s.eng.toCnt) (hT : s.cfg.txnTimeout ≤ s.eng.toCnt + 1) (hr : resetDue s = false) :
    cycle s = dropDraw (atCycle 1 { s.eng with
      state := .resp
      toCnt := s.eng.toCnt + 1
      last := ⟨.busTimeout, 0#40, (s.ax a).pend⟩ } s) := by
  have hf : engineFree s = false := by simp [engineFree, hs]
  have hh : hostCycle s = s.world.hostq := by simp [hostCycle, hf]
  have he : txnEnds s = true := by simp [txnEnds, hc, hs, pinsOf, hg, hT]
  have hb := filterCycle_frame (pinsOf s).joy s
  have h1 : curCheck (filterCycle (pinsOf s).joy s) = .ok a := by simpa [curCheck, hb.eng] using hc
  have h0 : (pinsOf s).rst = false := hr
  have hg' : (pinsOf s).busGnt = false := by simp [pinsOf, hg]
  have hp : ((filterCycle (pinsOf s).joy s).ax a).pend = (s.ax a).pend := by
    have h1 := hb.axes a
    rw [SameButRequest] at h1
    rw [h1]
  have hE : tick (pinsOf s) s = { filterCycle (pinsOf s).joy s with eng := { s.eng with
      state := .resp
      toCnt := s.eng.toCnt + 1
      last := ⟨.busTimeout, 0#40, (s.ax a).pend⟩ } } := by
    unfold tick engineCycle txnEngine
    simp only [h0, Bool.false_eq_true, if_false, hb.eng, h1, hs, hg', hb.cfg, hT, if_true, hp]
  unfold cycle
  simp only [hr, he, hh, hE, Bool.false_eq_true, if_false, if_true]
  have hj : (pinsOf s).joy = joyOnPort s := rfl
  have hw : (filterCycle (joyOnPort s) s).world = s.world := filterCycle_world _ s
  rw [hj]
  unfold atCycle
  rw [passCycles_one]
  generalize filterCycle (joyOnPort s) s = f at *
  rw [hw]
  generalize s.world = w
  obtain ⟨hq, rq, jq, bq, dc, ds, da⟩ := w
  cases bq <;> rfl

theorem keepEngine_control (i : Instr) (k : Nat) (e : Engine) (x : EngState) (n : Nat) :
    keepEngine i k { e with state := x, seqI := n } = { keepEngine i k e with state := x, seqI := n } := by
  unfold keepEngine keepOk lastOk
  by_cases h : e.last.code = .ok
  · simp only [h, decide_true, if_true]
    cases i <;> simp only [keepTmp, keepTmp0, keepTmp1, keepTmp2, lastData] <;> repeat' split
    all_goals rfl
  · simp only [h, decide_false, Bool.false_eq_true, if_false]

theorem keepEngine_setState (i : Instr) (k : Nat) (e : Engine) (x : EngState) :
    keepEngine i k { e with state := x } = { keepEngine i k e with state := x } := by
  have h := keepEngine_control i k e x e.seqI
  have h2 : (keepEngine i k e).seqI = e.seqI := by
    have h3 := congrArg Engine.seqI (keepEngine_control i k e e.state e.seqI)
    exact h3
  rw [← h2] at h
  exact (congrArg _ (by rw [h2])).trans h

/-- Keeping a word writes only `tmp0`–`tmp2`. -/
theorem keepEngine_same (i : Instr) (k : Nat) (e : Engine) :
    (keepEngine i k e).state = e.state ∧ (keepEngine i k e).dwell = e.dwell ∧ (keepEngine i k e).cur = e.cur ∧
      (keepEngine i k e).last = e.last ∧ (keepEngine i k e).seqI = e.seqI := by
  unfold keepEngine keepOk lastOk
  by_cases h : e.last.code = .ok
  · simp only [h, decide_true, if_true]
    cases i <;> simp only [keepTmp, keepTmp0, keepTmp1, keepTmp2, lastData] <;> repeat' split
    all_goals simp
  · simp only [h, decide_false, Bool.false_eq_true, if_false]
    simp

/-- The engine edits of a release, in one form. -/
theorem release_setEng (a : Axis) (p : Pend) (n : Nat) (e f : Engine) (s : State) :
    { withPend a p (dropDraw (atCycle n e s)) with eng := f } = withPend a p (dropDraw (atCycle n f s)) := by
  unfold atCycle
  rw [dropDraw_setEng (passCycles n s) e, dropDraw_setEng (passCycles n s) f]
  cases a <;> rfl

theorem passCycles_release (a : Axis) (p : Pend) (m n : Nat) (e : Engine) (s : State) :
    passCycles m (withPend a p (dropDraw (atCycle n e s))) = withPend a p (dropDraw (atCycle (n + m) e s)) := by
  rw [passCycles_withPend, passCycles_dropDraw]
  unfold atCycle
  rw [passCycles_setEng, passCycles_add]

theorem nextPhase_setState (i : Instr) (e : Engine) (x : EngState) : nextPhase i { e with state := x } = nextPhase i e := by
  unfold nextPhase enterReq
  simp only

/-! ### A whole transaction -/

/-- Transaction `k` of the op in `cur`, as an op's meaning runs it, and the word it keeps. -/
def opTxn (i : Instr) (a : Axis) (k : Nat) (s : State) : State :=
  keepOk i k (txn a (opDatagram i a k s).1 (opDatagram i a k s).2.1 (opDatagram i a k s).2.2 s)

/-- One transaction of an op is its clock cycles, from its first REQ cycle to the cycle after its last
(70_reset_and_hazards.md R395). -/
theorem cycles_txn {s : State} {a : Axis} (hl : s.cfg.legal = true) (hs : s.eng.state = .req) (h0 : s.eng.toCnt = 0)
    (hc : curCheck s = .ok a) (hr : resetWithin s (txnCycles s.cfg (nextDraw s)) = false) :
    cycles (txnCycles s.cfg (nextDraw s)) s =
      { opTxn (curInstr s) a s.eng.seqI s with
        eng := nextPhase (curInstr s) (opTxn (curInstr s) a s.eng.seqI s).eng } := by
  simp only [Params.legal, Bool.and_eq_true, decide_eq_true_eq] at hl
  obtain ⟨⟨⟨⟨⟨_, hdiv⟩, hset⟩, hhold⟩, hidle⟩, hto⟩ := hl
  by_cases hg : (nextDraw s).wait < s.cfg.txnTimeout
  · have hT : txnCycles s.cfg (nextDraw s) = (nextDraw s).wait + 1 + s.cfg.csSetup + 2 * s.cfg.sckDiv * 40 +
        (s.cfg.csHold - 1) + 1 + s.cfg.csIdle := by
      simp only [txnCycles, granted, hg, decide_true, if_true, grantedCycles]; omega
    rw [hT] at hr ⊢
    generalize hD : opDatagram (curInstr s) a s.eng.seqI s = D
    -- the engine after REQ, SETUP, SHIFT and HOLD
    let e0 := setTo s.eng (nextDraw s).wait
    let e1 := enterSetup (datagram D.1 D.2.1 D.2.2) e0
    let e2 : Engine := { setDwell e1 0 with state := .shift }
    let e3 : Engine := { setShift e2 40 0 false (nextDraw s).reply with state := .hold }
    have h3 : afterBits (nextDraw s) 40 e2 = e3 := by unfold afterBits; rw [rxAfter_all]; rfl
    let e4 := setDwell e3 (s.cfg.csHold - 1)
    let n1 := (nextDraw s).wait + 1
    let n2 := n1 + s.cfg.csSetup
    let n3 := n2 + 2 * s.cfg.sckDiv * 40
    let n4 := n3 + (s.cfg.csHold - 1)
    have hr4 : resetWithin s (n4 + 1) = false := resetWithin_le (Nat.le_add_right _ _) hr
    have hr3 : resetWithin s n4 = false := resetWithin_le (Nat.le_add_right _ _) hr4
    have hr2 : resetWithin s n3 = false := resetWithin_le (Nat.le_add_right _ _) hr3
    have hr1 : resetWithin s n2 = false := resetWithin_le (Nat.le_add_right _ _) hr2
    have hr0 : resetWithin s n1 = false := resetWithin_le (Nat.le_add_right _ _) hr1
    have k0 := cycles_wait (N := (nextDraw s).wait) hs h0 hc (Nat.le_refl _) hg (resetWithin_le (Nat.le_add_right _ _) hr0)
    have k1 := cycle_grant (s := atCycle (nextDraw s).wait e0 s) (a := a) hs (curCheck_at (by rfl) hc)
      (by rw [nextDraw_atCycle]; exact Nat.le_refl _) (resetDue_of_within (n := 0) (resetWithin_atCycle hr0))
    rw [curInstr_atCycle (by rfl), opDatagram_atCycle _ _ _ (by rfl), atCycle_atCycle] at k1
    have hD' : opDatagram (curInstr s) a (atCycle (nextDraw s).wait e0 s).eng.seqI s = D := hD
    rw [hD'] at k1
    have c1 : cycles n1 s = atCycle n1 e1 s := by rw [cycles_succ, k0]; exact k1
    have k2 := cycles_setup (s := atCycle n1 e1 s) (a := a) rfl rfl (curCheck_at (by rfl) hc) (by simpa using hset)
      (by rw [atCycle_cfg]; exact resetWithin_atCycle hr1)
    rw [atCycle_cfg, atCycle_atCycle] at k2
    have c2 : cycles n2 s = atCycle n2 e2 s := by rw [cycles_add, c1]; exact k2
    have k3 := cycles_bits (s := atCycle n2 e2 s) (a := a) 40 (Nat.le_refl _) (by rw [nextDraw_atCycle]; rfl)
      (curCheck_at (by rfl) hc) (by simpa using hdiv) (by rw [atCycle_cfg]; exact resetWithin_atCycle hr2)
    rw [atCycle_cfg, atCycle_atCycle, nextDraw_atCycle] at k3
    have c3 : cycles n3 s = atCycle n3 e3 s := by rw [cycles_add, c2, ← h3]; exact k3
    have k4 := cycles_hold (N := s.cfg.csHold - 1) (s := atCycle n3 e3 s) (a := a) rfl rfl (curCheck_at (by rfl) hc)
      (by rw [atCycle_cfg]; omega) (resetWithin_atCycle hr3)
    rw [atCycle_atCycle] at k4
    have c4 : cycles n4 s = atCycle n4 e4 s := by rw [cycles_add, c3]; exact k4
    have k5 := cycle_release (s := atCycle n4 e4 s) (a := a) rfl (curCheck_at (by rfl) hc)
      (by rw [atCycle_cfg]; show s.cfg.csHold ≤ s.cfg.csHold - 1 + 1; omega)
      (resetDue_of_within (n := 0) (resetWithin_atCycle hr4))
    rw [curInstr_atCycle (by rfl), opDatagram_atCycle _ _ _ (by rfl), atCycle_atCycle, nextDraw_atCycle, atCycle_pend] at k5
    have hD4 : opDatagram (curInstr s) a (atCycle n4 e4 s).eng.seqI s = D := hD
    rw [hD4] at k5
    have hx : (atCycle n4 e4 s).eng.rxSr = (nextDraw s).reply := rfl
    rw [hx, keepOk_keep, release_setEng] at k5
    simp only [withPend_eng, dropDraw_eng, atCycle_eng] at k5
    generalize hE : keepEngine (curInstr s) e4.seqI _ = e6 at k5
    have hk := keepEngine_same (curInstr s) e4.seqI
      { e4 with state := .gap, dwell := 0, last := ⟨echoCode (nextDraw s), (nextDraw s).reply, (s.ax a).pend⟩ }
    rw [hE] at hk
    obtain ⟨q1, q2, q3, -, -⟩ := hk
    have c5 := (cycles_succ n4 s).trans ((congrArg cycle c4).trans k5)
    generalize hv : withPend a _ (dropDraw (atCycle (n4 + 1) e6 s)) = v at c5
    have v1 : v.eng = e6 := by rw [← hv]; simp
    have v2 : v.cfg = s.cfg := by rw [← hv]; simp
    have v3 : v.world.rstq = (atCycle (n4 + 1) e6 s).world.rstq := by rw [← hv]; simp
    have vi : curInstr v = curInstr s := by simp only [curInstr, v1, q3]; rfl
    have vc : curCheck v = .ok a := by rw [← hc]; simp only [curCheck, v1, q3]; rfl
    have vr : resetWithin v v.cfg.csIdle = false := by
      unfold resetWithin; rw [v3, v2]; exact resetWithin_atCycle hr
    have k6 := cycles_gap (s := v) (a := a) (by rw [v1, q1]) (by rw [v1, q2]) vc (by rw [v2]; exact hidle) vr
    rw [v2] at k6
    have c6 := (cycles_add (n4 + 1) s.cfg.csIdle s).trans ((congrArg (cycles s.cfg.csIdle) c5).trans k6)
    refine c6.trans ?_
    rw [vi, v1]
    unfold atCycle
    rw [← hv, passCycles_release, release_setEng]
    have hG : grantedCycles s.cfg (nextDraw s).wait = n4 + 1 + s.cfg.csIdle := by
      rw [← hT]; simp [txnCycles, granted, hg]
    unfold opTxn
    rw [hD, txn_granted_eq _ _ _ _ _ hg, keepOk_keep, hG]
    simp only [withPend_eng]
    have hS : ({ afterTxn D.1 D.2.1 D.2.2 (nextDraw s) (s.ax a).pend s.eng with
        last := ⟨echoCode (nextDraw s), (nextDraw s).reply, (s.ax a).pend⟩ } : Engine) =
        { ({ e4 with state := .gap, dwell := 0, last := ⟨echoCode (nextDraw s), (nextDraw s).reply, (s.ax a).pend⟩ } : Engine) with
          state := s.eng.state } := rfl
    have hN : nextPhase (curInstr s) (keepEngine (curInstr s) s.eng.seqI
        { afterTxn D.1 D.2.1 D.2.2 (nextDraw s) (s.ax a).pend s.eng with
          last := ⟨echoCode (nextDraw s), (nextDraw s).reply, (s.ax a).pend⟩ }) = nextPhase (curInstr s) e6 := by
      rw [hS, keepEngine_setState, nextPhase_setState]; exact congrArg _ hE
    rw [hN]
    unfold atCycle
    rw [dropDraw_setEng]
    cases a <;> rfl
  · have hT : txnCycles s.cfg (nextDraw s) = (s.cfg.txnTimeout - 1) + 1 := by
      simp only [txnCycles, granted, hg, decide_false, Bool.false_eq_true, if_false]; omega
    rw [hT] at hr ⊢
    have h1 := cycles_wait (N := s.cfg.txnTimeout - 1) hs h0 hc (by omega) (by omega) (resetWithin_le (by omega) hr)
    have h2 := cycle_timeout (s := atCycle (s.cfg.txnTimeout - 1) (setTo s.eng (s.cfg.txnTimeout - 1)) s) (a := a) hs
      (curCheck_at (by rfl) hc) (by simp [setTo]; omega) (by simp [setTo]; omega)
      (resetDue_of_within (n := 0) (resetWithin_atCycle hr))
    rw [atCycle_atCycle] at h2
    rw [cycles_succ, h1, h2]
    have hn : s.cfg.txnTimeout - 1 + 1 = s.cfg.txnTimeout := by omega
    have hp : ((atCycle (s.cfg.txnTimeout - 1) (setTo s.eng (s.cfg.txnTimeout - 1)) s).ax a).pend = (s.ax a).pend := by simp
    have ht : (atCycle (s.cfg.txnTimeout - 1) (setTo s.eng (s.cfg.txnTimeout - 1)) s).eng.toCnt + 1 = s.cfg.txnTimeout := hn
    rw [hp, ht, hn]
    unfold opTxn
    rw [txn_timeout_eq _ _ _ _ _ (by omega)]
    simp only [keepOk, lastOk, decide_false, Bool.false_eq_true, if_false, reduceCtorEq, nextPhase, Bool.false_and]
    unfold atCycle
    rw [dropDraw_setEng]
    rfl

/-! ### The transactions of an op -/

/-- The transactions `k`, `k + 1`, … of an op, `r` of them, up to the first that fails. -/
def opLoop (i : Instr) (a : Axis) : Nat → Nat → State → State
  | 0, _, s => s
  | r + 1, k, s => if lastOk (opTxn i a k s) then opLoop i a r (k + 1) (opTxn i a k s) else opTxn i a k s

theorem ifOk_ifOk (f g : State → State) (s : State) : ifOk g (ifOk f s) = ifOk (fun s => ifOk g (f s)) s := by
  unfold ifOk; cases h : lastOk s <;> simp [h]

theorem ifOk_id (s : State) : ifOk (fun s => s) s = s := by unfold ifOk; split <;> rfl

theorem opLoop_succ (i : Instr) (a : Axis) (r k : Nat) :
    opLoop i a (r + 1) k = fun s => ifOk (opLoop i a r (k + 1)) (opTxn i a k s) := rfl

theorem opLoop_zero (i : Instr) (a : Axis) (k : Nat) : opLoop i a 0 k = fun s => s := rfl

/-- A transaction whose word is not kept. -/
theorem opTxn_plain {i : Instr} {a : Axis} {k : Nat} (h : keepTmp i k = fun s => s) :
    opTxn i a k = fun s => txn a (opDatagram i a k s).1 (opDatagram i a k s).2.1 (opDatagram i a k s).2.2 s := by
  funext s; unfold opTxn keepOk; rw [h]; split <;> rfl

/-- A transaction whose word is kept. -/
theorem opTxn_kept (i : Instr) (a : Axis) (k : Nat) : opTxn i a k = fun s => ifOk (keepTmp i k)
    (txn a (opDatagram i a k s).1 (opDatagram i a k s).2.1 (opDatagram i a k s).2.2 s) := rfl

/-- They are the transactions of the op's meaning. -/
theorem opLoop_eq (i : Instr) (a : Axis) (s : State) (h : isCommand i = true) : opLoop i a (txnCount i) 0 s = opTxns i a s := by
  cases i
  case xfer | write | wrnz =>
    simp only [txnCount, opLoop_succ, opLoop_zero, ifOk_id]
    rw [opTxn_plain (k := 0) rfl]; rfl
  case dgWrite | dgRead => exact absurd h (by simp [isCommand])
  case nop | pwr | swap | flags | joycfg | reserved14 | reserved15 => rfl
  case read axis addr =>
    simp only [txnCount, opLoop_succ, opLoop_zero, ifOk_id]
    rw [opTxn_plain (k := 0) rfl, opTxn_plain (k := 0 + 1) rfl]; rfl
  case vel axis d v =>
    simp only [txnCount, opLoop_succ, opLoop_zero, ifOk_id]
    rw [opTxn_plain (k := 0) rfl, opTxn_plain (k := 0 + 1) rfl]; rfl
  case swpol axis d e =>
    simp only [txnCount, opLoop_succ, opLoop_zero, ifOk_id, opTxns, swpolTxns, readTwice, ifOk_ifOk]
    rw [opTxn_plain (k := 0) rfl, opTxn_plain (k := 0 + 1 + 1) rfl]
    simp only [opTxn_kept, ifOk_ifOk]; rfl
  case pollsw axis =>
    simp only [txnCount, opLoop_succ, opLoop_zero, ifOk_id, opTxns, pollswTxns, readTwice, ifOk_ifOk]
    rw [opTxn_plain (k := 0) rfl]; rfl
  case pollsg axis =>
    simp only [txnCount, opLoop_succ, opLoop_zero, ifOk_id, opTxns, pollsgTxns, readTwice, ifOk_ifOk]
    rw [opTxn_plain (k := 0) rfl, opTxn_plain (k := 0 + 1 + 1) rfl]
    simp only [opTxn_kept, ifOk_ifOk]; rfl
  case poll axis =>
    simp only [txnCount, opLoop_succ, opLoop_zero, ifOk_id, opTxns, pollTxns, readTwice, ifOk_ifOk]
    rw [opTxn_plain (k := 0) rfl, opTxn_plain (k := 0 + 1 + 1) rfl, opTxn_plain (k := 0 + 1 + 1 + 1 + 1) rfl]
    simp only [opTxn_kept, ifOk_ifOk]; rfl

/-- The control registers of the engine do not matter to a transaction. -/
theorem opTxn_control (i : Instr) (a : Axis) (k : Nat) (s : State) (x : EngState) (n c : Nat) :
    opTxn i a k { s with eng := { s.eng with state := x, seqI := n, toCnt := c } } =
      { opTxn i a k s with eng := { (opTxn i a k s).eng with state := x, seqI := n } } := by
  have hD : opDatagram i a k { s with eng := { s.eng with state := x, seqI := n, toCnt := c } } = opDatagram i a k s := by
    cases i <;> simp [opDatagram, swpolWord]
  have hn : nextDraw { s with eng := { s.eng with state := x, seqI := n, toCnt := c } } = nextDraw s := rfl
  unfold opTxn
  rw [hD]
  by_cases hg : (nextDraw s).wait < s.cfg.txnTimeout
  · rw [txn_granted_eq _ _ _ _ _ hg, txn_granted_eq (s := { s with eng := _ }) _ _ _ _ (by rw [hn]; exact hg), keepOk_keep,
      keepOk_keep, hn, passCycles_setEng, dropDraw_setEng]
    simp only [withPend_eng]
    rw [← keepEngine_control]
    rw [State.ax_eng]
    cases a <;> rfl
  · have hg2 : s.cfg.txnTimeout ≤ (nextDraw s).wait := by omega
    have e2 := txn_timeout_eq a (opDatagram i a k s).1 (opDatagram i a k s).2.1 (opDatagram i a k s).2.2
      { s with eng := { s.eng with state := x, seqI := n, toCnt := c } } hg2
    rw [e2, txn_timeout_eq _ _ _ _ _ hg2, keepOk_keep, keepOk_keep, passCycles_setEng, dropDraw_setEng]
    simp only []
    rw [← keepEngine_control]
    rw [State.ax_eng]

theorem txnsCycles_congr (r : Nat) {s t : State} (h1 : t.cfg = s.cfg) (h2 : t.world.busq = s.world.busq)
    (h3 : t.world.drawCnt = s.world.drawCnt) : txnsCycles r t = txnsCycles r s := by
  induction r generalizing s t with
  | zero => rfl
  | succ r ih =>
    have hn : nextDraw t = nextDraw s := by simp [nextDraw, h2, h3]
    have hd : txnsCycles r (dropDraw t) = txnsCycles r (dropDraw s) := by
      refine ih (by simp [h1]) ?_ ?_ <;> unfold dropDraw <;> rw [h2] <;> cases s.world.busq <;> simp [h2, h3]
    simp only [txnsCycles, hn, h1, hd]

/-- What a transaction of an op does to the draws and the result. -/
theorem opTxn_draws (i : Instr) (a : Axis) (k : Nat) (s : State) :
    (opTxn i a k s).cfg = s.cfg ∧ (opTxn i a k s).world.busq = (dropDraw s).world.busq ∧
      (opTxn i a k s).world.drawCnt = (dropDraw s).world.drawCnt ∧
      (opTxn i a k s).world.rstq = resetNearer (txnCycles s.cfg (nextDraw s)) s.world.rstq ∧
      (opTxn i a k s).eng.cur = s.eng.cur ∧
      lastOk (opTxn i a k s) = (granted s.cfg (nextDraw s) && !(nextDraw s).unexpected) := by
  unfold opTxn
  by_cases hg : (nextDraw s).wait < s.cfg.txnTimeout
  · rw [txn_granted_eq _ _ _ _ _ hg, keepOk_keep, ← passCycles_dropDraw]
    have hk := keepEngine_same i k { afterTxn (opDatagram i a k s).1 (opDatagram i a k s).2.1 (opDatagram i a k s).2.2
      (nextDraw s) (s.ax a).pend s.eng with last := ⟨echoCode (nextDraw s), (nextDraw s).reply, (s.ax a).pend⟩ }
    obtain ⟨-, -, h3, h4, -⟩ := hk
    refine ⟨by simp, by simp, by simp, ?_, ?_, ?_⟩
    · simp [passCycles_rstq, txnCycles, granted, hg]
    · simp only [withPend_eng, h3]; rfl
    · simp only [lastOk, withPend_eng, h4, granted, hg]; cases h : (nextDraw s).unexpected <;> simp [echoCode, h]
  · rw [txn_timeout_eq _ _ _ _ _ (by omega), keepOk_keep, ← passCycles_dropDraw]
    have hk := keepEngine_same i k { s.eng with toCnt := s.cfg.txnTimeout, last := ⟨.busTimeout, 0#40, (s.ax a).pend⟩ }
    obtain ⟨-, -, h3, h4, -⟩ := hk
    refine ⟨by simp, by simp, by simp, ?_, ?_, ?_⟩
    · simp [passCycles_rstq, txnCycles, granted, hg]
    · simp only [h3]
    · simp [lastOk, h4, granted, hg]

/-- The transactions of an op are their clock cycles, from the first REQ cycle to RESP (R157). -/
theorem cycles_txns {a : Axis} (i : Instr) (r k : Nat) {s : State} (hl : s.cfg.legal = true) (hi : curInstr s = i)
    (hK : txnCount i = k + r + 1) (hc : curCheck s = .ok a) (hr : resetWithin s (txnsCycles (r + 1) s) = false) :
    ∃ j, cycles (txnsCycles (r + 1) s) { s with eng := enterReq { s.eng with seqI := k } } =
      { opLoop i a (r + 1) k s with eng := { (opLoop i a (r + 1) k s).eng with state := .resp, seqI := j } } := by
  induction r generalizing k s with
  | zero =>
    have hT : txnsCycles (0 + 1) s = txnCycles s.cfg (nextDraw s) := by
      simp only [txnsCycles]; split <;> rfl
    rw [hT] at hr ⊢
    have h1 := cycles_txn (s := { s with eng := enterReq { s.eng with seqI := k } }) (a := a) hl rfl rfl hc hr
    have h2 := opTxn_control i a k s .req k 0
    have hi' : curInstr { s with eng := enterReq { s.eng with seqI := k } } = i := hi
    rw [hi'] at h1
    have h3 := h1.trans (congrArg (fun t : State => { t with eng := nextPhase i t.eng }) h2)
    refine ⟨k, h3.trans ?_⟩
    have hk : ¬ k + 1 < txnCount i := by omega
    simp only [nextPhase, hk, decide_false, Bool.and_false, Bool.false_eq_true, if_false]
    have hop : opLoop i a (0 + 1) k s = opTxn i a k s := ifOk_id _
    rw [hop]
  | succ r ih =>
    have h1 := cycles_txn (s := { s with eng := enterReq { s.eng with seqI := k } }) (a := a) hl rfl rfl hc
      (resetWithin_le (by simp only [txnsCycles]; exact Nat.le_add_right _ _) hr)
    have h2 := opTxn_control i a k s .req k 0
    have hi' : curInstr { s with eng := enterReq { s.eng with seqI := k } } = i := hi
    rw [hi'] at h1
    have h3 := h1.trans (congrArg (fun t : State => { t with eng := nextPhase i t.eng }) h2)
    obtain ⟨d1, d2, d3, d4, d5, d6⟩ := opTxn_draws i a k s
    have hk : k + 1 < txnCount i := by omega
    have hT : txnsCycles (r + 1 + 1) s = txnCycles s.cfg (nextDraw s) +
        if lastOk (opTxn i a k s) then txnsCycles (r + 1) (opTxn i a k s) else 0 := by
      rw [txnsCycles_congr (r + 1) (s := dropDraw s) (t := opTxn i a k s) (by simp [d1]) d2 d3, d6]
      rfl
    rw [hT] at hr ⊢
    have hop : opLoop i a (r + 1 + 1) k s = ifOk (opLoop i a (r + 1) (k + 1)) (opTxn i a k s) := rfl
    rw [hop]
    cases hlast : lastOk (opTxn i a k s)
    · simp only [hlast, Bool.false_eq_true, if_false, Nat.add_zero] at hr ⊢
      refine ⟨k, h3.trans ?_⟩
      have hc' : (opTxn i a k s).eng.last.code ≠ .ok := by simpa [lastOk] using hlast
      simp only [nextPhase, hc', decide_false, Bool.false_and, Bool.false_eq_true, if_false, ifOk_neg hlast]
    · simp only [hlast, if_true] at hr ⊢
      have hc' : (opTxn i a k s).eng.last.code = .ok := by simpa [lastOk] using hlast
      have h4 := h3
      simp only [nextPhase, hc', hk, decide_true, Bool.and_self, if_true] at h4
      obtain ⟨j, hj⟩ := ih (k + 1) (s := opTxn i a k s) (by rw [d1]; exact hl) (by unfold curInstr at hi ⊢; rw [d5]; exact hi)
        (by omega) (by rw [← hc]; unfold curCheck; rw [d5]) (by
          unfold resetWithin at hr ⊢
          rw [d4]
          cases hq : s.world.rstq with
          | nil => rfl
          | cons w rest => simp [hq, resetNearer] at hr ⊢; omega)
      refine ⟨j, ?_⟩
      rw [cycles_add, ifOk_pos hlast]
      refine Eq.trans (congrArg _ h4) hj

end Sys2Proof.Machine
end

