-- ==== Sys2Proof/Laws/Fields.lean ====
section
/-! SUPPORT. The fields of an encoded word, one lemma each (30_encoding.md R110, R113, R121). -/

namespace Sys2Proof

theorem enc_op (op : BitVec 4) (axis : BitVec 2) (d e w : Bool) (addr : Addr) (data : Word) :
    opField (enc op axis d e w addr data) = op := by
  apply BitVec.eq_of_getLsbD_eq; intro i hi
  simp only [opField, enc, BitVec.getLsbD_extractLsb', BitVec.getLsbD_append]
  interval_cases i <;> simp

theorem enc_axis (op : BitVec 4) (axis : BitVec 2) (d e w : Bool) (addr : Addr) (data : Word) :
    axisField (enc op axis d e w addr data) = axis := by
  apply BitVec.eq_of_getLsbD_eq; intro i hi
  simp only [axisField, enc, BitVec.getLsbD_extractLsb', BitVec.getLsbD_append]
  interval_cases i <;> simp

theorem enc_d (op : BitVec 4) (axis : BitVec 2) (d e w : Bool) (addr : Addr) (data : Word) :
    dField (enc op axis d e w addr data) = d := by
  simp only [dField, enc, BitVec.getLsbD_append]; simp

theorem enc_e (op : BitVec 4) (axis : BitVec 2) (d e w : Bool) (addr : Addr) (data : Word) :
    eField (enc op axis d e w addr data) = e := by
  simp only [eField, enc, BitVec.getLsbD_append]; simp

theorem enc_w (op : BitVec 4) (axis : BitVec 2) (d e w : Bool) (addr : Addr) (data : Word) :
    wField (enc op axis d e w addr data) = w := by
  simp only [wField, enc, BitVec.getLsbD_append]; simp

theorem enc_addr (op : BitVec 4) (axis : BitVec 2) (d e w : Bool) (addr : Addr) (data : Word) :
    addrField (enc op axis d e w addr data) = addr := by
  apply BitVec.eq_of_getLsbD_eq; intro i hi
  simp only [addrField, enc, BitVec.getLsbD_extractLsb', BitVec.getLsbD_append]
  interval_cases i <;> simp

theorem enc_data (op : BitVec 4) (axis : BitVec 2) (d e w : Bool) (addr : Addr) (data : Word) :
    dataField (enc op axis d e w addr data) = data := by
  apply BitVec.eq_of_getLsbD_eq; intro i hi
  simp only [dataField, enc, BitVec.getLsbD_extractLsb', BitVec.getLsbD_append]
  simp [hi]

theorem datagram_dir (w : Bool) (addr : Addr) (data : Word) : dgDir (datagram w addr data) = w := by
  simp only [dgDir, datagram, BitVec.getLsbD_append]; simp

theorem datagram_addr (w : Bool) (addr : Addr) (data : Word) : dgAddr (datagram w addr data) = addr := by
  apply BitVec.eq_of_getLsbD_eq; intro i hi
  simp only [dgAddr, datagram, BitVec.getLsbD_extractLsb', BitVec.getLsbD_append]
  interval_cases i <;> simp

theorem datagram_data (w : Bool) (addr : Addr) (data : Word) : dgData (datagram w addr data) = data := by
  apply BitVec.eq_of_getLsbD_eq; intro i hi
  simp only [dgData, datagram, BitVec.getLsbD_extractLsb', BitVec.getLsbD_append]
  simp [hi]

end Sys2Proof
end

