-- ==== Sys2Proof/Laws/ClockOp.lean ====
section
/-! SUPPORT. The cycle level of a whole op said once: its IDLE cycle, its RESP cycle, idle time, and that a host command and
a re-issue are their clock cycles (40_transaction.md R157, 70_reset_and_hazards.md R395, R396). -/

namespace Sys2Proof.Machine

/-! ### The RESP cycle -/

theorem opCommit_world (i : Instr) (a : Axis) (w : World) (s : State) :
    opCommit i a { s with world := w } = { opCommit i a s with world := w } := by
  cases i <;> cases a <;> rfl

/-- RESP neither reads nor writes the world. -/
theorem respCommit_world (w : World) (s : State) : respCommit { s with world := w } = { respCommit s with world := w } := by
  have h1 : curCheck { s with world := w } = curCheck s := rfl
  have h2 : curInstr { s with world := w } = curInstr s := rfl
  have h3 : lastOk { s with world := w } = lastOk s := rfl
  unfold respCommit
  rw [h1, h2, h3]
  simp only []
  split
  · split
    · rename_i a _; unfold commitReissue; simp only [h3]; split <;> cases a <;> rfl
    · rfl
  · split
    · rfl
    · split
      · rfl
      · split
        · exact opCommit_world ..
        · rfl

theorem opCommit_setEng (i : Instr) (a : Axis) (s : State) {e : Engine} (h0 : e.tmp0 = s.eng.tmp0) (h1 : e.tmp1 = s.eng.tmp1)
    (h2 : e.tmp2 = s.eng.tmp2) (hl : e.last = s.eng.last) :
    opCommit i a { s with eng := e } = { opCommit i a s with eng := e } := by
  obtain ⟨_, _, _, _, _, _, _, _, _, _, _, _, _, _, _⟩ := e
  cases h0; cases h1; cases h2; cases hl
  cases i <;> cases a <;> rfl

/-- A commit does not write the engine. -/
theorem respCommit_eng (s : State) : (respCommit s).eng = s.eng := by
  have ho : ∀ i a, (opCommit i a s).eng = s.eng := by intro i a; cases i <;> cases a <;> rfl
  unfold respCommit
  split
  · split
    · rename_i a _; cases a <;> rfl
    · rfl
  · split
    · rfl
    · split
      · rfl
      · split
        · exact ho ..
        · rfl

theorem commitRest_eq (s : State) : commitRest s = { respCommit s with eng := atRest s.eng } := by
  unfold commitRest; simp only [respCommit_eng]

/-- RESP of a host command, said on the engine at rest. -/
theorem commitRest_host {s : State} (h : s.eng.curSrc = false) :
    commitRest s =
      if curInstr s = .nop then respondDone { s with eng := atRest s.eng }
      else match curCheck s with
        | .error c => raiseResponse c { s with eng := atRest s.eng }
        | .ok a =>
          if txnCount (curInstr s) = 0 ∨ lastOk s then opCommit (curInstr s) a { s with eng := atRest s.eng }
          else failTxn { s with eng := atRest s.eng } := by
  rw [commitRest_eq]
  unfold respCommit
  simp only [h, Bool.false_eq_true, if_false]
  by_cases hn : curInstr s = .nop
  · simp only [hn, if_true]; rfl
  · simp only [hn, if_false]
    cases hc : curCheck s with
    | error c => rfl
    | ok a =>
      by_cases ho : txnCount (curInstr s) = 0 ∨ lastOk s = true
      · simp only [ho, if_true]
        exact (opCommit_setEng (e := atRest s.eng) _ _ _ rfl rfl rfl rfl).symm
      · simp only [ho, if_false]; rfl

/-- RESP of a re-issue, said on the engine at rest. -/
theorem commitRest_reissue {s : State} {a : Axis} (h : s.eng.curSrc = true) (hc : curCheck s = .ok a) :
    commitRest s = commitReissue a (dataField s.eng.cur) { s with eng := atRest s.eng } := by
  rw [commitRest_eq]
  unfold respCommit
  rw [h, hc]
  unfold commitReissue
  have hl : lastOk { s with eng := atRest s.eng } = lastOk s := rfl
  simp only [if_true, hl]
  split <;> cases a <;> rfl

/-- RESP does not ask which state and which `seq_i` it was entered with. -/
theorem commitRest_control (s : State) (x : EngState) (j : Nat) :
    commitRest { s with eng := { s.eng with state := x, seqI := j } } = commitRest s := by
  have h1 : curCheck { s with eng := { s.eng with state := x, seqI := j } } = curCheck s := rfl
  have h2 : curInstr { s with eng := { s.eng with state := x, seqI := j } } = curInstr s := rfl
  cases h : s.eng.curSrc with
  | false =>
    rw [commitRest_host (s := { s with eng := { s.eng with state := x, seqI := j } }) h, commitRest_host h, h1, h2]
    rfl
  | true =>
    cases hc : curCheck s with
    | ok a => rw [commitRest_reissue (s := { s with eng := { s.eng with state := x, seqI := j } }) h (h1.trans hc), commitRest_reissue h hc]; rfl
    | error c =>
      have hg : ∀ t : State, t.eng.curSrc = true → curCheck t = .error c → commitRest t = { t with eng := atRest t.eng } := by
        intro t ht hct
        unfold commitRest respCommit
        simp only [ht, hct, if_true]
      rw [hg s h hc]
      exact hg _ h (h1.trans hc)

theorem respCycle_eng (s : State) : respCycle s = { passCycles 1 s with eng := atRest (passCycles 1 s).eng } := by
  rw [respCycle_eq, passCycles_eng]

/-- The RESP cycle (R157). -/
theorem cycle_resp {s : State} (hs : s.eng.state = .resp) (hr : resetDue s = false) : cycle s = commitRest (passCycles 1 s) := by
  have hf : engineFree s = false := by simp [engineFree, hs]
  have hh : hostCycle s = s.world.hostq := by simp [hostCycle, hf]
  have he : txnEnds s = false := by unfold txnEnds; rw [hs]; split <;> simp_all
  have hb := filterCycle_frame (pinsOf s).joy s
  have h0 : (pinsOf s).rst = false := hr
  have hE : tick (pinsOf s) s = commitRest (filterCycle (joyOnPort s) s) := by
    unfold tick engineCycle
    simp only [h0, Bool.false_eq_true, if_false, hb.eng, hs]
    rfl
  unfold cycle
  simp only [hr, he, hh, hE, Bool.false_eq_true, if_false]
  rw [passCycles_one, commitRest_eq, commitRest_eq]
  have hF := filterCycle_world (joyOnPort s) s
  clear hb hE
  generalize filterCycle (joyOnPort s) s = F at *
  have hk := respCommit_world F.world F
  have hR : (respCommit F).world = s.world := (congrArg State.world hk).trans hF
  simp only [hR]
  have h2 := respCommit_world { s.world with rstq := resetNearer 1 s.world.rstq, joyq := skipStrobe s.world.joyq } F
  simp only [h2]

/-! ### IDLE cycles -/

theorem lowestPending_free {s : State} (h : anyPending s = false) : lowestPending s = none := by
  unfold anyPending at h
  simp only [Bool.or_eq_false_iff] at h
  simp [lowestPending, h]

/-- An IDLE cycle in which the engine writes its registers and nothing else. -/
theorem cycle_idle {s : State} {e : Engine} (hs : s.eng.state = .idle) (hr : resetDue s = false)
    (hE : idleEngine (pinsOf s) s (filterCycle (joyOnPort s) s) = { filterCycle (joyOnPort s) s with eng := e }) :
    cycle s = { passCycles 1 s with
      eng := e
      world := { (passCycles 1 s).world with hostq := hostCycle s } } := by
  have he : txnEnds s = false := by unfold txnEnds; rw [hs]; split <;> simp_all
  have hb := filterCycle_frame (pinsOf s).joy s
  have h0 : (pinsOf s).rst = false := hr
  have hj : (pinsOf s).joy = joyOnPort s := rfl
  have hT : tick (pinsOf s) s = { filterCycle (joyOnPort s) s with eng := e } := by
    rw [← hE]
    unfold tick engineCycle
    simp only [h0, Bool.false_eq_true, if_false, hb.eng, hs]
    rfl
  unfold cycle
  simp only [hr, he, hT, Bool.false_eq_true, if_false]
  rw [passCycles_one, filterCycle_world]

/-- What a command on the port makes of the engine in its IDLE cycle (R157). -/
def started (s : State) : Engine :=
  match curCheck s with
  | .error _ => { s.eng with state := .resp, seqI := 0 }
  | .ok _ => if txnCount (curInstr s) = 0 then { s.eng with state := .resp, seqI := 0 }
    else enterReq { s.eng with seqI := 0 }

/-- The IDLE cycle in which a command is taken (R157). -/
theorem cycle_accept {s : State} {w : Command} (hf : engineFree s = true) (hw : commandOnPort s = some w)
    (hr : resetDue s = false) :
    cycle s = { startCycle (acceptCommand w s) with eng := started (acceptCommand w s) } := by
  have hs : s.eng.state = .idle := by unfold engineFree at hf; simp at hf; exact hf.1
  have hp : anyPending s = false := by unfold engineFree at hf; simp at hf; exact hf.2
  have hh : hostCycle s = s.world.hostq.tail := by simp [hostCycle, hf, hw]
  have hb := filterCycle_frame (joyOnPort s) s
  rw [cycle_idle (e := started (acceptCommand w s)) hs hr ?_]
  · rw [hh]
    unfold startCycle acceptCommand
    have h1 := passCycles_setEng 1 { s.eng with cur := w, curSrc := false } { s with world := { s.world with hostq := s.world.hostq.tail } }
    have h2 := passCycles_setHostq 1 s.world.hostq.tail s
    rw [h2] at h1
    rw [h1]
  · unfold idleEngine
    rw [lowestPending_free hp]
    have hc : (pinsOf s).cmd = some w := hw
    simp only [hc, hb.eng]
    have h1 : curCheck { filterCycle (joyOnPort s) s with eng := { s.eng with cur := w, curSrc := false, seqI := 0 } } =
      curCheck (acceptCommand w s) := rfl
    have h2 : curInstr { filterCycle (joyOnPort s) s with eng := { s.eng with cur := w, curSrc := false, seqI := 0 } } =
      curInstr (acceptCommand w s) := rfl
    rw [h1, h2]
    unfold started
    cases curCheck (acceptCommand w s)
    · rfl
    · by_cases ht : txnCount (curInstr (acceptCommand w s)) = 0
      · simp only [ht, if_true]; rfl
      · simp only [ht, if_false]; rfl

/-- The IDLE cycle in which a re-issue starts (R157, R298). -/
theorem cycle_reissue {s : State} {a : Axis} (hs : s.eng.state = .idle) (hp : lowestPending s = some a)
    (hr : resetDue s = false) :
    cycle s = { startCycle (loadReissue a s) with eng := enterReq { (loadReissue a s).eng with seqI := 0 } } := by
  have hn : (s.ax a).joyPend = true ∧ anyPending s = true := by
    unfold lowestPending at hp
    unfold anyPending
    split at hp
    · cases hp; rename_i h; simp [State.ax, h]
    · split at hp
      · cases hp; rename_i h; simp [State.ax, h]
      · split at hp
        · cases hp; rename_i h; simp [State.ax, h]
        · cases hp
  have hf : engineFree s = false := by simp [engineFree, hn.2]
  have hh : hostCycle s = s.world.hostq := by simp [hostCycle, hf]
  have hb := filterCycle_frame (joyOnPort s) s
  have hj : ((filterCycle (joyOnPort s) s).ax a).joyNext = (s.ax a).joyNext := by
    unfold filterCycle
    split
    · rw [if_neg (by simp [gateOpen, hn.2])]; cases a <;> rfl
    · cases a <;> rfl
  rw [cycle_idle (e := enterReq { (loadReissue a s).eng with seqI := 0 }) hs hr ?_]
  · rw [hh]
    unfold startCycle loadReissue
    have h1 := passCycles_setEng 1 { s.eng with cur := reissueCommand a (s.ax a).joyNext, curSrc := true } s
    rw [h1, ← passCycles_hostq 1 s]
  · unfold idleEngine
    rw [hp]
    simp only [loadReissue, hj, hb.eng]

theorem commandNearer_add (m n : Nat) (q : List HostCommand) :
    commandNearer n (commandNearer m q) = commandNearer (m + n) q := by
  cases q with
  | nil => rfl
  | cons c rest => simp [commandNearer, Nat.sub_sub]

/-- Before the next strobe no axis changes. -/
theorem passCycles_axes {s : State} {n : Nat} (h : ∀ st rest, s.world.joyq = st :: rest → n ≤ st.wait) :
    (passCycles n s).axes = s.axes := by
  have : (runFilter s.world.joyq n s).axes = s.axes := by
    cases hq : s.world.joyq with
    | nil => rfl
    | cons st rest => rw [runFilter, if_neg (by have := h st rest hq; omega)]; rfl
  exact this

/-- Idle cycles up to the end of the span in which nothing is due (00_scope.md R7). -/
theorem cycles_idle {s : State} (hf : engineFree s = true) (hr : resetWithin s (idleSpan s) = false) : cycles (idleSpan s) s = idle s := by
  have hs : s.eng.state = .idle := by unfold engineFree at hf; simp at hf; exact hf.1
  have hp : anyPending s = false := by unfold engineFree at hf; simp at hf; exact hf.2
  have b1 : ∀ c rest, s.world.hostq = c :: rest → idleSpan s ≤ c.wait := by
    intro c rest h; unfold idleSpan; rw [h]; cases s.world.joyq <;> simp
  have b2 : ∀ st rest, s.world.joyq = st :: rest → idleSpan s ≤ st.wait + 1 := by
    intro st rest h; unfold idleSpan; rw [h]; cases s.world.hostq <;> simp
  suffices ∀ m, m ≤ idleSpan s → cycles m s = { passCycles m s with world := { (passCycles m s).world with
      hostq := commandNearer m s.world.hostq } } by
    rw [this _ (Nat.le_refl _)]; unfold idle; simp only [passCycles_hostq]
  intro m hm
  induction m with
  | zero =>
    rw [passCycles_zero]
    have : commandNearer 0 s.world.hostq = s.world.hostq := by cases s.world.hostq <;> rfl
    rw [this]; rfl
  | succ m ih =>
    rw [cycles_succ, ih (by omega)]
    generalize hS : ({ passCycles m s with world := { (passCycles m s).world with
      hostq := commandNearer m s.world.hostq } } : State) = S
    have hax : S.axes = s.axes := by
      rw [← hS]
      exact passCycles_axes fun st rest h => by have := b2 st rest h; omega
    have heng : S.eng = s.eng := by rw [← hS]; exact passCycles_eng m s
    have hpS : anyPending S = false := by simpa [anyPending, hax] using hp
    have hfS : engineFree S = true := by simp [engineFree, heng, hs, hpS]
    have hwS : commandOnPort S = none := by
      rw [← hS]; unfold commandOnPort
      cases hq : s.world.hostq with
      | nil => rfl
      | cons c rest =>
        have := b1 c rest hq
        simp [commandNearer]; omega
    have hrS : resetDue S = false := by
      refine resetDue_of_within (n := 0) ?_
      have h1 : resetWithin s (m + 1) = false := resetWithin_le hm hr
      have h2 := resetWithin_atCycle (n := m) (m := 1) (e := s.eng) h1
      rw [← hS]; exact h2
    have hhS : hostCycle S = commandNearer (m + 1) s.world.hostq := by
      unfold hostCycle
      rw [hfS, hwS, ← commandNearer_add, ← hS]; rfl
    rw [cycle_idle (e := S.eng) (by rw [heng, hs]) hrS ?_, hhS, ← hS, passCycles_setHostq, passCycles_add]
    · show ({ passCycles (m + 1) s with eng := (passCycles m s).eng, world := _ } : State) = _
      rw [passCycles_eng, ← passCycles_eng (m + 1) s]
    · unfold idleEngine
      have hb := filterCycle_frame (joyOnPort S) S
      have hc : (pinsOf S).cmd = none := hwS
      rw [lowestPending_free hpS]
      simp only [hc]
      rw [← hb.eng]

/-! ### A whole op -/

/-- The state at the end of the RESP cycle of the op in `cur`, before the commit: what its transactions, if any, left (R157). -/
def atCommit (s : State) : State :=
  passCycles 1 (match curCheck s with
    | .ok a => opTxns (curInstr s) a (startCycle s)
    | .error _ => startCycle s)

/-- Nothing before the commit writes `cur` and `cur_src`. -/
theorem atCommit_cur (s : State) : (atCommit s).eng.cur = s.eng.cur ∧ (atCommit s).eng.curSrc = s.eng.curSrc := by
  unfold atCommit
  rw [passCycles_eng]
  split
  · rename_i a _
    have hF := opTxns_frame (curInstr s) a (startCycle s)
    exact ⟨hF.cur.trans (congrArg Engine.cur (passCycles_eng 1 s)), hF.curSrc.trans (congrArg Engine.curSrc (passCycles_eng 1 s))⟩
  · exact ⟨by rw [startCycle, passCycles_eng], by rw [startCycle, passCycles_eng]⟩

/-- A host command in `cur` is its transactions and one commit. -/
theorem exec_cur {s : State} (hs : s.eng.curSrc = false) : exec (curInstr s) s = .next (commitRest (atCommit s)) := by
  have hcur := atCommit_cur s
  rw [commitRest_host (hcur.2.trans hs)]
  have hi : curInstr (atCommit s) = curInstr s := by unfold curInstr; rw [hcur.1]
  have hk : curCheck (atCommit s) = curCheck s := by unfold curCheck; rw [hcur.1]
  have hl : lastOk (atCommit s) = lastOk { atCommit s with eng := atRest (atCommit s).eng } := rfl
  rw [hi, hk, hl]
  unfold atCommit
  rw [← respCycle_eng]
  unfold curInstr curCheck decodeCommand
  generalize axisField s.eng.cur = axis
  generalize dataField s.eng.cur = data
  have hc : ∀ n : BitVec 4, n ≠ 3#4 → check n axis 0#32 = check n axis data := by
    intro n hn; simp [check, hn]
  have ho : ∀ n : Nat, (h : n < 16) → (opField s.eng.cur).toNat = n → opField s.eng.cur = BitVec.ofNat 4 n := by
    intro n h hn; apply BitVec.eq_of_toNat_eq; simp [hn]; omega
  split
  case h_1 h => 
    rw [ho 0 (by omega) h]
    simp only [if_true]
    show Host.Outcome.next _ = _
    split <;> rfl
  case h_15 h =>
    rw [ho 14 (by omega) h]; rfl
  case h_16 =>
    have h : (opField s.eng.cur).toNat = 15 := by
      have := (opField s.eng.cur).isLt
      generalize (opField s.eng.cur).toNat = k at *
      interval_cases k <;> first | rfl | (exfalso; simp_all)
    rw [ho 15 (by omega) h]; rfl
  all_goals
    rename_i h
    rw [ho _ (by omega) h]
    simp only [exec, execXfer, execWrite, execWrnz, execRead, execPoll, execPollsg, execPollsw, execVel, execPwr, execSwap,
      execSwpol, execFlags, execJoycfg, hostOp, finish, raise, txnCount, reduceCtorEq, if_false, opTxns, opCommit]
    try rw [hc _ (by decide)]
    generalize check _ axis data = c
    cases c <;> simp

/-- A RESP cycle entered from any state of the engine. -/
theorem cycle_commit {s : State} (j : Nat) (hr : resetDue s = false) :
    cycle { s with eng := { s.eng with state := .resp, seqI := j } } = commitRest (passCycles 1 s) := by
  have h := cycle_resp (s := { s with eng := { s.eng with state := .resp, seqI := j } }) rfl hr
  rw [h, passCycles_setEng]
  rw [← passCycles_eng 1 s, commitRest_control]

theorem cycle_rstq {s : State} (hr : resetDue s = false) : (cycle s).world.rstq = resetNearer 1 s.world.rstq := by
  unfold cycle; simp only [hr, Bool.false_eq_true, if_false]

theorem resetWithin_nearer {s t : State} {n m : Nat} (h : t.world.rstq = resetNearer n s.world.rstq)
    (hr : resetWithin s (n + m) = false) : resetWithin t m = false := by
  unfold resetWithin at *
  rw [h]
  cases hq : s.world.rstq with
  | nil => rfl
  | cons w rest => simp [hq, resetNearer] at hr ⊢; omega

theorem cycles_rstq {s : State} {n : Nat} (hr : resetWithin s n = false) :
    (cycles n s).world.rstq = resetNearer n s.world.rstq := by
  induction n generalizing s with
  | zero => show s.world.rstq = _; cases s.world.rstq <;> rfl
  | succ n ih =>
    have h1 : resetDue s = false := resetDue_of_within hr
    have h2 := cycle_rstq h1
    show (cycles n (cycle s)).world.rstq = _
    rw [ih (resetWithin_nearer h2 (by rwa [Nat.add_comm])), h2, resetNearer_add, Nat.add_comm]

theorem opTxns_none (i : Instr) (a : Axis) (s : State) (h : txnCount i = 0) : opTxns i a s = s := by
  cases i <;> first | rfl | (simp [txnCount] at h)

/-- The transactions of an op and its RESP cycle, from the cycle after IDLE. -/
theorem cycles_body {s : State} {a : Axis} (hl : s.cfg.legal = true) (hc : curCheck s = .ok a)
    (hi : isCommand (curInstr s) = true) (ht : txnCount (curInstr s) ≠ 0)
    (hr : resetWithin s (txnsCycles (txnCount (curInstr s)) s + 1) = false) :
    cycles (txnsCycles (txnCount (curInstr s)) s + 1) { s with eng := enterReq { s.eng with seqI := 0 } } =
      commitRest (passCycles 1 (opTxns (curInstr s) a s)) := by
  obtain ⟨r, hr1⟩ : ∃ r, txnCount (curInstr s) = r + 1 := ⟨txnCount (curInstr s) - 1, by omega⟩
  rw [← opLoop_eq _ a s hi]
  rw [hr1] at hr ⊢
  obtain ⟨j, hj⟩ := cycles_txns (curInstr s) r 0 hl rfl (by omega) hc (resetWithin_le (Nat.le_add_right _ _) hr)
  have hq := cycles_rstq (s := { s with eng := enterReq { s.eng with seqI := 0 } }) (n := txnsCycles (r + 1) s)
    (resetWithin_le (Nat.le_add_right _ 1) hr)
  rw [cycles_succ, hj, cycle_resp rfl ?_, passCycles_setEng]
  · rw [← passCycles_eng 1 (opLoop (curInstr s) a (r + 1) 0 s), commitRest_control]
  rw [hj] at hq
  exact resetDue_of_within (n := 0) (resetWithin_nearer (s := s) hq hr)

/-- The whole of an op from its first cycle after IDLE. -/
theorem cycles_op {s : State} (hl : s.cfg.legal = true) (hi : isCommand (curInstr s) = true)
    (hr : resetWithin s (txnsCycles (match curCheck s with | .ok _ => txnCount (curInstr s) | .error _ => 0) s + 1) = false) :
    cycles (txnsCycles (match curCheck s with | .ok _ => txnCount (curInstr s) | .error _ => 0) s + 1)
      { s with eng := started s } = commitRest (passCycles 1 (match curCheck s with
    | .ok a => opTxns (curInstr s) a s
    | .error _ => s)) := by
  unfold started
  cases hc : curCheck s with
  | error c =>
    simp only [hc, txnsCycles] at hr ⊢
    show cycle _ = _
    exact cycle_commit 0 (resetDue_of_within (n := 0) hr)
  | ok a =>
    simp only [hc] at hr ⊢
    by_cases ht : txnCount (curInstr s) = 0
    · simp only [ht, if_true, txnsCycles] at hr ⊢
      show cycle _ = _
      rw [cycle_commit 0 (resetDue_of_within (n := 0) hr), opTxns_none _ _ _ ht]
    · simp only [ht, if_false]
      exact cycles_body hl hc hi ht hr

theorem isCommand_decode (w : Command) : isCommand (decodeCommand w) = true := by
  unfold decodeCommand; split <;> rfl

/-- A host command is its clock cycles. -/
theorem exec_cycles {s : State} {w : Command} (hl : s.cfg.legal = true) (hf : engineFree s = true) (hw : commandOnPort s = some w)
    (hr : resetWithin s (2 + txnsCycles (commandTxns w) s) = false) :
    exec (decodeCommand w) (acceptCommand w s) = .next (cycles (2 + txnsCycles (commandTxns w) s) s) := by
  have hd : resetDue s = false := resetDue_of_within (n := 1 + txnsCycles (commandTxns w) s) (resetWithin_le (by omega) hr)
  have ha := cycle_accept hf hw hd
  have heng : (startCycle (acceptCommand w s)).eng = (acceptCommand w s).eng := passCycles_eng ..
  have hst : started (acceptCommand w s) = started (startCycle (acceptCommand w s)) := by
    unfold started curCheck curInstr; rw [heng]
  rw [hst] at ha
  have hT : commandTxns w = (match curCheck (startCycle (acceptCommand w s)) with
      | .ok _ => txnCount (curInstr (startCycle (acceptCommand w s))) | .error _ => 0) := by
    unfold curCheck curInstr; rw [heng]; rfl
  have hT2 := txnsCycles_congr (commandTxns w) (s := s) (t := startCycle (acceptCommand w s)) (by simp [startCycle]; rfl)
    (by simp [startCycle]; rfl) (by simp [startCycle]; rfl)
  have hcl : (startCycle (acceptCommand w s)).cfg.legal = true := by rw [show (startCycle (acceptCommand w s)).cfg = s.cfg by simp [startCycle]; rfl]; exact hl
  have hrr : (startCycle (acceptCommand w s)).world.rstq = resetNearer 1 s.world.rstq := passCycles_rstq ..
  have hb := cycles_op hcl (isCommand_decode _) (by
    rw [← hT, hT2]; exact resetWithin_nearer hrr (by rw [show 1 + (txnsCycles (commandTxns w) s + 1) = 2 + txnsCycles (commandTxns w) s by omega]; exact hr))
  rw [← hT, hT2] at hb
  have he := exec_cur (s := acceptCommand w s) rfl
  have hcur : curInstr (acceptCommand w s) = decodeCommand w := rfl
  rw [hcur] at he
  rw [he, show 2 + txnsCycles (commandTxns w) s = 1 + (txnsCycles (commandTxns w) s + 1) by omega, cycles_add]
  show _ = Host.Outcome.next (cycles _ (cycle s))
  rw [ha, hb]
  unfold atCommit curCheck curInstr
  rw [heng]

/-- A re-issue is its clock cycles. -/
theorem reissue_cycles {s : State} {a : Axis} (hl : s.cfg.legal = true) (hs : s.eng.state = .idle) (hp : lowestPending s = some a)
    (hr : resetWithin s (2 + txnsCycles 2 s) = false) : reissue a s = cycles (2 + txnsCycles 2 s) s := by
  have hd : resetDue s = false := resetDue_of_within (n := 1 + txnsCycles 2 s) (resetWithin_le (by omega) hr)
  have ha := cycle_reissue hs hp hd
  have heng : (startCycle (loadReissue a s)).eng = (loadReissue a s).eng := passCycles_eng ..
  have hcu : (startCycle (loadReissue a s)).eng.cur = reissueCommand a (s.ax a).joyNext := by rw [heng]; rfl
  rw [← heng] at ha
  have hi : curInstr (startCycle (loadReissue a s)) = .vel (axisBits a) (isNegative (s.ax a).joyNext) (s.ax a).joyNext := by
    unfold curInstr; rw [hcu]
    unfold reissueCommand decodeCommand
    rw [enc_op, enc_axis, enc_d, enc_data]; rfl
  have hc : curCheck (startCycle (loadReissue a s)) = .ok a := by
    unfold curCheck; rw [hcu]
    unfold reissueCommand
    rw [enc_op, enc_axis, enc_data]; cases a <;> rfl
  have hT2 := txnsCycles_congr 2 (s := s) (t := startCycle (loadReissue a s)) (by simp [startCycle]; rfl)
    (by simp [startCycle]; rfl) (by simp [startCycle]; rfl)
  have hcl : (startCycle (loadReissue a s)).cfg.legal = true := by rw [show (startCycle (loadReissue a s)).cfg = s.cfg by simp [startCycle]; rfl]; exact hl
  have hrr : (startCycle (loadReissue a s)).world.rstq = resetNearer 1 s.world.rstq := passCycles_rstq ..
  have hK : txnCount (curInstr (startCycle (loadReissue a s))) = 2 := by rw [hi]; rfl
  have hb := cycles_body hcl hc (by rw [hi]; rfl) (by rw [hK]; decide) (by
    rw [hK, hT2]; exact resetWithin_nearer hrr (by rw [show 1 + (txnsCycles 2 s + 1) = 2 + txnsCycles 2 s by omega]; exact hr))
  rw [hK, hT2, hi] at hb
  rw [show 2 + txnsCycles 2 s = 1 + (txnsCycles 2 s + 1) by omega, cycles_add]
  show _ = cycles _ (cycle s)
  rw [ha, hb]
  have hF := opTxns_frame (.vel (axisBits a) (isNegative (s.ax a).joyNext) (s.ax a).joyNext) a (startCycle (loadReissue a s))
  generalize hV : opTxns (.vel (axisBits a) (isNegative (s.ax a).joyNext) (s.ax a).joyNext) a (startCycle (loadReissue a s)) = V at *
  have hsrc : (passCycles 1 V).eng.curSrc = true := by rw [passCycles_eng, hF.curSrc, heng]; rfl
  have hcu2 : (passCycles 1 V).eng.cur = reissueCommand a (s.ax a).joyNext := by rw [passCycles_eng, hF.cur, hcu]
  have hck : curCheck (passCycles 1 V) = .ok a := by rw [← hc]; unfold curCheck; rw [hcu2, hcu]
  have hdt : dataField (passCycles 1 V).eng.cur = (s.ax a).joyNext := by rw [hcu2]; exact enc_data ..
  rw [commitRest_reissue hsrc hck, hdt, ← respCycle_eng, ← hV]
  rfl

end Sys2Proof.Machine
end

