-- ==== Sys2Proof/Laws/Inv.lean ====
section
/-! SUPPORT. The invariant of Safety.lean under each shared operation: edits of one part of the state, time, a transaction,
the ends of an op. -/

namespace Sys2Proof.Machine

theorem MachineInv.axis {s : State} (h : MachineInv s) (a : Axis) : AxisInv (s.ax a) := by
  obtain ⟨_, _, _, _, h0, h1, h2⟩ := h
  cases a <;> assumption

theorem MachineInv.intro' {s : State} (h1 : s.cfg.legal = true) (h2 : s.gateCnt < sampleCycles s.cfg) (h3 : s.rsp.code.toNat ≤ 5)
    (h4 : EngineInv s.cfg s.eng) (h5 : ∀ a, AxisInv (s.ax a)) : MachineInv s :=
  ⟨h1, h2, h3, h4, h5 .a0, h5 .a1, h5 .a2⟩

theorem legal_ranges {p : Params} (h : p.legal = true) :
    1 ≤ p.clkHz ∧ 1 ≤ p.sckDiv ∧ 1 ≤ p.csSetup ∧ 1 ≤ p.csHold ∧ 1 ≤ p.csIdle ∧ 1 ≤ p.txnTimeout := by
  simpa [Params.legal, and_assoc] using h

theorem sampleCycles_pos {p : Params} (h : p.legal = true) : 1 ≤ sampleCycles p := by
  have := (legal_ranges h).1
  unfold sampleCycles
  omega

theorem MachineInv.setAx {s : State} (h : MachineInv s) (a : Axis) {x : AxisRegs} (hx : AxisInv x) : MachineInv (s.setAx a x) := by
  refine MachineInv.intro' ?_ ?_ ?_ ?_ fun b => ?_
  · simpa using h.1
  · simpa using h.2.1
  · simpa using h.2.2.1
  · simpa using h.2.2.2.1
  · by_cases hb : b = a
    · subst hb; simpa using hx
    · rw [State.ax_setAx_ne _ _ hb]; exact h.axis b

theorem MachineInv.setEng {s : State} (h : MachineInv s) {e : Engine} (he : EngineInv s.cfg e) : MachineInv { s with eng := e } :=
  ⟨h.1, h.2.1, h.2.2.1, he, h.2.2.2.2⟩

theorem MachineInv.setWorld {s : State} (h : MachineInv s) (w : World) : MachineInv { s with world := w } := h

theorem codeBits_le (c : Code) : (codeBits c).toNat ≤ 5 := by cases c <;> decide

theorem MachineInv.respond {s : State} (h : MachineInv s) (c : Code) (data : Word) (status : BitVec 8) (prev : BitVec 9) :
    MachineInv (respond c data status prev s) := ⟨h.1, h.2.1, codeBits_le c, h.2.2.2⟩

theorem SameButRequest.inv {x y : AxisRegs} (h : SameButRequest x y) (hy : AxisInv y) : AxisInv x := by
  unfold SameButRequest at h
  rw [h]
  exact hy

/-! ### Time -/

theorem coast_gate (n : Nat) (s : State) : (coast n s).gateCnt ≤ s.gateCnt := by
  show s.gateCnt - n ≤ s.gateCnt
  omega

theorem filterCycle_gate (v : Option Sample) (s : State) (h : s.gateCnt < sampleCycles s.cfg) :
    (filterCycle v s).gateCnt < sampleCycles s.cfg := by
  unfold filterCycle
  split
  · split
    · show sampleCycles s.cfg - 1 < sampleCycles s.cfg
      omega
    · show s.gateCnt - 1 < sampleCycles s.cfg
      omega
  · show s.gateCnt - 1 < sampleCycles s.cfg
    omega

theorem runFilter_gate (q : List Strobe) (n : Nat) (s : State) (h : s.gateCnt < sampleCycles s.cfg) :
    (runFilter q n s).gateCnt < sampleCycles s.cfg := by
  induction q generalizing n s with
  | nil => exact Nat.lt_of_le_of_lt (coast_gate n _) h
  | cons st rest ih =>
    unfold runFilter
    split
    · have hc : (filterCycle (some st.sample) (coast st.wait s)).cfg = s.cfg := (filterCycle_frame _ _).cfg
      have hg := filterCycle_gate (some st.sample) (coast st.wait s) (Nat.lt_of_le_of_lt (coast_gate _ s) h)
      have hi := ih (n - st.wait - 1) (filterCycle (some st.sample) (coast st.wait s)) (by rw [hc]; exact hg)
      rw [hc] at hi
      exact hi
    · exact Nat.lt_of_le_of_lt (coast_gate n _) h

theorem passCycles_gate (n : Nat) (s : State) (h : s.gateCnt < sampleCycles s.cfg) :
    (passCycles n s).gateCnt < sampleCycles s.cfg := runFilter_gate s.world.joyq n s h

theorem MachineInv.ofTime {t s : State} (h : MachineInv s) (f : TimeFrame t s) (g : t.gateCnt < sampleCycles s.cfg) : MachineInv t := by
  refine MachineInv.intro' ?_ ?_ ?_ ?_ fun a => (f.axes a).inv (h.axis a)
  · rw [f.cfg]; exact h.1
  · rw [f.cfg]; exact g
  · rw [f.rspCode]; exact h.2.2.1
  · rw [f.cfg, f.eng]; exact h.2.2.2.1

theorem MachineInv.passCycles {s : State} (h : MachineInv s) (n : Nat) : MachineInv (passCycles n s) :=
  h.ofTime (passCycles_frame n s) (passCycles_gate n s h.2.1)

theorem MachineInv.filterCycle {s : State} (h : MachineInv s) (v : Option Sample) : MachineInv (filterCycle v s) :=
  h.ofTime (filterCycle_frame v s) (filterCycle_gate v s h.2.1)

/-! ### Transactions and the ends of an op -/

theorem MachineInv.dropDraw {s : State} (h : MachineInv s) : MachineInv (dropDraw s) := by unfold Machine.dropDraw; split <;> exact h

theorem MachineInv.withPend {s : State} (h : MachineInv s) (a : Axis) (w : Bool) (addr : Addr) :
    MachineInv (withPend a ⟨true, w, addr⟩ s) :=
  h.setAx a ⟨(h.axis a).1, (h.axis a).2.1, fun hp => by simp at hp⟩

theorem echoCode_le (d : Draw) : (codeBits (echoCode d)).toNat ≤ 2 := by
  unfold echoCode; split <;> decide

/-- A transaction from an idle engine (the transaction level never runs one in mid-op). -/
theorem MachineInv.txn {s : State} (h : MachineInv s) (hi : s.eng.state = .idle) (a : Axis) (w : Bool) (addr : Addr) (data : Word) :
    MachineInv (txn a w addr data s) := by
  obtain ⟨e1, e2, e3, e4, e5, e6, e7, e8⟩ := h.2.2.2.1
  have hr := legal_ranges h.1
  by_cases hw : (nextDraw s).wait < s.cfg.txnTimeout
  · rw [txn_granted_eq a w addr data s hw]
    refine MachineInv.withPend (MachineInv.setEng (h.passCycles _).dropDraw ?_) a w addr
    simp only [dropDraw_cfg, passCycles_cfg]
    refine ⟨e1, e2, Nat.le_refl 40, fun hs => ?_, ?_, ?_, fun hs => ?_, echoCode_le _⟩
    · simp [afterTxn, hi] at hs
    · show 0 < s.cfg.sckDiv; omega
    · show (nextDraw s).wait ≤ s.cfg.txnTimeout; omega
    · simp [afterTxn, hi] at hs
  · rw [txn_timeout_eq a w addr data s (by omega)]
    refine MachineInv.setEng (h.passCycles _).dropDraw ?_
    simp only [dropDraw_cfg, passCycles_cfg]
    refine ⟨e1, e2, e3, e4, e5, Nat.le_refl _, fun hs => ?_, (by decide : (codeBits .busTimeout).toNat ≤ 2)⟩
    simp [hi] at hs

/-- The invariant together with an idle engine: what holds between the parts of an op at the transaction level. -/
def IdleInv (s : State) : Prop := MachineInv s ∧ s.eng.state = .idle

theorem IdleInv.passCycles {s : State} (h : IdleInv s) (n : Nat) : IdleInv (passCycles n s) :=
  ⟨h.1.passCycles n, by rw [passCycles_eng]; exact h.2⟩

theorem IdleInv.txn {s : State} (h : IdleInv s) (a : Axis) (w : Bool) (addr : Addr) (data : Word) :
    IdleInv (txn a w addr data s) := ⟨h.1.txn h.2 a w addr data, by rw [(txn_frame a w addr data s).state]; exact h.2⟩

theorem IdleInv.ifOk {next : State → State} {s : State} (h : IdleInv s) (hn : ∀ s, IdleInv s → IdleInv (next s)) :
    IdleInv (ifOk next s) := by
  unfold Machine.ifOk; split
  · exact hn s h
  · exact h

theorem IdleInv.readTwice {s : State} (h : IdleInv s) (a : Axis) (addr : Addr) : IdleInv (readTwice a addr s) :=
  (h.txn a false addr 0#32).ifOk fun _ h => h.txn a false addr 0#32

theorem IdleInv.keepTmp0 {s : State} (h : IdleInv s) : IdleInv (keepTmp0 s) := ⟨h.1.setEng h.1.2.2.2.1, h.2⟩
theorem IdleInv.keepTmp1 {s : State} (h : IdleInv s) : IdleInv (keepTmp1 s) := ⟨h.1.setEng h.1.2.2.2.1, h.2⟩
theorem IdleInv.keepTmp2 {s : State} (h : IdleInv s) : IdleInv (keepTmp2 s) := ⟨h.1.setEng h.1.2.2.2.1, h.2⟩

theorem IdleInv.velocityTxns {s : State} (h : IdleInv s) (a : Axis) (d : Bool) (v : Word) :
    IdleInv (velocityTxns a d v s) := (h.txn a true _ _).ifOk fun _ h => h.txn a true _ _

/-- The transactions of every op keep it. -/
theorem IdleInv.opTxns {s : State} (h : IdleInv s) (i : Instr) (a : Axis) : IdleInv (opTxns i a s) := by
  cases i
  case xfer => exact h.txn ..
  case write => exact h.txn ..
  case wrnz => exact h.txn ..
  case read => exact h.readTwice ..
  case poll =>
    show IdleInv (pollTxns a s)
    rw [pollTxns_eq]
    refine (((h.readTwice a _).ifOk fun _ h => h.keepTmp0).ifOk fun _ h => ?_).ifOk fun _ h => ?_
    · exact (h.readTwice a _).ifOk fun _ h => h.keepTmp1
    · exact (h.readTwice a _).ifOk fun _ h => h.keepTmp2
  case pollsg =>
    show IdleInv (pollsgTxns a s)
    rw [pollsgTxns_eq, pollswTxns]
    refine ((h.readTwice a _).ifOk fun _ h => h.keepTmp1).ifOk fun _ h => ?_
    exact (h.readTwice a _).ifOk fun _ h => h.keepTmp2
  case pollsw => exact (h.readTwice a _).ifOk fun _ h => h.keepTmp1
  case vel => exact h.velocityTxns ..
  case swpol =>
    exact ((h.readTwice a _).ifOk fun _ h => h.keepTmp0).ifOk fun _ h => h.txn a true _ _
  all_goals exact h

theorem EngineInv.atRest {p : Params} {e : Engine} (h : EngineInv p e) : EngineInv p (atRest e) := by
  obtain ⟨e1, e2, e3, e4, e5, e6, e7, e8⟩ := h
  exact ⟨Nat.zero_le _, fun _ => rfl, e3, fun hs => by simp [Machine.atRest] at hs, e5, e6,
    fun hs => by simp [Machine.atRest] at hs, e8⟩

theorem IdleInv.respCycle {s : State} (h : IdleInv s) : MachineInv (respCycle s) := by
  rw [respCycle_eq]
  exact (h.1.passCycles 1).setEng (by rw [passCycles_cfg]; exact h.1.2.2.2.1.atRest)

theorem MachineInv.failTxn {s : State} (h : MachineInv s) : MachineInv (failTxn s) := h.respond ..

theorem AxisInv.withTelDev {x : AxisRegs} (h : AxisInv x) (v : Telemetry) : AxisInv (withTelDev x v) := by
  refine ⟨?_, h.2.1, h.2.2⟩
  show v &&& maskStored &&& ~~~maskStored = 0#25
  rw [BitVec.and_assoc]
  simp

/-- A write of one axis that keeps what its invariant speaks of, and a response. -/
theorem MachineInv.writeAndRespond {s : State} (h : MachineInv s) (a : Axis) {x : AxisRegs} (h1 : x.telDev &&& ~~~maskStored = 0#25)
    (h2 : x.joyCode = (s.ax a).joyCode) (h3 : x.pend = (s.ax a).pend) (c : Code) (data : Word) (status : BitVec 8)
    (prev : BitVec 9) : MachineInv (Machine.respond c data status prev (s.setAx a x)) :=
  (h.setAx a ⟨h1, by rw [h2]; exact (h.axis a).2.1, by rw [h3]; exact (h.axis a).2.2⟩).respond c data status prev

theorem MachineInv.commitPoll {s : State} (h : MachineInv s) (a : Axis) : MachineInv (commitPoll a s) := by
  unfold Machine.commitPoll respondWith
  apply h.writeAndRespond
  · exact ((h.axis a).withTelDev _).1
  · rfl
  · rfl

theorem MachineInv.commitPollsg {s : State} (h : MachineInv s) (a : Axis) : MachineInv (commitPollsg a s) := by
  unfold Machine.commitPollsg respondWith
  apply h.writeAndRespond
  · exact ((h.axis a).withTelDev _).1
  · rfl
  · rfl

theorem MachineInv.commitPollsw {s : State} (h : MachineInv s) (a : Axis) : MachineInv (commitPollsw a s) := by
  unfold Machine.commitPollsw respondWith
  apply h.writeAndRespond
  · exact ((h.axis a).withTelDev _).1
  · rfl
  · rfl

/-- What a host op commits keeps it. -/
theorem MachineInv.opCommit {s : State} (h : MachineInv s) (i : Instr) (a : Axis) : MachineInv (opCommit i a s) := by
  have hx := h.axis a
  cases i
  case poll => exact h.commitPoll a
  case pollsg => exact h.commitPollsg a
  case pollsw => exact h.commitPollsw a
  case pwr _ d => exact h.writeAndRespond a (x := { s.ax a with en := d }) hx.1 rfl rfl _ _ _ _
  case swap _ d e => exact h.writeAndRespond a (x := { s.ax a with swapDir := d, swapSw := e }) hx.1 rfl rfl _ _ _ _
  case flags _ data => exact h.writeAndRespond a (x := { s.ax a with oflags := data }) hx.1 rfl rfl _ _ _ _
  case joycfg _ d e => exact h.writeAndRespond a (x := joycfgRegs d e (s.ax a)) hx.1 rfl rfl _ _ _ _
  all_goals exact MachineInv.respond h _ _ _ _

/-- The end of a re-issue keeps it. -/
theorem MachineInv.commitReissue {s : State} (h : MachineInv s) (a : Axis) (n : Word) : MachineInv (commitReissue a n s) := by
  have hx := h.axis a
  have hc := h.2.2.2.1.2.2.2.2.2.2.2
  unfold Machine.commitReissue
  refine h.setAx a ?_
  split
  · exact ⟨(hx.withTelDev _).1, hc, hx.2.2⟩
  · exact ⟨hx.1, hc, hx.2.2⟩

end Sys2Proof.Machine
end

