-- ==== Sys2Proof/Laws/OpTime.lean ====
section
/-! SUPPORT. How long an op takes and what time alone does meanwhile, on any draws: whatever else an op writes, `opCycles` clock
cycles have passed (70_reset_and_hazards.md R395), so the filter's registers are those of `passCycles`. -/

namespace Sys2Proof.Machine

/-- `t` is `s` after `n` cycles, but for the engine, the draws and `pend[a]`. -/
def Timed (a : Axis) (n : Nat) (t s : State) : Prop :=
  ∃ p e b c, t = withPend a p (withBus e s.world.hostq b c s.world.dgSlot (passCycles n s))

theorem passCycles_timed (a : Axis) (n : Nat) (s : State) : Timed a n (passCycles n s) s := by
  refine ⟨(s.ax a).pend, s.eng, s.world.busq, s.world.drawCnt, ?_⟩
  have h := passCycles_withBus n s.eng s.world.hostq s.world.busq s.world.drawCnt s.world.dgSlot s
  have h2 := passCycles_withPend n a (s.ax a).pend s
  have e1 : withBus s.eng s.world.hostq s.world.busq s.world.drawCnt s.world.dgSlot s = s := rfl
  have e2 : withPend a (s.ax a).pend s = s := by cases a <;> rfl
  rw [e1] at h
  rw [e2] at h2
  rw [← h]; exact h2

theorem Timed.trans' {a : Axis} {m n : Nat} {s t u : State} (h : Timed a n u t) (k : Timed a m t s) : Timed a (m + n) u s := by
  obtain ⟨p, e, b, c, rfl⟩ := h
  obtain ⟨q, f, d, g, rfl⟩ := k
  refine ⟨p, e, b, c, ?_⟩
  rw [passCycles_withPend, passCycles_withBus, passCycles_add]
  cases a <;> simp [withPend, withBus, State.setAx, State.ax]

theorem Timed.setEng {a : Axis} {n : Nat} {s t : State} (h : Timed a n t s) (e : Engine) : Timed a n { t with eng := e } s := by
  obtain ⟨p, f, b, c, rfl⟩ := h
  exact ⟨p, e, b, c, by cases a <;> rfl⟩

theorem Timed.dropDraw {a : Axis} {n : Nat} {s t : State} (h : Timed a n t s) : Timed a n (dropDraw t) s := by
  obtain ⟨p, e, b, c, rfl⟩ := h
  cases b with
  | nil => exact ⟨p, e, [], c + 1, by cases a <;> rfl⟩
  | cons d rest => exact ⟨p, e, rest, c, by cases a <;> rfl⟩

theorem Timed.withPend {a : Axis} {n : Nat} {s t : State} (h : Timed a n t s) (q : Pend) : Timed a n (withPend a q t) s := by
  obtain ⟨p, e, b, c, rfl⟩ := h
  exact ⟨q, e, b, c, by cases a <;> rfl⟩

/-- No other axis sees the op but as time. -/
theorem Timed.ax_ne {a b : Axis} {n : Nat} {s t : State} (h : Timed a n t s) (hb : b ≠ a) : t.ax b = (passCycles n s).ax b := by
  obtain ⟨p, e, d, c, rfl⟩ := h
  rw [withPend_ax_ne _ _ _ _ hb]; cases b <;> rfl

/-- On its own axis the op has written `pend` alone. -/
theorem Timed.ax {a : Axis} {n : Nat} {s t : State} (h : Timed a n t s) (b : Axis) :
    t.ax b = { (passCycles n s).ax b with pend := (t.ax b).pend } := by
  by_cases hb : b = a
  · subst hb; obtain ⟨p, e, d, c, rfl⟩ := h; cases b <;> rfl
  · rw [h.ax_ne hb]

theorem txn_timed (a : Axis) (w : Bool) (addr : Addr) (data : Word) (s : State) :
    Timed a (txnCycles s.cfg (nextDraw s)) (txn a w addr data s) s := by
  by_cases h : (nextDraw s).wait < s.cfg.txnTimeout
  · rw [txn_granted_eq a w addr data s h, show txnCycles s.cfg (nextDraw s) = grantedCycles s.cfg (nextDraw s).wait by
      simp [txnCycles, granted, h]]
    exact ((passCycles_timed a _ s).dropDraw.setEng _).withPend _
  · rw [txn_timeout_eq a w addr data s (by omega), show txnCycles s.cfg (nextDraw s) = s.cfg.txnTimeout by
      simp [txnCycles, granted, h]]
    exact (passCycles_timed a _ s).dropDraw.setEng _

theorem opTxn_timed (i : Instr) (a : Axis) (k : Nat) (s : State) :
    Timed a (txnCycles s.cfg (nextDraw s)) (opTxn i a k s) s := by
  unfold opTxn; rw [keepOk_keep]; exact (txn_timed ..).setEng _

theorem opLoop_timed (i : Instr) (a : Axis) (r k : Nat) (s : State) : Timed a (txnsCycles r s) (opLoop i a r k s) s := by
  induction r generalizing k s with
  | zero => have h := passCycles_timed a 0 s; rwa [passCycles_zero] at h
  | succ r ih =>
    obtain ⟨h1, h2, h3, -, -, h6⟩ := opTxn_draws i a k s
    have ht := opTxn_timed i a k s
    rw [opLoop, txnsCycles, h6]
    split
    · refine Timed.trans' ?_ ht
      rw [← txnsCycles_congr r (s := dropDraw s) (t := opTxn i a k s) (by simpa using h1) h2 h3]
      exact ih ..
    · exact ht

/-- The transactions of an op, on any draws. -/
theorem opTxns_timed (i : Instr) (a : Axis) (s : State) (h : isCommand i = true) :
    Timed a (txnsCycles (txnCount i) s) (opTxns i a s) s := by rw [← opLoop_eq i a s h]; exact opLoop_timed ..

/-- The same with the IDLE cycle before them and the RESP cycle after them: the whole op. -/
theorem atResp_timed (i : Instr) (a : Axis) (s : State) (h : isCommand i = true) :
    Timed a (2 + txnsCycles (txnCount i) s) (respCycle (opTxns i a (passCycles 1 s))) s := by
  have h1 := passCycles_timed a 1 s
  have h2 := opTxns_timed i a (passCycles 1 s) h
  rw [txnsCycles_congr (txnCount i) (s := s) (t := passCycles 1 s) (by simp) (by simp) (by simp)] at h2
  have h3 : Timed a 1 (respCycle (opTxns i a (passCycles 1 s))) (opTxns i a (passCycles 1 s)) := by
    rw [respCycle_eq]; exact (passCycles_timed a 1 _).setEng _
  have h4 := h3.trans' (h2.trans' h1)
  rwa [show 1 + txnsCycles (txnCount i) s + 1 = 2 + txnsCycles (txnCount i) s by omega] at h4

theorem opCycles_ok {i : Instr} {axis : BitVec 2} {a : Axis} {s : State} (hi : axisOperand i = some axis)
    (ha : axisOf axis = some a) (hz : zeroWrnz i = false) : opCycles i s = 2 + txnsCycles (txnCount i) s := by
  have : axis ≠ 3#2 := by rw [(axisOf_some_iff axis a).1 ha]; cases a <;> decide
  unfold opCycles
  rw [if_neg (by simp [hi, hz, this])]

theorem opCycles_two {i : Instr} {s : State} (h : axisOperand i = some 3#2 ∨ zeroWrnz i = true ∨ txnCount i = 0) :
    opCycles i s = 2 := by
  unfold opCycles
  split
  · rfl
  · rename_i hn
    rcases h with h | h | h
    · exact absurd (.inl h) hn
    · exact absurd (.inr h) hn
    · rw [h]; rfl

end Sys2Proof.Machine
end

