-- ==== Sys2Proof/Laws/PerInstr.lean ====
section
/-! SUPPORT. The one family of statements made per instruction: an instruction's word has the fixed bits of its row of
spec/opcode_table.json. -/

namespace Sys2Proof.Laws.TableRow

open Sys2Proof

/-- The fixed bits of an instruction's row: `mask` and `match` of spec/opcode_table.json. -/
def fixedBits : Instr → Nat × Nat
  | .nop => (0xF00000000000, 0x000000000000)
  | .xfer _ _ _ _ => (0xF00000000000, 0x100000000000)
  | .write _ _ _ => (0xF00000000000, 0x200000000000)
  | .wrnz _ _ _ => (0xF00000000000, 0x300000000000)
  | .read _ _ => (0xF00000000000, 0x400000000000)
  | .poll _ => (0xF00000000000, 0x500000000000)
  | .pollsg _ => (0xF00000000000, 0x600000000000)
  | .pollsw _ => (0xF00000000000, 0x700000000000)
  | .vel _ _ _ => (0xF00000000000, 0x800000000000)
  | .pwr _ _ => (0xF00000000000, 0x900000000000)
  | .swap _ _ _ => (0xF00000000000, 0xA00000000000)
  | .swpol _ _ _ => (0xF00000000000, 0xB00000000000)
  | .flags _ _ => (0xF00000000000, 0xC00000000000)
  | .joycfg _ _ _ => (0xF00000000000, 0xD00000000000)
  | .reserved14 => (0xF00000000000, 0xE00000000000)
  | .reserved15 => (0xF00000000000, 0xF00000000000)
  | .dgWrite _ _ => (0x8000000000, 0x8000000000)
  | .dgRead _ _ => (0x8000000000, 0x0000000000)

/-- A word has the fixed bits of a row, in the row's format. -/
def Fits (p : Nat × Nat) : RawInstr → Prop
  | .cmd48 w => w &&& BitVec.ofNat 48 p.1 = BitVec.ofNat 48 p.2
  | .dg40 g => g &&& BitVec.ofNat 40 p.1 = BitVec.ofNat 40 p.2

/-- The word of an instruction has its row's fixed bits. -/
def Statement (i : Instr) : Prop := Fits (fixedBits i) (encode i)

/-- Only the top four bits of a command word are fixed, and they are its op. -/
theorem enc_op (op : BitVec 4) (axis : BitVec 2) (d e w : Bool) (addr : Addr) (data : Word) :
    enc op axis d e w addr data &&& 0xF00000000000#48 = op.setWidth 48 <<< 44 := by
  apply BitVec.eq_of_getLsbD_eq
  intro i hi
  simp only [enc, BitVec.getLsbD_and, BitVec.getLsbD_append, BitVec.getLsbD_shiftLeft, BitVec.getLsbD_setWidth]
  interval_cases i <;> simp

/-- The top bit of a datagram is its direction. -/
theorem datagram_dir (w : Bool) (addr : Addr) (data : Word) :
    datagram w addr data &&& 0x8000000000#40 = (BitVec.ofBool w).setWidth 40 <<< 39 := by
  apply BitVec.eq_of_getLsbD_eq
  intro i hi
  simp only [datagram, BitVec.getLsbD_and, BitVec.getLsbD_append, BitVec.getLsbD_shiftLeft, BitVec.getLsbD_setWidth]
  interval_cases i <;> simp

theorem nop : Statement .nop := enc_op ..
theorem xfer (axis : BitVec 2) (w : Bool) (addr : Addr) (data : Word) : Statement (.xfer axis w addr data) := enc_op ..
theorem write (axis : BitVec 2) (addr : Addr) (data : Word) : Statement (.write axis addr data) := enc_op ..
theorem wrnz (axis : BitVec 2) (addr : Addr) (data : Word) : Statement (.wrnz axis addr data) := enc_op ..
theorem read (axis : BitVec 2) (addr : Addr) : Statement (.read axis addr) := enc_op ..
theorem poll (axis : BitVec 2) : Statement (.poll axis) := enc_op ..
theorem pollsg (axis : BitVec 2) : Statement (.pollsg axis) := enc_op ..
theorem pollsw (axis : BitVec 2) : Statement (.pollsw axis) := enc_op ..
theorem vel (axis : BitVec 2) (d : Bool) (data : Word) : Statement (.vel axis d data) := enc_op ..
theorem pwr (axis : BitVec 2) (d : Bool) : Statement (.pwr axis d) := enc_op ..
theorem swap (axis : BitVec 2) (d e : Bool) : Statement (.swap axis d e) := enc_op ..
theorem swpol (axis : BitVec 2) (d e : Bool) : Statement (.swpol axis d e) := enc_op ..
theorem flags (axis : BitVec 2) (data : BitVec 3) : Statement (.flags axis data) := enc_op ..
theorem joycfg (axis : BitVec 2) (d e : Bool) : Statement (.joycfg axis d e) := enc_op ..
theorem reserved14 : Statement .reserved14 := enc_op ..
theorem reserved15 : Statement .reserved15 := enc_op ..
theorem dgWrite (addr : Addr) (data : Word) : Statement (.dgWrite addr data) := datagram_dir true addr data
theorem dgRead (addr : Addr) (data : Word) : Statement (.dgRead addr data) := datagram_dir false addr data

end Sys2Proof.Laws.TableRow
end

