-- ==== Sys2Proof/Laws/Reset.lean ====
section
/-! SUPPORT. What a reset leaves, said once: every register at its reset value, and of the world only the scripts moved on
(70_reset_and_hazards.md R370, R373). -/

namespace Sys2Proof.Machine

theorem resetEdge_eq (s : State) : resetEdge s = State.resetWith s.cfg { s.world with
    rstq := s.world.rstq.tail
    joyq := skipStrobe s.world.joyq } := rfl

/-- A cycle with `rst = 1`: the registers are reset, whether or not a transaction was in progress. -/
theorem resetCycle_reset (s : State) : ∃ w, resetCycle s = State.resetWith s.cfg w := by
  unfold resetCycle
  split
  · exact ⟨_, by rw [resetEdge_eq, dropDraw_cfg]⟩
  · exact ⟨_, resetEdge_eq s⟩

/-- The slot's datagram cut short: the same. -/
theorem abortDatagram_reset (s : State) : ∃ w, abortDatagram s = State.resetWith s.cfg w := by
  have hc : (dropDraw (passCycles (cyclesToReset s) (takeDatagram s))).cfg = s.cfg := by
    rw [dropDraw_cfg, passCycles_cfg]; rfl
  exact ⟨_, by rw [abortDatagram, resetEdge_eq, hc]⟩

/-- The scripts after a cycle with `rst = 1`. -/
theorem resetCycle_scripts (s : State) :
    (resetCycle s).world.hostq = s.world.hostq ∧ (resetCycle s).world.rstq = s.world.rstq.tail ∧
      (resetCycle s).world.joyq = skipStrobe s.world.joyq ∧ (resetCycle s).world.dgSlot = s.world.dgSlot := by
  unfold resetCycle
  split <;> simp [resetEdge, resetRegs, State.resetWith]

/-- The scripts after an aborted datagram: the slot is empty and the reset is taken. -/
theorem abortDatagram_scripts (s : State) :
    (abortDatagram s).world.hostq = s.world.hostq ∧ (abortDatagram s).world.rstq = s.world.rstq.tail ∧
      (abortDatagram s).world.dgSlot = none ∧ (abortDatagram s).world.busq = (dropDraw s).world.busq ∧
      (abortDatagram s).world.drawCnt = (dropDraw s).world.drawCnt := by
  unfold abortDatagram
  rw [← passCycles_dropDraw]
  have hr : (passCycles (cyclesToReset s) (dropDraw (takeDatagram s))).world.rstq =
      resetNearer (cyclesToReset s) s.world.rstq := by
    unfold passCycles; simp only [runFilter_rstq_eq]; simp [takeDatagram]
  refine ⟨?_, ?_, ?_, ?_, ?_⟩
  · simp [resetEdge, resetRegs, State.resetWith, takeDatagram]
  · simp only [resetEdge, resetRegs, State.resetWith, hr]; cases s.world.rstq <;> rfl
  · simp [resetEdge, resetRegs, State.resetWith, takeDatagram]
  · simp only [resetEdge, resetRegs, State.resetWith, passCycles_busq, takeDatagram, dropDraw]
    cases s.world.busq <;> rfl
  · simp only [resetEdge, resetRegs, State.resetWith, passCycles_drawCnt, takeDatagram, dropDraw]
    cases s.world.busq <;> rfl

end Sys2Proof.Machine
end

