-- ==== Sys2Proof/Tests/Slice0.lean ====
section
/-! SUPPORT. Tests. Expected results are the spec's own: the worked encodings of 30_encoding.md R121, the vectors of
95_test_vectors.md, and hand calculation from the rules named; and, for each obligation that has hypotheses, a
concrete state and operands that meet them. -/

namespace Sys2Proof.Tests

open Sys2Proof Sys2Proof.Machine

/-! ### Small states -/

/-- The reset state with scripted draws. -/
def demo (draws : List Draw) : State := State.resetWith Params.default { World.silent with busq := draws }

/-- A granted draw that answers status 0 and `data` (95_test_vectors.md §2). -/
def ok (data : Word) : Draw := Draw.judged 0 (0#8 ++ data)

/-- A draw that is never granted within the default timeout. -/
def lost : Draw := Draw.judged 1024 0#40

/-- A granted draw with the all-ones echo (40_transaction.md R159). -/
def odd : Draw := Draw.judged 0 0xFFFFFFFFFF#40

/-- Six clean draws. -/
def six : List Draw := [ok 1#32, ok 2#32, ok 3#32, ok 4#32, ok 5#32, ok 6#32]

/-- One axis of a state replaced. -/
def onAxis (a : Axis) (f : AxisRegs → AxisRegs) (s : State) : State := s.setAx a (f (s.ax a))

/-- A field of the state an outcome gives. -/
def after {α : Type} (f : State → α) (o : Host.Outcome State Fault Refusal) : Option α :=
  match o with
  | .next t => some (f t)
  | .fault _ => none
  | .refused _ => none

/-! ### WellFormed: an ill-formed term for each check -/

theorem test_wf_axis_three :
    [Instr.xfer 3#2 true 0#7 0#32, .write 3#2 0#7 0#32, .wrnz 3#2 0#7 1#32, .read 3#2 0#7, .poll 3#2, .pollsg 3#2,
      .pollsw 3#2, .vel 3#2 false 0#32, .pwr 3#2 true, .swap 3#2 true false, .swpol 3#2 true false, .flags 3#2 0#3,
      .joycfg 3#2 true true].map Instr.wellFormed = List.replicate 13 false := by decide

theorem test_wf_reserved : [Instr.reserved14, .reserved15].map Instr.wellFormed = [false, false] := by decide

theorem test_wf_legal :
    [Instr.nop, .xfer 2#2 true 0#7 0#32, .wrnz 0#2 0#7 0#32, .pwr 1#2 true, .dgRead 0#7 0#32].map Instr.wellFormed =
      List.replicate 5 true := by decide

/-! ### Decoding: words written out from 30_encoding.md R110, R113, R121 and 95_test_vectors.md 3.1, 3.2 -/

theorem test_decode_nop :
    decodeCommand 0x000000000000#48 = .nop ∧ decodeCommand 0x0C0000000000#48 = .nop ∧
      decodeCommand 0x0FFFFFFFFFFF#48 = .nop := by decide
/-- op 0001, axis 01, d 0, e 0, w 1, addr 0100000, data 3 -/
theorem test_decode_xfer :
    decodeCommand 0b000101001010000000000000000000000000000000000011#48 = .xfer 1#2 true 0x20#7 3#32 ∧
      decodeCommand 0x102100000000#48 = .xfer 0#2 false 0x21#7 0#32 := by decide
/-- op 0010, axis 10, d 0, e 0, w 0, addr 0100111, data 50000 -/
theorem test_decode_write :
    decodeCommand 0b001010000010011100000000000000001100001101010000#48 = .write 2#2 0x27#7 50000#32 := by decide
theorem test_decode_wrnz : decodeCommand 0x30270000C350#48 = .wrnz 0#2 0x27#7 50000#32 := by decide
theorem test_decode_read : decodeCommand 0x402100000000#48 = .read 0#2 0x21#7 := by decide
/-- op 0101, axis 01, the rest ignored -/
theorem test_decode_poll :
    decodeCommand 0b010101000000000000000000000000000000000000000000#48 = .poll 1#2 ∧
      decodeCommand 0b010101111111111111111111111111111111111111111111#48 = .poll 1#2 := by decide
theorem test_decode_pollsg : decodeCommand 0x640000000000#48 = .pollsg 1#2 := by decide
theorem test_decode_pollsw : decodeCommand 0x780000000000#48 = .pollsw 2#2 := by decide
/-- op 1000, axis 10, d 1, e 0, w 0, addr 0, data −1000 -/
theorem test_decode_vel :
    decodeCommand 0b100010100000000011111111111111111111110000011000#48 = .vel 2#2 true (-1000#32) := by decide
theorem test_decode_pwr :
    decodeCommand 0x9A0000000000#48 = .pwr 2#2 true ∧ decodeCommand 0x980000000000#48 = .pwr 2#2 false := by decide
theorem test_decode_swap : decodeCommand 0xA20000000000#48 = .swap 0#2 true false := by decide
theorem test_decode_swpol : decodeCommand 0xB20000000000#48 = .swpol 0#2 true false := by decide
theorem test_decode_flags :
    decodeCommand 0xC40000000005#48 = .flags 1#2 5#3 ∧ decodeCommand 0xC400FFFFFFF8#48 = .flags 1#2 0#3 := by decide
theorem test_decode_joycfg :
    decodeCommand 0xDB0000000000#48 = .joycfg 2#2 true true ∧ decodeCommand 0xDA0000000000#48 = .joycfg 2#2 true false ∧
      decodeCommand 0xD80000000000#48 = .joycfg 2#2 false false := by decide
theorem test_decode_reserved :
    decodeCommand 0xE00000000000#48 = .reserved14 ∧ decodeCommand 0xF00000000000#48 = .reserved15 ∧
      decodeCommand 0xFC0000000000#48 = .reserved15 := by decide
/-- W 1, addr 0100111, data 50000; W 0, addr 0100111 -/
theorem test_decode_datagram :
    decodeDatagram 0b1010011100000000000000001100001101010000#40 = .dgWrite 0x27#7 50000#32 ∧
      decodeDatagram 0x2700000000#40 = .dgRead 0x27#7 0#32 ∧ decodeDatagram 0x2712345678#40 = .dgRead 0x27#7 0x12345678#32 := by
  decide
theorem test_decode_length : decodeTableWord 32 0 = none ∧ decodeSized 32 0 = .error (.badLength 32) := by
  constructor <;> rfl

theorem test_encode :
    encode (.write 2#2 0x27#7 50000#32) = .cmd48 0x28270000C350#48 ∧ encode (.flags 1#2 5#3) = .cmd48 0xC40000000005#48 ∧
      encode (.joycfg 2#2 true true) = .cmd48 0xDB0000000000#48 ∧
      encode (.dgWrite 0x2D#7 (-500#32)) = .dg40 0xADFFFFFE0C#40 := by decide

/-- 95_test_vectors.md 3.1: the bytes on the wire. -/
theorem test_datagram_bytes :
    datagramBytes 0xA70000C350#40 = [0xA7#8, 0x00#8, 0x00#8, 0xC3#8, 0x50#8] ∧
      datagramBytes 0xADFFFFFE0C#40 = [0xAD#8, 0xFF#8, 0xFF#8, 0xFE#8, 0x0C#8] := by decide

/-- 95_test_vectors.md 3.2: which failure wins. -/
theorem test_verdicts :
    commandVerdict 0xFC0000000000#48 = .illegalOp ∧ commandVerdict 0x3C2700000000#48 = .badAxis ∧
      commandVerdict 0x0C0000000000#48 = .op .nop := by decide

/-- The assembler's lines of 30_encoding.md R121 and 42_axis_control.md R252. -/
theorem test_assemble :
    assemble "write 2, VMAX, 50000".toList = some (.write 2#2 0x27#7 50000#32) ∧
      assemble "vel 2, rev, -1000".toList = some (.vel 2#2 true (-1000#32)) ∧
      assemble "flags 1, 1, 0, 1".toList = some (.flags 1#2 5#3) ∧ assemble "poll 3".toList = none := by decide

/-! ### Status bits and operand words -/

/-- 95_test_vectors.md SD-1 and SD-2. -/
theorem test_status_decode :
    decodeGstat Params.default 1#32 ||| decodeRampstat 0x301#32 ||| decodeDrvstatus Params.default 0x80000000#32 =
        0x0008005C#25 ∧
      decodeGstat Params.default 7#32 ||| decodeRampstat 0x3FFF#32 ||| decodeDrvstatus Params.default 0xFE0003FF#32 =
        0x3BFFFF#25 ∧ stallGuard Params.default 0xFE0003FF#32 = 0x3FF#10 := by decide

/-- SD-3 and SD-4: bits that decode to nothing. -/
theorem test_status_nothing :
    decodeRampstat 0xFFFFC000#32 = 0#25 ∧ decodeRampstat 0x1C00#32 = 0#25 ∧
      decodeDrvstatus Params.default 0x01FFFC00#32 = 0#25 ∧ stallGuard Params.default 0x01FFFC00#32 = 0#10 := by decide

/-- 95_test_vectors.md 3.9. -/
theorem test_swmode_words :
    swmodeWord Params.default false true false 3#32 = 0xB#32 ∧ swmodeWord Params.default true true false 3#32 = 7#32 ∧
      swmodeWord Params.default false false true 0xFFFFFFF3#32 = 0xFFFFFFF7#32 := by decide

/-- 95_test_vectors.md 3.11, the rows at the bounds. -/
theorem test_comparator :
    reissueNeeded 100#32 125#32 = false ∧ reissueNeeded 100#32 126#32 = true ∧ reissueNeeded 100#32 75#32 = false ∧
      reissueNeeded 100#32 74#32 = true ∧ reissueNeeded 0#32 0#32 = false ∧ reissueNeeded 1#32 0#32 = true ∧
      reissueNeeded 0x80000000#32 (-1610612736#32) = false ∧ reissueNeeded 0x80000000#32 (-1610612735#32) = true ∧
      reissueNeeded 0x80000000#32 0x7FFFFFFF#32 = true := by decide

theorem test_magnitude : magnitude 0x80000000#32 = 0x80000000#32 ∧ magnitude (-5#32) = 5#32 ∧ magnitude 5#32 = 5#32 := by
  decide

/-! ### One instruction at a time: 95_test_vectors.md 3.3–3.9 -/

theorem test_nop : after State.rsp (exec .nop (demo [])) = some ⟨0#3, 0#32, 0#8, 0#9, true⟩ := by decide

/-- The returned word belongs to the datagram `rsp_prev` names. -/
theorem test_xfer :
    after State.rsp (exec (.xfer 0#2 false 0x21#7 0#32)
      (onAxis .a0 (fun x => { x with pend := ⟨true, false, 0x27#7⟩ }) (demo [ok 50000#32]))) =
        some ⟨0#3, 50000#32, 0#8, 0x127#9, true⟩ := by decide

theorem test_xfer_odd_echo :
    after (fun t => (t.rsp, (t.ax .a1).pend)) (exec (.xfer 1#2 true 0x20#7 3#32)
      (onAxis .a1 (fun x => { x with pend := ⟨true, false, 0x21#7⟩ }) (demo [odd]))) =
        some (⟨2#3, 0xFFFFFFFF#32, 0xFF#8, 0x121#9, true⟩, ⟨true, true, 0x20#7⟩) := by decide

theorem test_write :
    after (fun t => (t.rsp, (t.ax .a2).pend, t.eng.txSr)) (exec (.write 2#2 0x27#7 50000#32) (demo [ok 0#32])) =
      some (⟨0#3, 0#32, 0#8, 0#9, true⟩, ⟨true, true, 0x27#7⟩, 0xA70000C350#40) := by decide

theorem test_wrnz_zero :
    after (fun t => (t.rsp, (t.ax .a1).pend)) (exec (.wrnz 1#2 0x27#7 0#32) (demo [ok 0#32])) =
      some (⟨3#3, 0#32, 0#8, 0#9, true⟩, ⟨false, false, 0#7⟩) := by decide

theorem test_wrnz_all_ones :
    after (fun t => t.eng.txSr) (exec (.wrnz 1#2 0x27#7 0xFFFFFFFF#32) (demo [ok 0#32])) = some 0xA7FFFFFFFF#40 := by
  decide

theorem test_read :
    after State.rsp (exec (.read 0#2 0x21#7) (demo [ok 7#32, ok 0xFFFFFC18#32])) =
      some ⟨0#3, 0xFFFFFC18#32, 0#8, 0x121#9, true⟩ := by decide

theorem test_read_second_lost :
    after (fun t => (t.rsp, (t.ax .a0).pend)) (exec (.read 0#2 0x27#7) (demo [ok 7#32, lost])) =
      some (⟨1#3, 0#32, 0#8, 0x127#9, true⟩, ⟨true, false, 0x27#7⟩) := by decide

/-- SD-1 with the live bits set first. -/
theorem test_poll :
    after (fun t => (t.rsp.data, (t.ax .a0).telDev)) (exec (.poll 0#2)
      (onAxis .a0 (fun x => { x with swapDir := true, oflags := 5#3 })
        (demo [ok 0#32, ok 1#32, ok 0#32, ok 0x301#32, ok 0#32, ok 0x80000000#32]))) =
      some (0x014C005C#32, 0x0008005C#25) := by decide

theorem test_poll_lost :
    after (fun t => (t.rsp.code, t.rsp.prev, (t.ax .a0).telDev)) (exec (.poll 0#2)
      (onAxis .a0 (fun x => { x with telDev := 3#25 })
        (demo [ok 0#32, ok 1#32, ok 0#32, ok 0x301#32, lost]))) = some (1#3, 0x135#9, 3#25) := by decide

/-- SD-5. -/
theorem test_pollsg :
    after (fun t => (t.rsp.data, (t.ax .a1).telDev, (t.ax .a1).sgRes))
      (exec (.pollsg 1#2) (demo [ok 0#32, ok 0x2040#32, ok 0#32, ok 0x1FF#32])) =
        some (0x1FF#32, 3#25, 0x1FF#10) := by decide

/-- SD-6 after SD-1. -/
theorem test_pollsw :
    after (fun t => (t.ax .a1).telDev) (exec (.pollsw 1#2)
      (onAxis .a1 (fun x => { x with telDev := 0x0008005C#25 }) (demo [ok 0#32, ok 0x12#32]))) =
        some 0x0008019C#25 := by decide

theorem test_vel_magnitude :
    after (fun t => (t.rsp, t.eng.txSr)) (exec (.vel 1#2 false (-2000#32)) (demo [ok 0#32, ok 1#32])) =
      some (⟨0#3, 1#32, 0#8, 0x1A0#9, true⟩, 0xA7000007D0#40) := by decide

/-- The first datagram, seen when the second transaction is lost. -/
theorem test_vel_swapped :
    after (fun t => (t.rsp.code, t.eng.txSr)) (exec (.vel 1#2 false 2000#32)
      (onAxis .a1 (fun x => { x with swapDir := true }) (demo [ok 0#32, lost]))) = some (1#3, 0xA000000002#40) := by decide

theorem test_pwr :
    after (fun t => (enPin t .a2, enPin t .a0)) (exec (.pwr 2#2 true) (demo [])) = some (false, true) := by decide

theorem test_swap :
    after (fun t => telemetry (t.ax .a0)) (exec (.swap 0#2 true false) (demo [])) = some 0x40000#25 := by decide

theorem test_swpol :
    after (fun t => (t.rsp.data, t.eng.txSr)) (exec (.swpol 0#2 true false)
      (onAxis .a0 (fun x => { x with swapSw := true }) (demo [ok 0#32, ok 3#32, ok 0#32]))) =
        some (7#32, 0xB400000007#40) := by decide

theorem test_flags :
    after (fun t => telemetry (t.ax .a1)) (exec (.flags 1#2 5#3) (demo [])) = some 0x01400000#25 := by decide

theorem test_joycfg :
    after (fun t => ((t.ax .a2).joyEn, (t.ax .a2).prev, (t.ax .a2).joyPend)) (exec (.joycfg 2#2 false false)
      (onAxis .a2 (fun x => { x with joyEn := true, prev := 70#32, joyPend := true }) (demo []))) =
        some (false, 70#32, false) := by decide

theorem test_reserved :
    after State.rsp (exec .reserved14 (demo [])) = some ⟨5#3, 0#32, 0#8, 0#9, true⟩ ∧
      after State.rsp (exec .reserved15 (demo [])) = some ⟨5#3, 0#32, 0#8, 0#9, true⟩ := by decide

theorem test_datagrams :
    after (fun t => ((t.ax .a0).pend, t.eng.txSr)) (exec (.dgWrite 0x27#7 50000#32) (demo [ok 0#32])) =
        some (⟨true, true, 0x27#7⟩, 0xA70000C350#40) ∧
      after (fun t => ((t.ax .a0).pend, t.eng.txSr)) (exec (.dgRead 0x27#7 0x12345678#32) (demo [ok 0#32])) =
        some (⟨true, false, 0x27#7⟩, 0x2712345678#40) := by decide

/-! ### The filter: 95_test_vectors.md 3.12 -/

/-- `CLK_HZ = 10`: `SAMPLE_CYCLES` is 4. -/
def slow : Params := { Params.default with clkHz := 10 }

theorem test_sample_cycles : sampleCycles slow = 4 ∧ sampleCycles Params.default = 6400000 := by decide

/-- Axis 2 enabled with the given latch, an open gate, and the given draws. -/
def driving (prev : Word) (draws : List Draw) : State :=
  onAxis .a2 (fun x => { x with joyEn := true, prev := prev }) { demo draws with gateCnt := 0 }

theorem test_accept :
    ((filterCycle (some ⟨1#32, 1#32, 70#32⟩) (driving 50#32 [])).ax .a2).joyPend = true ∧
      ((filterCycle (some ⟨1#32, 1#32, 60#32⟩) (driving 50#32 [])).ax .a2).joyPend = false ∧
      ((filterCycle (some ⟨1#32, 1#32, 70#32⟩) (driving 50#32 [])).ax .a0).joyPend = false := by decide

/-- A request of −10 against the latch 70 waits. -/
def waiting (draws : List Draw) : State :=
  onAxis .a2 (fun x => { x with joyNext := -10#32, joyPend := true, telDev := 4#25 }) (driving 70#32 draws)

theorem test_reissue :
    after (fun t => ((t.ax .a2).prev, (t.ax .a2).en, (t.ax .a2).telDev, (t.ax .a2).joyPend, t.eng.txSr))
      (step (waiting [ok 0#32, ok 0#32])) = some (-10#32, true, 0#25, false, 0xA70000000A#40) := by decide

theorem test_reissue_lost :
    after (fun t => ((t.ax .a2).prev, (t.ax .a2).en, (t.ax .a2).joyCode, t.eng.txSr))
      (step (waiting [ok 0#32, lost])) = some (70#32, false, 1#3, 0xA000000002#40) := by decide

/-! ### Placing an instruction -/

theorem test_placed_from_reset :
    step (State.reset.withFetchWord 48 0xE00000000000) =
      exec .reserved14 (acceptCommand 0xE00000000000#48 (State.reset.withFetchWord 48 0xE00000000000)) := by rfl

theorem test_placed_runs :
    after (fun t => (t.ax .a2).en) (step (State.reset.withFetchWord 48 0x9A0000000000)) = some true := by decide

/-- 70_reset_and_hazards.md R395's table: 331 cycles for a WRITE, 1976 for a POLL. -/
theorem test_lengths :
    stepSpan (withCommand 0x28270000C350#48 (demo six)) = 331 ∧ stepSpan (withCommand 0x540000000000#48 (demo six)) = 1976 := by
  decide

/-! ### Witnesses: each obligation's hypotheses are met -/

/-- A cycle with `rst = 1`. -/
def resetting : State := State.resetWith Params.default { World.silent with rstq := [0] }

theorem witness_ResetSignalWinsInAnyCycle : (pinsOf resetting).rst = true ∧ resetDue resetting = true := by decide

theorem witness_ReadyAtOnceAndGateClosedAfterReset :
    resetDue State.reset = false ∧ 6399998 < sampleCycles Params.default - 1 ∧ World.silent.joyq = [] ∧
      (commandOnPort (State.resetWith Params.default { World.silent with hostq := [⟨0, 0#48⟩] })).isSome = true := by decide

theorem witness_UnreadFieldsActAsZero : encode (.poll 1#2) = .cmd48 0x540000000000#48 := by decide

theorem witness_DecodingVerdictIsTheResponse :
    commandVerdict 0xE00000000000#48 = .illegalOp ∧ commandVerdict 0x1C0000000000#48 = .badAxis ∧
      commandVerdict 0x0C0000000000#48 = .op .nop ∧ commandVerdict 0x180000000000#48 = .op (.xfer 2#2 false 0#7 0#32) := by
  decide

theorem witness_AssemblerWritesOnlyWellFormed : assemble "nop".toList = some .nop := by decide

theorem witness_StepRunsTheCommandOnThePort :
    cmdReady (withCommand 0x540000000000#48 (demo six)) = true ∧
      (withCommand 0x540000000000#48 (demo six)).world.dgSlot = none ∧
      cutShort (withCommand 0x540000000000#48 (demo six)) = false ∧
      commandOnPort (withCommand 0x540000000000#48 (demo six)) = some 0x540000000000#48 := by decide

theorem witness_StepRunsTheDatagramInTheSlot :
    resetDue (withDatagram 0xA70000C350#40 (demo six)) = false ∧
      (withDatagram 0xA70000C350#40 (demo six)).eng.state = .idle ∧
      (withDatagram 0xA70000C350#40 (demo six)).world.dgSlot = some 0xA70000C350#40 ∧
      resetWithin (withDatagram 0xA70000C350#40 (demo six)) (txnCycles (demo six).cfg (nextDraw (demo six))) = false := by
  decide

/-- The same with a reset in the last cycle of the datagram's transaction, 328 cycles away (70_reset_and_hazards.md R395), and
with one in the cycle after it. -/
def slotReset (n : Nat) : State :=
  withDatagram 0xA70000C350#40 (State.resetWith Params.default { World.silent with busq := six, rstq := [n] })

theorem witness_StepRunsTheDatagramInTheSlot_reset :
    resetDue (slotReset 328) = false ∧ (slotReset 328).eng.state = .idle ∧
      (slotReset 328).world.dgSlot = some 0xA70000C350#40 ∧
      resetWithin (slotReset 328) (txnCycles (slotReset 328).cfg (nextDraw (slotReset 328))) = true ∧
      resetWithin (slotReset 329) (txnCycles (slotReset 329).cfg (nextDraw (slotReset 329))) = false := by decide

/-- R373: of an aborted datagram nothing is left, and its draw is used up. -/
theorem test_datagram_aborted :
    after (fun t => ((t.ax .a0).pend, t.eng.txSr, t.world.busq.length, t.world.rstq)) (step (slotReset 328)) =
        some (Pend.reset, 0#40, 5, []) ∧
      after (fun t => ((t.ax .a0).pend, t.world.rstq)) (step (slotReset 329)) = some (⟨true, true, 0x27#7⟩, [0]) := by decide

/-- 20_memory.md R94: a transaction aborted in SETUP has used its draw up. -/
theorem test_aborted_draw :
    (resetCycle { demo six with eng := { Engine.reset with state := .setup } }).world.busq = six.tail ∧
      (resetCycle (demo six)).world.busq = six := by decide

theorem witness_StepIsItsClockCycles : State.reset.cfg.legal = true ∧ State.reset.world.dgSlot = none := by decide

theorem witness_EveryStepKeepsTheInvariant :
    MachineInv State.reset ∧ ∃ t, step State.reset = .next t := ⟨by decide, _, rfl⟩

theorem witness_TheInvariantHoldsAtReset : Params.default.legal = true ∧ slow.legal = true := by decide

theorem witness_NoStepChangesAParameter : ∃ t, step State.reset = .next t := ⟨_, rfl⟩

theorem witness_AxisThreeIsBadAxis : axisOperand (.wrnz 3#2 0x27#7 0#32) = some 3#2 := by decide

theorem witness_ReservedOpsAnswerIllegalOp :
    opField 0xEFFFFFFFFFFF#48 = 14#4 ∧ opField 0xFC0000000000#48 = 15#4 := by decide

theorem witness_ZeroWrnzIsInvalidArgument : (2#2 : BitVec 2) ≠ 3#2 := by decide

theorem witness_FirstTransactionTimedOut :
    axisOperand (.swpol 1#2 true false) = some 1#2 ∧ axisOf 1#2 = some .a1 ∧ zeroWrnz (.swpol 1#2 true false) = false ∧
      txnCount (.swpol 1#2 true false) ≠ 0 ∧ (demo [lost]).world.busq = lost :: [] ∧
      (demo [lost]).cfg.txnTimeout ≤ lost.wait := by decide

theorem witness_FirstEchoUnexpected :
    axisOperand (.vel 1#2 true 5#32) = some 1#2 ∧ axisOf 1#2 = some .a1 ∧ zeroWrnz (.vel 1#2 true 5#32) = false ∧
      txnCount (.vel 1#2 true 5#32) ≠ 0 ∧ (demo [odd]).world.busq = odd :: [] ∧
      odd.wait < (demo [odd]).cfg.txnTimeout ∧ odd.unexpected = true := by decide

/-- A failing second transaction of READ, timed out, and a failing third of SWPOL, its last, with an unexpected echo. -/
theorem witness_LaterTransactionFails :
    axisOperand (.read 2#2 0x21#7) = some 2#2 ∧ axisOf 2#2 = some .a2 ∧ zeroWrnz (.read 2#2 0x21#7) = false ∧
      [ok 1#32] ≠ [] ∧ [ok 1#32].length < txnCount (.read 2#2 0x21#7) ∧ (∀ g ∈ [ok 1#32], CleanDraw Params.default g) ∧
      ¬ CleanDraw Params.default lost ∧ (demo [ok 1#32, lost]).world.busq = [ok 1#32] ++ lost :: [] ∧
      Params.default.txnTimeout ≤ lost.wait := by decide

theorem witness_LaterTransactionFails_echo :
    axisOperand (.swpol 1#2 true false) = some 1#2 ∧ axisOf 1#2 = some .a1 ∧ zeroWrnz (.swpol 1#2 true false) = false ∧
      [ok 0#32, ok 3#32].length < txnCount (.swpol 1#2 true false) ∧
      (∀ g ∈ [ok 0#32, ok 3#32], CleanDraw Params.default g) ∧ ¬ CleanDraw Params.default odd ∧
      (demo [ok 0#32, ok 3#32, odd]).world.busq = [ok 0#32, ok 3#32] ++ odd :: [] ∧
      odd.wait < Params.default.txnTimeout := by decide

/-- R252, R332: SWMODE was read as 3; the failing write carried 0xB, and the record it answers is the second read's. -/
theorem test_swpol_odd_echo :
    after (fun t => (t.rsp, (t.ax .a1).pend, t.eng.txSr)) (exec (.swpol 1#2 true false) (demo [ok 0#32, ok 3#32, odd])) =
      some (⟨2#3, 0xFFFFFFFF#32, 0xFF#8, 0x134#9, true⟩, ⟨true, true, 0x34#7⟩, 0xB40000000B#40) := by decide

theorem witness_FailedCommandsArePrecise :
    isCommand (.poll 0#2) = true ∧ ∃ t, exec (.poll 0#2) (demo [ok 1#32, lost]) = .next t ∧ t.rsp.code ≠ 0#3 ∧
      axisOperand (.poll 0#2) ≠ some (axisBits .a1) := ⟨by decide, _, rfl, by decide, by decide⟩

theorem witness_NopOnlyResponds : opField 0x0C0000000000#48 = 0#4 := by decide

/-- A draw at the last cycle before the timeout. -/
def late : Draw := Draw.judged 1023 5#40

theorem witness_clean_draws :
    CleanDraw (demo six).cfg (ok 1#32) ∧ CleanDraw (demo six).cfg (ok 2#32) ∧ CleanDraw (demo six).cfg (ok 3#32) ∧
      CleanDraw (demo six).cfg (ok 4#32) ∧ CleanDraw (demo six).cfg (ok 5#32) ∧ CleanDraw (demo six).cfg (ok 6#32) ∧
      CleanDraw (demo [late]).cfg late := by decide

theorem witness_XferSendsItsDatagram :
    axisOf 0#2 = some .a0 ∧ (demo [late]).world.busq = late :: [] ∧ CleanDraw (demo [late]).cfg late := by decide

theorem witness_WriteSendsOneWriteDatagram :
    axisOf 1#2 = some .a1 ∧ (demo [late]).world.busq = late :: [] ∧ CleanDraw (demo [late]).cfg late := by decide

theorem witness_WrnzSendsEveryNonzeroValue :
    axisOf 2#2 = some .a2 ∧ (0xFFFFFFFF#32 : Word) ≠ 0#32 ∧ (1#32 : Word) ≠ 0#32 ∧
      (demo [late]).world.busq = late :: [] ∧ CleanDraw (demo [late]).cfg late := by decide

theorem witness_ReadReturnsTheSecondEcho :
    axisOf 2#2 = some .a2 ∧ (demo [late, ok 2#32]).world.busq = late :: ok 2#32 :: [] ∧
      CleanDraw (demo [late, ok 2#32]).cfg late ∧ CleanDraw (demo [late, ok 2#32]).cfg (ok 2#32) ∧ 1 < 2 := by decide

theorem witness_PollRefreshesTheTelemetry :
    axisOf 0#2 = some .a0 ∧ (demo six).world.busq = ok 1#32 :: ok 2#32 :: ok 3#32 :: ok 4#32 :: ok 5#32 :: ok 6#32 :: [] ∧
      (∀ d ∈ six, CleanDraw (demo six).cfg d) ∧ 1 < 6 ∧ 3 < 6 ∧ 5 < 6 := by decide

theorem witness_PollsgRefreshesStallGuard :
    axisOf 1#2 = some .a1 ∧ (demo six).world.busq = ok 1#32 :: ok 2#32 :: ok 3#32 :: ok 4#32 :: [ok 5#32, ok 6#32] ∧
      (∀ d ∈ six, CleanDraw (demo six).cfg d) ∧ AxisInv ((demo six).ax .a1) ∧ 1 < 4 ∧ 3 < 4 := by decide

theorem witness_PollswRefreshesTheSwitches :
    axisOf 2#2 = some .a2 ∧ (demo six).world.busq = ok 1#32 :: ok 2#32 :: [ok 3#32, ok 4#32, ok 5#32, ok 6#32] ∧
      (∀ d ∈ six, CleanDraw (demo six).cfg d) ∧ AxisInv ((demo six).ax .a2) ∧ 1 < 2 := by decide

theorem witness_VelSetsModeThenMagnitude :
    axisOf 0#2 = some .a0 ∧ (demo six).world.busq = ok 1#32 :: ok 2#32 :: [ok 3#32, ok 4#32, ok 5#32, ok 6#32] ∧
      CleanDraw (demo six).cfg (ok 1#32) ∧ CleanDraw (demo six).cfg (ok 2#32) := by decide

theorem witness_PwrSetsThePowerEnable :
    axisOf 2#2 = some .a2 ∧ after resetDue (exec (.pwr 2#2 true) (demo [])) = some false := by decide

theorem witness_SwapRelabels : axisOf 0#2 = some .a0 := by decide

theorem witness_SwpolRewritesThePolarityBits :
    axisOf 1#2 = some .a1 ∧ (demo six).world.busq = ok 1#32 :: ok 2#32 :: ok 3#32 :: [ok 4#32, ok 5#32, ok 6#32] ∧
      CleanDraw (demo six).cfg (ok 1#32) ∧ CleanDraw (demo six).cfg (ok 2#32) ∧ CleanDraw (demo six).cfg (ok 3#32) ∧
      1 < 2 := by decide

theorem witness_FlagsLoadsTheHostFlags : axisOf 1#2 = some .a1 := by decide

theorem witness_JoycfgConfiguresTheFilter : axisOf 2#2 = some .a2 := by decide

theorem witness_DatagramIsOneTransaction :
    (demo [late]).world.busq = late :: [] ∧ CleanDraw (demo [late]).cfg late := by decide

theorem witness_TransactionResultAndPipeline :
    (nextDraw (demo [late])).wait < (demo [late]).cfg.txnTimeout ∧
      (demo [lost]).cfg.txnTimeout ≤ (nextDraw (demo [lost])).wait ∧ Axis.a1 ≠ .a0 := by decide

theorem witness_OkReadNamesItsRegister :
    ∃ t, exec (.read 0#2 0x21#7) (demo six) = .next t ∧ t.rsp.code = 0#3 := ⟨_, rfl, by decide⟩

theorem witness_StatusSlices : (9 : Nat) < 10 := by decide

theorem witness_SwitchLevelsFollowTheLabel : Params.default.fwdSwitchRight = true := by decide

theorem witness_SwmodeWordKeepsOtherBits : Params.default.fwdSwitchRight = true := by decide

theorem witness_OnlyTheNamedOpsWriteARegister :
    (∃ t, exec (.vel 0#2 true 5#32) (demo six) = .next t) ∧ (∀ axis d, Instr.vel 0#2 true 5#32 ≠ .pwr axis d) ∧
      isCommand (.dgRead 1#7 0#32) = false := ⟨⟨_, rfl⟩, by simp, by decide⟩

theorem witness_OtherAxesAreUntouched :
    isCommand (.poll 0#2) = true ∧ axisOperand (.poll 0#2) ≠ some (axisBits .a2) ∧
      ∃ t, exec (.poll 0#2) (demo six) = .next t := ⟨by decide, by decide, _, rfl⟩

theorem witness_AcceptsAreAPeriodApart :
    gateOpen (driving 0#32 []) = true ∧ 6399998 + 1 < sampleCycles (driving 0#32 []).cfg := by decide

theorem witness_StrobesOutsideTheGateAreIgnored : gateOpen State.reset = false := by decide

theorem witness_AcceptLatchesWhatMustBeReissued : gateOpen (driving 50#32 []) = true := by decide

theorem witness_UndrivenAxesAreNeverRequested :
    driven (driving 50#32 []) .a0 = false ∧ driven (onAxis .a0 (fun x => { x with joyEn := true }) (demo [])) .a0 = false := by
  decide

theorem witness_ReissueAppliesTheSample :
    (waiting six).eng.state = .idle ∧ cutShort (waiting six) = false ∧ (waiting six).world.dgSlot = none ∧
      lowestPending (waiting six) = some .a2 ∧
      (waiting six).world.busq = ok 1#32 :: ok 2#32 :: [ok 3#32, ok 4#32, ok 5#32, ok 6#32] ∧
      CleanDraw (waiting six).cfg (ok 1#32) ∧ CleanDraw (waiting six).cfg (ok 2#32) ∧ AxisInv ((waiting six).ax .a2) := by
  decide

/-- Each code: the first draw lost, the second with an unexpected echo, both clean. -/
theorem witness_FailedReissueLeavesTheLatch :
    (waiting [lost]).eng.state = .idle ∧ cutShort (waiting [lost]) = false ∧ (waiting [lost]).world.dgSlot = none ∧
      lowestPending (waiting [lost]) = some .a2 ∧ drawCode Params.default lost = 1#3 ∧
      drawCode Params.default odd = 2#3 ∧ drawCode Params.default (ok 1#32) = 0#3 ∧
      nextDraw (dropDraw (waiting [ok 1#32, odd])) = odd := by decide

theorem test_reissue_odd :
    after (fun t => ((t.ax .a2).prev, (t.ax .a2).en, (t.ax .a2).joyCode)) (step (waiting [ok 1#32, odd])) =
      some (70#32, false, 2#3) := by decide

theorem witness_ReissuesComeBeforeCommands :
    anyPending (waiting six) = true ∧ resetDue (waiting six) = false ∧ (waiting six).eng.state = .idle ∧
      (waiting six).world.dgSlot = none ∧ cutShort (waiting six) = false := by decide

/-- A WRITE to axis 1 in SHIFT. -/
def shifting : State :=
  { demo [] with eng := { Engine.reset with
      state := .shift
      cur := 0x242700000005#48 } }

theorem witness_BusPinLevels :
    csN shifting .a1 = false ∧ csN shifting .a0 = true ∧ State.reset.eng.state = .idle ∧ curCheck shifting = .ok .a1 ∧
      resetDue shifting = false ∧ shifting.cfg.legal = true ∧ shifting.eng.state = .shift ∧ shifting.eng.bitCnt = 0 ∧
      shifting.eng.divCnt = 0 ∧ shifting.eng.sckHigh = false ∧ 319 < 80 * shifting.cfg.sckDiv ∧
      resetWithin shifting 320 = false := by decide

/-- R152, R153 with SCK_DIV = 4: the levels in cycles 3, 4 and 8 of a SHIFT whose datagram begins 10. -/
theorem test_bit_periods :
    [3, 4, 8].map (fun n => (sck (cycles n { shifting with eng := { shifting.eng with txSr := 0xA700000005#40 } }),
      mosi (cycles n { shifting with eng := { shifting.eng with txSr := 0xA700000005#40 } }))) =
        [(false, true), (true, true), (false, false)] := by decide

theorem witness_OpLengthsAreTheTable :
    (withCommand 0x540000000000#48 (demo six)).cfg = Params.default ∧
      cmdReady (withCommand 0x540000000000#48 (demo six)) = true ∧
      cutShort (withCommand 0x540000000000#48 (demo six)) = false ∧
      commandOnPort (withCommand 0x540000000000#48 (demo six)) = some 0x540000000000#48 ∧
      6 ≤ (withCommand 0x540000000000#48 (demo six)).world.busq.length ∧
      (∀ d ∈ (withCommand 0x540000000000#48 (demo six)).world.busq, d.wait = 0 ∧ d.unexpected = false) ∧
      (waiting six).cfg = Params.default ∧ (waiting six).eng.state = .idle ∧ resetDue (waiting six) = false ∧
      (waiting six).world.dgSlot = none ∧ cutShort (waiting six) = false ∧ anyPending (waiting six) = true ∧
      2 ≤ (waiting six).world.busq.length ∧
      ∀ d ∈ (waiting six).world.busq, d.wait = 0 ∧ d.unexpected = false := by decide

theorem witness_VelocityRoundTrip :
    axisOf 0#2 = some .a0 ∧ (50000#32 : Word) ≠ 0#32 ∧
      1 ≤ (demo (refDevDraws RefDev.fresh
        [datagram true 0x27#7 50000#32, datagram false 0x27#7 0#32, datagram false 0x27#7 0#32])).cfg.txnTimeout := by decide

/-- 95_test_vectors.md §2: RefDev returns what was just written. -/
theorem test_refdev :
    (refDevDraws RefDev.fresh [0xA70000C350#40, 0x2700000000#40, 0x2700000000#40]).map (fun d => (d.reply, d.unexpected)) =
      [(0#40, false), (0x000000C350#40, false), (0x000000C350#40, false)] := by decide

end Sys2Proof.Tests
end

section
/-! SUPPORT. Proofs about 00_scope.md: a step is the clock cycles it lasts (R7), no step changes a parameter (R8), and the
magnitude of a signed word is its absolute value (R9). -/

namespace Sys2Proof.Machine

/-! ### A step and its clock cycles (R7) -/

/-- An op is cut short exactly if a reset comes within its span. -/
theorem cutShort_eq_resetWithin (s : State) : cutShort s = resetWithin s (opSpan s) := by
  unfold cutShort resetWithin
  cases s.world.rstq <;> rfl

/-- With no re-issue waiting, the engine in IDLE is free. -/
theorem engineFree_of_lowestPending_none {s : State} (hs : s.eng.state = .idle) (hp : lowestPending s = none) :
    engineFree s = true := by
  unfold lowestPending at hp
  split_ifs at hp with h0 h1 h2
  simp [engineFree, anyPending, hs, h0, h1, h2]

/-- A cycle with `rst = 1` is the reset of the transaction level. -/
theorem cycle_of_resetDue {s : State} (hr : resetDue s = true) : cycle s = resetCycle s := by
  unfold cycle; rw [if_pos hr]

/-- The next thing an idle engine does, if no reset cuts it short, by what is due: a re-issue, a command, or idle time. -/
theorem step_eq_cycles_opSpan {s : State} (hl : s.cfg.legal = true) (hd : s.world.dgSlot = none) (hr : resetDue s = false)
    (hs : s.eng.state = .idle) (hc : cutShort s = false) : step s = .next (cycles (opSpan s) s) := by
  have hw : resetWithin s (opSpan s) = false := by rw [← cutShort_eq_resetWithin, hc]
  unfold step
  simp only [hr, hs, hd, hc, Bool.false_eq_true, if_false, ne_eq, not_true_eq_false]
  unfold opSpan at hw ⊢
  cases hp : lowestPending s with
  | some a =>
    simp only [hp] at hw ⊢
    rw [reissue_cycles hl hs hp hw]
  | none =>
    have hf := engineFree_of_lowestPending_none hs hp
    cases hq : commandOnPort s with
    | some w =>
      simp only [hp, hq] at hw ⊢
      exact exec_cycles hl hf hq hw
    | none =>
      simp only [hp, hq] at hw ⊢
      rw [cycles_idle hf hw]

/-- Settles O13, by the branches of the step: a reset, an engine in mid-op and an op cut short last one cycle; otherwise the
step is a whole re-issue, command or span of idle time. -/
theorem stepIsItsClockCycles : Obligations.StepIsItsClockCycles := by
  intro s hl hd
  unfold stepSpan
  by_cases hr : resetDue s = true
  · rw [if_pos hr, step, if_pos hr, ← cycle_of_resetDue hr]; rfl
  rw [if_neg hr]
  by_cases hs : s.eng.state ≠ .idle
  · rw [if_pos hs, step, if_neg hr, if_pos hs]; rfl
  rw [if_neg hs]
  by_cases hc : cutShort s = true
  · rw [if_pos hc, step, if_neg hr, if_neg hs, hd]
    simp only [hc, if_true]; rfl
  rw [if_neg hc]
  exact step_eq_cycles_opSpan hl hd (by simpa using hr) (by simpa using hs) (by simpa using hc)

/-! ### The parameters (R8) -/

@[simp] theorem opCommit_cfg (i : Instr) (a : Axis) (s : State) : (opCommit i a s).cfg = s.cfg := by
  cases i
  case poll | pollsg | pollsw | pwr | swap | flags | joycfg => exact State.setAx_cfg ..
  all_goals rfl

@[simp] theorem commitReissue_cfg (a : Axis) (n : Word) (s : State) : (commitReissue a n s).cfg = s.cfg := State.setAx_cfg ..

@[simp] theorem respCommit_cfg (s : State) : (respCommit s).cfg = s.cfg := by
  unfold respCommit
  split
  · split
    · exact commitReissue_cfg ..
    · rfl
  · split
    · rfl
    · split
      · rfl
      · split
        · exact opCommit_cfg ..
        · rfl

@[simp] theorem commitRest_cfg (s : State) : (commitRest s).cfg = s.cfg := respCommit_cfg s

@[simp] theorem idleEngine_cfg (p : Pins) (old s : State) : (idleEngine p old s).cfg = s.cfg := by
  unfold idleEngine
  split
  · rfl
  · split
    · rfl
    · dsimp only
      split
      · rfl
      · split <;> rfl

@[simp] theorem txnEngine_cfg (p : Pins) (a : Axis) (s : State) : (txnEngine p a s).cfg = s.cfg := by
  by_cases hrel : s.eng.state = .hold ∧ s.cfg.csHold ≤ s.eng.dwell + 1
  · obtain ⟨hs, hd⟩ := hrel
    rw [txnEngine_release p hs hd, keepOk_keep]
    exact withPend_cfg ..
  · unfold txnEngine
    cases hs : s.eng.state <;> simp only [hs]
    case hold => rw [if_neg fun hd => hrel ⟨hs, hd⟩]
    all_goals repeat' split
    all_goals rfl

@[simp] theorem engineCycle_cfg (p : Pins) (old s : State) : (engineCycle p old s).cfg = s.cfg := by
  unfold engineCycle
  split
  · exact idleEngine_cfg ..
  · exact commitRest_cfg s
  · split
    · exact txnEngine_cfg ..
    · rfl

@[simp] theorem tick_cfg (p : Pins) (s : State) : (tick p s).cfg = s.cfg := by
  unfold tick
  split
  · rfl
  · rw [engineCycle_cfg, (filterCycle_frame p.joy s).cfg]

@[simp] theorem resetCycle_cfg (s : State) : (resetCycle s).cfg = s.cfg := by
  obtain ⟨w, h⟩ := resetCycle_reset s
  rw [h]; rfl

@[simp] theorem abortDatagram_cfg (s : State) : (abortDatagram s).cfg = s.cfg := by
  obtain ⟨w, h⟩ := abortDatagram_reset s
  rw [h]; rfl

@[simp] theorem cycle_cfg (s : State) : (cycle s).cfg = s.cfg := by
  unfold cycle
  split
  · exact resetCycle_cfg s
  · dsimp only
    split
    · rw [dropDraw_cfg, tick_cfg]
    · exact tick_cfg ..

@[simp] theorem atCommit_cfg (s : State) : (atCommit s).cfg = s.cfg := by
  unfold atCommit
  rw [passCycles_cfg]
  split
  · rw [(opTxns_frame _ _ _).cfg, startCycle, passCycles_cfg]
  · rw [startCycle, passCycles_cfg]

@[simp] theorem reissue_cfg (a : Axis) (s : State) : (reissue a s).cfg = s.cfg := by
  unfold reissue
  dsimp only
  rw [commitReissue_cfg, respCycle_eq]
  dsimp only
  rw [passCycles_cfg, (velocityTxns_frame _ _ _ _).cfg, startCycle, passCycles_cfg]
  rfl

@[simp] theorem idle_cfg (s : State) : (idle s).cfg = s.cfg := passCycles_cfg ..

/-- A host command runs on the parameters it was taken with. -/
theorem exec_command_cfg {w : Command} {s t : State} (h : exec (decode (.cmd48 w)) (acceptCommand w s) = .next t) :
    t.cfg = s.cfg := by
  have he := exec_cur (s := acceptCommand w s) rfl
  have ht : t = commitRest (atCommit (acceptCommand w s)) := Host.Outcome.next.inj (h.symm.trans he)
  rw [ht, commitRest_cfg, atCommit_cfg]; rfl

/-- So does a datagram: it is one transaction. -/
theorem exec_datagram_cfg {g : Datagram} {s t : State} (h : exec (decode (.dg40 g)) (takeDatagram s) = .next t) :
    t.cfg = s.cfg := by
  simp only [decode, decodeDatagram] at h
  split at h <;> cases h <;> exact (txn_frame ..).cfg

/-- Settles O16, by the branches of the step. -/
theorem noStepChangesAParameter : Obligations.NoStepChangesAParameter := by
  intro s t h
  unfold step at h
  split at h
  · cases h; exact resetCycle_cfg s
  split at h
  · cases h; exact cycle_cfg s
  split at h
  · split at h
    · cases h; exact abortDatagram_cfg s
    · exact exec_datagram_cfg h
  split at h
  · cases h; exact cycle_cfg s
  split at h
  · cases h; exact reissue_cfg ..
  split at h
  · exact exec_command_cfg h
  · cases h; exact idle_cfg s

/-! ### Magnitude and sign (R9) -/

theorem magnitude_eq_abs (x : Word) : magnitude x = x.abs := rfl

theorem isNegative_eq_decide (x : Word) : isNegative x = decide (x.toInt < 0) := BitVec.msb_eq_toInt

theorem magnitude_toNat (x : Word) : (magnitude x).toNat = x.toInt.natAbs := by
  rw [magnitude_eq_abs, BitVec.toNat_abs, BitVec.toInt_eq_msb_cond]
  have hx := x.isLt
  split <;> omega

/-- Settles O46: the magnitude is `BitVec.abs`, read without sign, and the sign is the top bit. -/
theorem magnitudeIsTheAbsoluteValue : Obligations.MagnitudeIsTheAbsoluteValue := fun x =>
  ⟨magnitude_toNat x, by rw [isNegative_eq_decide, decide_eq_true_iff]⟩

end Sys2Proof.Machine
end

section
/-! SUPPORT. Proofs about 10_state.md: a step runs what stands where the next instruction is taken (R53), the telemetry vector
(R44), which op writes which register (R30), and the invariant of the state under every step. -/

namespace Sys2Proof.Machine

/-! ### The instruction a step runs (R53) -/

/-- A ready block: no reset in this cycle, an idle engine, no re-issue waiting. -/
theorem cmdReady_iff (s : State) :
    cmdReady s = true ↔ resetDue s = false ∧ s.eng.state = .idle ∧ lowestPending s = none := by
  unfold cmdReady
  rw [Bool.and_eq_true, Bool.not_eq_true']
  constructor
  · rintro ⟨hf, hr⟩
    have ⟨hs, hp⟩ : s.eng.state = .idle ∧ anyPending s = false := by simpa [engineFree] using hf
    exact ⟨hr, hs, lowestPending_free hp⟩
  · rintro ⟨hr, hs, hp⟩
    exact ⟨engineFree_of_lowestPending_none hs hp, hr⟩

/-- A ready block takes the command on its port and runs it whole, if no reset cuts it short. -/
theorem step_command {s : State} {w : Command} (hr : cmdReady s = true) (hd : s.world.dgSlot = none)
    (hc : cutShort s = false) (hw : commandOnPort s = some w) :
    step s = exec (decode (.cmd48 w)) (acceptCommand w s) := by
  obtain ⟨hr, hs, hp⟩ := (cmdReady_iff s).1 hr
  simp [step, hr, hs, hd, hc, hp, hw]

/-- An idle engine runs the datagram in the slot whole, if no reset comes within its transaction. -/
theorem step_datagram {s : State} {g : Datagram} (hr : resetDue s = false) (hs : s.eng.state = .idle)
    (hg : s.world.dgSlot = some g) (hc : resetWithin s (txnCycles s.cfg (nextDraw s)) = false) :
    step s = exec (decode (.dg40 g)) (takeDatagram s) := by
  simp [step, hr, hs, hg, hc]

/-- Settles O9, by the branch of the step for a command on the port. -/
theorem stepRunsTheCommandOnThePort : Obligations.StepRunsTheCommandOnThePort := fun _ _ hr hd hc hw =>
  step_command hr hd hc hw

/-- Settles O11: the state with the placed word meets the premises of the branch that runs it. -/
theorem placedWordRunsNext : Obligations.PlacedWordRunsNext := fun _ _ =>
  ⟨step_command ((cmdReady_iff _).2 ⟨rfl, rfl, rfl⟩) rfl rfl rfl, step_datagram rfl rfl rfl rfl⟩

/-! ### The telemetry vector (R44) -/

/-- The vector by its four parts. -/
theorem telemetry_getLsbD (x : AxisRegs) (i : Nat) :
    (telemetry x).getLsbD i =
      if i < 18 then x.telDev.getLsbD i
      else if i = 18 then x.swapDir
      else if i < 22 then x.telDev.getLsbD i
      else x.oflags.getLsbD (i - 22) := by
  unfold telemetry
  simp only [BitVec.getLsbD_append, BitVec.getLsbD_extractLsb', BitVec.getLsbD_ofBool]
  by_cases h18 : i < 18
  · simp [h18]
  by_cases he : i = 18
  · simp [he]
  by_cases h22 : i < 22
  · have h1 : ¬ i - 18 < 1 := by omega
    have h3 : i - 18 - 1 < 3 := by omega
    have hi : 19 + (i - 18 - 1) = i := by omega
    simp [h18, he, h22, h1, h3, hi]
  · have h1 : ¬ i - 18 < 1 := by omega
    have h3 : ¬ i - 18 - 1 < 3 := by omega
    have hi : i - 18 - 1 - 3 = i - 22 := by omega
    simp [h18, he, h22, h1, h3, hi]

/-- Settles O43: below 22 the parts are the elements; from there on, the three flags, and then nothing. -/
theorem telemetryElements : Obligations.TelemetryElements := by
  intro x i
  rw [telemetry_getLsbD]
  unfold isForward isPositionMode isHomed
  by_cases h22 : i < 22
  · have hi : i ≠ 22 ∧ i ≠ 23 ∧ i ≠ 24 ∧ i < 25 := by omega
    by_cases he : i = 18 <;> simp [h22, hi, he]
  by_cases h25 : i < 25
  · obtain rfl | rfl | rfl : i = 22 ∨ i = 23 ∨ i = 24 := by omega
    all_goals rfl
  · have hi : ¬ i < 18 ∧ i ≠ 18 ∧ i ≠ 22 ∧ i ≠ 23 ∧ i ≠ 24 := by omega
    have hf : x.oflags.getLsbD (i - 22) = false := BitVec.getLsbD_of_ge _ _ (by omega)
    simp [h22, h25, hi, hf]

/-! ### Which op writes which register (R30) -/

/-- What an op leaves alone on an axis unless it is one named for the register: its registers `x` before and `y` after. -/
structure KeepsUnnamed (i : Instr) (y x : AxisRegs) : Prop where
  en : (∀ axis d, i ≠ .pwr axis d) → y.en = x.en
  labels : (∀ axis d e, i ≠ .swap axis d e) → y.swapDir = x.swapDir ∧ y.swapSw = x.swapSw
  oflags : (∀ axis data, i ≠ .flags axis data) → y.oflags = x.oflags
  telDev : (∀ axis, i ≠ .poll axis ∧ i ≠ .pollsg axis ∧ i ≠ .pollsw axis) → y.telDev = x.telDev
  sgRes : (∀ axis, i ≠ .poll axis ∧ i ≠ .pollsg axis) → y.sgRes = x.sgRes
  latch : (∀ axis d e, i ≠ .joycfg axis d e) → y.prev = x.prev ∧ y.joyEn = x.joyEn
  joyCode : y.joyCode = x.joyCode

theorem KeepsUnnamed.rfl' (i : Instr) (x : AxisRegs) : KeepsUnnamed i x x :=
  ⟨fun _ => rfl, fun _ => ⟨rfl, rfl⟩, fun _ => rfl, fun _ => rfl, fun _ => rfl, fun _ => ⟨rfl, rfl⟩, rfl⟩

theorem KeepsUnnamed.trans' {i : Instr} {z y x : AxisRegs} (h : KeepsUnnamed i z y) (k : KeepsUnnamed i y x) :
    KeepsUnnamed i z x where
  en hi := (h.en hi).trans (k.en hi)
  labels hi := ⟨(h.labels hi).1.trans (k.labels hi).1, (h.labels hi).2.trans (k.labels hi).2⟩
  oflags hi := (h.oflags hi).trans (k.oflags hi)
  telDev hi := (h.telDev hi).trans (k.telDev hi)
  sgRes hi := (h.sgRes hi).trans (k.sgRes hi)
  latch hi := ⟨(h.latch hi).1.trans (k.latch hi).1, (h.latch hi).2.trans (k.latch hi).2⟩
  joyCode := h.joyCode.trans k.joyCode

/-- The pipeline record and the filter's request are named for no op. -/
theorem KeepsUnnamed.of_sameButRequest (i : Instr) {y x : AxisRegs} (h : SameButRequest y { x with pend := y.pend }) :
    KeepsUnnamed i y x := by
  unfold SameButRequest at h
  rw [h]
  exact { KeepsUnnamed.rfl' i x with }

/-- A write of one axis and a response, seen from any axis. -/
theorem KeepsUnnamed.writeAndRespond {i : Instr} {a : Axis} {s : State} {x : AxisRegs} (h : KeepsUnnamed i x (s.ax a))
    (b : Axis) {c : Code} {data : Word} {status : BitVec 8} {prev : BitVec 9} :
    KeepsUnnamed i ((respond c data status prev (s.setAx a x)).ax b) (s.ax b) := by
  rw [respond_ax]
  by_cases hb : b = a
  · subst hb; rwa [State.ax_setAx_same]
  · rw [State.ax_setAx_ne _ _ hb]; exact .rfl' i _

/-- A commit writes, of the registers named for some op, its own op's. -/
theorem opCommit_keepsUnnamed (i : Instr) (a b : Axis) (s : State) :
    KeepsUnnamed i ((opCommit i a s).ax b) (s.ax b) := by
  have h := KeepsUnnamed.rfl' i (s.ax a)
  cases i
  case poll axis =>
    refine KeepsUnnamed.writeAndRespond ?_ b
    exact { h with
      telDev := fun hi => absurd rfl (hi axis).1
      sgRes := fun hi => absurd rfl (hi axis).1 }
  case pollsg axis =>
    refine KeepsUnnamed.writeAndRespond ?_ b
    exact { h with
      telDev := fun hi => absurd rfl (hi axis).2.1
      sgRes := fun hi => absurd rfl (hi axis).2 }
  case pollsw axis =>
    refine KeepsUnnamed.writeAndRespond ?_ b
    exact { h with telDev := fun hi => absurd rfl (hi axis).2.2 }
  case pwr axis d =>
    refine KeepsUnnamed.writeAndRespond ?_ b
    exact { h with en := fun hi => absurd rfl (hi axis d) }
  case swap axis d e =>
    refine KeepsUnnamed.writeAndRespond ?_ b
    exact { h with labels := fun hi => absurd rfl (hi axis d e) }
  case flags axis data =>
    refine KeepsUnnamed.writeAndRespond ?_ b
    exact { h with oflags := fun hi => absurd rfl (hi axis data) }
  case joycfg axis d e =>
    refine KeepsUnnamed.writeAndRespond ?_ b
    exact { h with latch := fun hi => absurd rfl (hi axis d e) }
  all_goals exact .rfl' _ _

/-- A raw datagram is one transaction. -/
theorem exec_datagram (i : Instr) (s : State) (hc : isCommand i = false) :
    ∃ w addr data, exec i s = .next (txn s.world.dgAxis w addr data s) := by
  cases i
  case dgWrite addr data => exact ⟨true, addr, data, rfl⟩
  case dgRead addr data => exact ⟨false, addr, data, rfl⟩
  all_goals cases hc

/-- What an instruction leaves: a command ends in one of its ways, a raw datagram is one transaction. -/
theorem exec_cases {i : Instr} {s t : State} (h : exec i s = .next t) :
    (isCommand i = true ∧ CommandEnd i s t) ∨
      (isCommand i = false ∧ ∃ w addr data, t = txn s.world.dgAxis w addr data s) := by
  cases hc : isCommand i with
  | true =>
    obtain ⟨u, hu, hend⟩ := exec_command i s hc
    cases h.symm.trans hu
    exact .inl ⟨rfl, hend⟩
  | false =>
    obtain ⟨w, addr, data, hu⟩ := exec_datagram i s hc
    cases h.symm.trans hu
    exact .inr ⟨rfl, w, addr, data, rfl⟩

/-- On every axis a command leaves alone what is not named for it, whichever way it ends. -/
theorem CommandEnd.keepsUnnamed {i : Instr} {s t : State} (h : CommandEnd i s t) (b : Axis) :
    KeepsUnnamed i (t.ax b) (s.ax b) := by
  have hTwo : KeepsUnnamed i ((passCycles 2 s).ax b) (s.ax b) :=
    .of_sameButRequest i (((passCycles_frame 2 s).toTxn b).axes b)
  cases h
  case failed axis a _ _ _ _ _ => rw [failTxn_ax]; exact .of_sameButRequest i (atResp_ax i a b s)
  case done axis a _ _ _ _ => exact (opCommit_keepsUnnamed i a b _).trans' (.of_sameButRequest i (atResp_ax i a b s))
  all_goals rw [ended_ax]; exact hTwo

theorem exec_keepsUnnamed {i : Instr} {s t : State} (h : exec i s = .next t) (b : Axis) :
    KeepsUnnamed i (t.ax b) (s.ax b) := by
  obtain ⟨_, hend⟩ | ⟨_, w, addr, data, rfl⟩ := exec_cases h
  · exact hend.keepsUnnamed b
  · exact .of_sameButRequest i ((txn_frame _ w addr data s).axes b)

/-- Settles O48: the registers by how a command ends, the response of a raw datagram by what a transaction leaves alone. -/
theorem onlyTheNamedOpsWriteARegister : Obligations.OnlyTheNamedOpsWriteARegister := by
  intro i s t a h
  obtain ⟨hen, hlabels, hoflags, htelDev, hsgRes, hlatch, hjoyCode⟩ := exec_keepsUnnamed h a
  refine ⟨hen, hlabels, hoflags, htelDev, hsgRes, hlatch, hjoyCode, fun hc => ?_⟩
  obtain ⟨hcmd, _⟩ | ⟨_, w, addr, data, rfl⟩ := exec_cases h
  · rw [hc] at hcmd; cases hcmd
  · have hf := txn_frame s.world.dgAxis w addr data s
    exact ⟨hf.rspCode, hf.rspData, hf.rspStatus, hf.rspPrev⟩

/-! ### The invariant: a reset and the ends of an op -/

theorem MachineInv.legal {s : State} (h : MachineInv s) : s.cfg.legal = true := h.1

theorem MachineInv.engine {s : State} (h : MachineInv s) : EngineInv s.cfg s.eng := by
  obtain ⟨_, _, _, he, _⟩ := h; exact he

/-- The reset values have it, whatever the world does next. -/
theorem MachineInv.resetWith {p : Params} (h : p.legal = true) (w : World) : MachineInv (State.resetWith p w) := by
  obtain ⟨_, hdiv, _, _, _, hto⟩ := legal_ranges h
  have hgate := sampleCycles_pos h
  have hlast : (codeBits .ok).toNat ≤ 2 := by decide
  have haxis : AxisInv AxisRegs.reset := by decide
  refine MachineInv.intro' h ?_ (by decide : (0#3 : BitVec 3).toNat ≤ 5) ?_ fun a => by cases a <;> exact haxis
  · show sampleCycles p - 1 < sampleCycles p
    omega
  · exact ⟨Nat.zero_le _, fun _ => rfl, Nat.zero_le _, fun _ => Nat.zero_lt_succ 39, hdiv, Nat.zero_le _, fun _ => hto,
      hlast⟩

theorem MachineInv.resetCycle {s : State} (h : MachineInv s) : MachineInv (resetCycle s) := by
  obtain ⟨w, hw⟩ := resetCycle_reset s
  rw [hw]; exact .resetWith h.legal w

theorem MachineInv.abortDatagram {s : State} (h : MachineInv s) : MachineInv (abortDatagram s) := by
  obtain ⟨w, hw⟩ := abortDatagram_reset s
  rw [hw]; exact .resetWith h.legal w

theorem MachineInv.ended {u : State} (h : MachineInv u) {code : BitVec 3} (hc : code.toNat ≤ 5) {e : Engine}
    (he : EngineInv u.cfg e) (data : Word) (status : BitVec 8) (prev : BitVec 9) (draws : List Draw) :
    MachineInv (ended code data status prev e draws u) := by
  obtain ⟨hl, hg, _, _, hax⟩ := h
  exact ⟨hl, hg, hc, he.atRest, hax⟩

/-- Whichever way a command ends, from an idle engine it keeps the invariant. -/
theorem CommandEnd.inv {i : Instr} {s t : State} (h : CommandEnd i s t) (hs : IdleInv s) : MachineInv t := by
  have hTwo : MachineInv (passCycles 2 s) := (hs.passCycles 2).1
  have heng : EngineInv (passCycles 2 s).cfg s.eng := by rw [passCycles_cfg]; exact hs.1.engine
  have hResp (a : Axis) : MachineInv (respCycle (opTxns i a (passCycles 1 s))) := ((hs.passCycles 1).opTxns i a).respCycle
  cases h
  case failed axis a _ _ _ _ _ => exact (hResp a).failTxn
  case done axis a _ _ _ _ => exact (hResp a).opCommit i a
  all_goals exact hTwo.ended (by decide) heng ..

/-- So does every instruction. -/
theorem IdleInv.exec {i : Instr} {s t : State} (hs : IdleInv s) (h : exec i s = .next t) : MachineInv t := by
  obtain ⟨_, hend⟩ | ⟨_, w, addr, data, rfl⟩ := exec_cases h
  · exact hend.inv hs
  · exact (hs.txn _ w addr data).1

theorem IdleInv.acceptCommand {s : State} (h : IdleInv s) (w : Command) : IdleInv (acceptCommand w s) :=
  ⟨(h.1.setEng (e := { s.eng with cur := w, curSrc := false }) h.1.engine).setWorld _, h.2⟩

theorem IdleInv.takeDatagram {s : State} (h : IdleInv s) : IdleInv (takeDatagram s) := ⟨h.1.setWorld _, h.2⟩

theorem IdleInv.loadReissue {s : State} (h : IdleInv s) (a : Axis) : IdleInv (loadReissue a s) :=
  ⟨h.1.setEng h.1.engine, h.2⟩

theorem IdleInv.reissue {s : State} (h : IdleInv s) (a : Axis) : MachineInv (reissue a s) :=
  ((((h.loadReissue a).passCycles 1).velocityTxns a _ _).respCycle).commitReissue a _

theorem IdleInv.idle {s : State} (h : IdleInv s) : MachineInv (idle s) := (h.passCycles _).1.setWorld _

/-! ### The invariant: one clock cycle -/

theorem MachineInv.respCommit {s : State} (h : MachineInv s) : MachineInv (respCommit s) := by
  unfold Machine.respCommit
  split
  · split
    · exact h.commitReissue ..
    · exact h
  · split
    · exact h.respond ..
    · split
      · exact h.respond ..
      · split
        · exact h.opCommit ..
        · exact h.failTxn

theorem MachineInv.commitRest {s : State} (h : MachineInv s) : MachineInv (commitRest s) :=
  h.respCommit.setEng h.respCommit.engine.atRest

/-- An engine that goes to RESP has left the states in which a counter has a narrower range. -/
theorem EngineInv.toResp {p : Params} {e : Engine} (h : EngineInv p e) : EngineInv p { e with state := .resp } := by
  obtain ⟨hseq, _, hbit, _, hdiv, hto, _, hlast⟩ := h
  exact ⟨hseq, nofun, hbit, nofun, hdiv, hto, nofun, hlast⟩

/-- An engine that enters REQ starts to count its wait. -/
theorem EngineInv.enterReq {p : Params} {e : Engine} (h : EngineInv p e) (hp : p.legal = true) :
    EngineInv p (enterReq e) := by
  obtain ⟨hseq, _, hbit, _, hdiv, _, _, hlast⟩ := h
  obtain ⟨_, _, _, _, _, htimeout⟩ := legal_ranges hp
  exact ⟨hseq, nofun, hbit, nofun, hdiv, Nat.zero_le _, fun _ => htimeout, hlast⟩

/-- The engine with its own state written out, the form in which the branches of `txnEngine` leave it. -/
theorem EngineInv.inState {p : Params} {e : Engine} {x : EngState} (h : EngineInv p e) (hs : e.state = x) :
    EngineInv p { e with state := x } := by subst hs; exact h

/-- What a command or a re-issue loads into the engine. -/
theorem EngineInv.load {p : Params} {e : Engine} (h : EngineInv p e) (w : Command) (src : Bool) :
    EngineInv p { e with cur := w, curSrc := src, seqI := 0 } := by
  obtain ⟨_, _, hrest⟩ := h
  exact ⟨Nat.zero_le _, fun _ => rfl, hrest⟩

theorem MachineInv.idleEngine {s : State} (h : MachineInv s) (p : Pins) (old : State) : MachineInv (idleEngine p old s) := by
  have hload (w src) := h.engine.load w src
  unfold Machine.idleEngine
  split
  · exact h.setEng ((hload _ true).enterReq h.legal)
  · split
    · exact h
    next w _ =>
      dsimp only
      split
      · exact h.setEng (hload w false).toResp
      · split
        · exact h.setEng (hload w false).toResp
        · exact h.setEng ((hload w false).enterReq h.legal)

/-- REQ: the grant, the timeout, or one more cycle of waiting (R156). -/
theorem MachineInv.txnEngine_req {s : State} (h : MachineInv s) (hs : s.eng.state = .req) (p : Pins) (a : Axis) :
    MachineInv (txnEngine p a s) := by
  obtain ⟨hseq, _, hbit, _, hdiv, hto, hwait, hlast⟩ := h.engine
  have hsck := (legal_ranges h.legal).2.1
  have hlt := hwait hs
  unfold Machine.txnEngine
  simp only [hs]
  split
  · exact h.setEng ⟨hseq, nofun, Nat.zero_le _, fun _ => Nat.zero_lt_succ 39, hsck, hto, nofun, hlast⟩
  · split
    · exact h.setEng ⟨hseq, nofun, hbit, nofun, hdiv, hlt, nofun, (by decide : (codeBits .busTimeout).toNat ≤ 2)⟩
    next hto' => exact h.setEng ⟨hseq, nofun, hbit, nofun, hdiv, hlt, fun _ => Nat.lt_of_not_le hto', hlast⟩

/-- SETUP: the chip-select setup time, then SHIFT with no bit counted yet (R151). -/
theorem MachineInv.txnEngine_setup {s : State} (h : MachineInv s) (hs : s.eng.state = .setup) (p : Pins) (a : Axis) :
    MachineInv (txnEngine p a s) := by
  obtain ⟨hseq, _, hbit, hbits, hdiv, hto, _, hlast⟩ := h.engine
  unfold Machine.txnEngine
  simp only [hs]
  split
  · exact h.setEng ⟨hseq, nofun, hbit, fun _ => hbits (.inl hs), hdiv, hto, nofun, hlast⟩
  · exact h.setEng ⟨hseq, nofun, hbit, fun _ => hbits (.inl hs), hdiv, hto, nofun, hlast⟩

/-- The second half of a bit period ends: the bit is counted, and the 40th ends SHIFT (R152–R154). -/
theorem EngineInv.nextBit {p : Params} {e : Engine} (h : EngineInv p e) (hp : p.legal = true) (hs : e.state = .shift) :
    EngineInv p { e with
      divCnt := 0
      sckHigh := false
      bitCnt := e.bitCnt + 1
      state := if 40 ≤ e.bitCnt + 1 then .hold else .shift } := by
  obtain ⟨hseq, _, _, hbits, _, hto, _, hlast⟩ := h
  have hbit : e.bitCnt < 40 := hbits (.inr hs)
  have hsck := (legal_ranges hp).2.1
  by_cases hdone : 40 ≤ e.bitCnt + 1
  · simp only [hdone, if_true]
    exact ⟨hseq, nofun, hbit, nofun, hsck, hto, nofun, hlast⟩
  · simp only [hdone, if_false]
    exact ⟨hseq, nofun, hbit, fun _ => Nat.lt_of_not_le hdone, hsck, hto, nofun, hlast⟩

/-- The first half of a bit period ends (R152). -/
theorem EngineInv.sckRises {p : Params} {e : Engine} (h : EngineInv p e) (hp : p.legal = true) :
    EngineInv p { e with divCnt := 0, sckHigh := true } := by
  obtain ⟨hseq, hidle, hbit, hbits, _, hrest⟩ := h
  exact ⟨hseq, hidle, hbit, hbits, (legal_ranges hp).2.1, hrest⟩

/-- One more cycle of half a bit period (R152). -/
theorem EngineInv.countDiv {p : Params} {e : Engine} (h : EngineInv p e) (hd : ¬ p.sckDiv ≤ e.divCnt + 1) :
    EngineInv p { e with divCnt := e.divCnt + 1 } := by
  obtain ⟨hseq, hidle, hbit, hbits, _, hrest⟩ := h
  exact ⟨hseq, hidle, hbit, hbits, Nat.lt_of_not_le hd, hrest⟩

/-- SHIFT: a reply bit is sampled when `sck` has risen; then the two halves of the bit period (R152–R154). -/
theorem MachineInv.txnEngine_shift {s : State} (h : MachineInv s) (hs : s.eng.state = .shift) (p : Pins) (a : Axis) :
    MachineInv (txnEngine p a s) := by
  have he := h.engine.inState hs
  unfold Machine.txnEngine
  simp only [hs]
  split
  · have hbit (r : Datagram) : EngineInv s.cfg { s.eng with rxSr := r, state := .shift } := he
    split
    · split
      · exact h.setEng ((hbit _).nextBit h.legal rfl)
      next hd => exact h.setEng ((hbit _).countDiv hd)
    · split
      · exact h.setEng (h.engine.nextBit h.legal hs)
      next hd => exact h.setEng (h.engine.countDiv hd)
  · split
    · exact h.setEng (he.sckRises h.legal)
    next hd => exact h.setEng (he.countDiv hd)

/-- Keeping a word writes no register the invariant speaks of. -/
theorem MachineInv.keepTmp {s : State} (h : MachineInv s) (i : Instr) (k : Nat) : MachineInv (keepTmp i k s) := by
  have h0 : MachineInv (keepTmp0 s) := h.setEng h.engine
  have h1 : MachineInv (keepTmp1 s) := h.setEng h.engine
  have h2 : MachineInv (keepTmp2 s) := h.setEng h.engine
  cases i
  case poll | pollsg | pollsw | swpol =>
    unfold Machine.keepTmp
    split_ifs <;> assumption
  all_goals exact h

theorem MachineInv.keepOk {s : State} (h : MachineInv s) (i : Instr) (k : Nat) : MachineInv (keepOk i k s) := by
  unfold Machine.keepOk
  split
  · exact h.keepTmp i k
  · exact h

/-- HOLD: the chip-select hold time, then the release, at which `pend[a]` is written (R151, R154). -/
theorem MachineInv.txnEngine_hold {s : State} (h : MachineInv s) (hs : s.eng.state = .hold) (p : Pins) (a : Axis) :
    MachineInv (txnEngine p a s) := by
  by_cases hd : s.cfg.csHold ≤ s.eng.dwell + 1
  · obtain ⟨hseq, _, hbit, _, hdiv, hto, _, _⟩ := h.engine
    have hcode : (codeBits (if p.echoUnexpected then .unexpectedEcho else .ok)).toNat ≤ 2 := by split <;> decide
    have hgap : EngineInv s.cfg { s.eng with
        state := .gap
        dwell := 0
        last := ⟨if p.echoUnexpected then .unexpectedEcho else .ok, s.eng.rxSr, (s.ax a).pend⟩ } :=
      ⟨hseq, nofun, hbit, nofun, hdiv, hto, nofun, hcode⟩
    rw [txnEngine_release p hs hd]
    exact ((h.setEng hgap).withPend a _ _).keepOk _ _
  · unfold Machine.txnEngine
    simp only [hs, hd, if_false]
    exact h.setEng (h.engine.inState hs)

theorem txnCount_le_six (i : Instr) : txnCount i ≤ 6 := by unfold txnCount; split <;> decide

/-- GAP: the chip-select idle time, then the op's next transaction or its RESP cycle (R151, R157). -/
theorem MachineInv.txnEngine_gap {s : State} (h : MachineInv s) (hs : s.eng.state = .gap) (p : Pins) (a : Axis) :
    MachineInv (txnEngine p a s) := by
  have hgap := h.engine.inState hs
  unfold Machine.txnEngine
  simp only [hs]
  split
  · split
    next hmore =>
      have hk : s.eng.seqI + 1 < txnCount (curInstr s) := by simpa using (Bool.and_eq_true_iff.1 hmore).2
      have hseq : s.eng.seqI + 1 ≤ 5 := by have := txnCount_le_six (curInstr s); omega
      obtain ⟨_, _, hrest⟩ := hgap
      have hnext : EngineInv s.cfg { s.eng with state := .gap, dwell := 0, seqI := s.eng.seqI + 1 } := ⟨hseq, nofun, hrest⟩
      exact h.setEng (hnext.enterReq h.legal)
    · exact h.setEng hgap.toResp
  · exact h.setEng hgap

/-- One cycle of the engine in a transaction, by its state. -/
theorem MachineInv.txnEngine {s : State} (h : MachineInv s) (p : Pins) (a : Axis) : MachineInv (txnEngine p a s) := by
  cases hs : s.eng.state with
  | req => exact h.txnEngine_req hs p a
  | setup => exact h.txnEngine_setup hs p a
  | shift => exact h.txnEngine_shift hs p a
  | hold => exact h.txnEngine_hold hs p a
  | gap => exact h.txnEngine_gap hs p a
  | idle => unfold Machine.txnEngine; simp only [hs]; exact h
  | resp => unfold Machine.txnEngine; simp only [hs]; exact h

theorem MachineInv.engineCycle {s : State} (h : MachineInv s) (p : Pins) (old : State) :
    MachineInv (engineCycle p old s) := by
  unfold Machine.engineCycle
  split
  · exact h.idleEngine p old
  · exact h.commitRest
  · split
    · exact h.txnEngine ..
    · exact h.setEng h.engine.toResp

theorem MachineInv.tick {s : State} (h : MachineInv s) (p : Pins) : MachineInv (tick p s) := by
  unfold Machine.tick
  split
  · exact .resetWith h.legal s.world
  · exact (h.filterCycle p.joy).engineCycle p s

theorem MachineInv.cycle {s : State} (h : MachineInv s) : MachineInv (cycle s) := by
  have htick := h.tick (pinsOf s)
  unfold Machine.cycle
  split
  · exact h.resetCycle
  · dsimp only
    split
    · exact htick.dropDraw.setWorld _
    · exact htick.setWorld _

/-- Settles O14, by the branches of the step: a reset, one clock cycle, or from an idle engine a datagram, a re-issue, a
command or a span of idle time. -/
theorem everyStepKeepsTheInvariant : Obligations.EveryStepKeepsTheInvariant := by
  intro s t h ht
  unfold step at ht
  split at ht
  · cases ht; exact h.resetCycle
  split at ht
  · cases ht; exact h.cycle
  next hs =>
  have hi : IdleInv s := ⟨h, not_not.1 hs⟩
  split at ht
  · split at ht
    · cases ht; exact h.abortDatagram
    · exact hi.takeDatagram.exec ht
  split at ht
  · cases ht; exact h.cycle
  split at ht
  · cases ht; exact hi.reissue _
  split at ht
  · exact (hi.acceptCommand _).exec ht
  · cases ht; exact hi.idle

end Sys2Proof.Machine
end

section
/-! SUPPORT. Proofs about 30_encoding.md: decoding and encoding undo each other up to the fields an op does not read (R110 to
R121), the verdict of decoding is the response of the execution (R117, R125), the assembler's lines (R120), and the raw
datagrams (R113). -/

namespace Sys2Proof.Machine

/-! ### Decoding and encoding (R110, R112, R121) -/

/-- A command word is its seven fields (R110). -/
theorem enc_fields (w : Command) :
    enc (opField w) (axisField w) (dField w) (eField w) (wField w) (addrField w) (dataField w) = w := by
  apply BitVec.eq_of_getLsbD_eq
  intro i hi
  simp only [enc, opField, axisField, dField, eField, wField, addrField, dataField, BitVec.getLsbD_append,
    BitVec.getLsbD_extractLsb', BitVec.getLsbD_ofBool]
  interval_cases i <;> simp

theorem opField_eq_ofNat (w : Command) : opField w = BitVec.ofNat 4 (opField w).toNat := by simp

/-- Every op's mask keeps the op. -/
theorem opField_readMask (op : BitVec 4) : opField (readMask op) = BitVec.allOnes 4 := by
  revert op; decide

/-- The mask of a word's own op works field by field and keeps the op. -/
theorem and_readMask (w : Command) :
    let m := readMask (opField w)
    w &&& m = enc (opField w) (axisField w &&& axisField m) (dField w && dField m) (eField w && eField m)
      (wField w && wField m) (addrField w &&& addrField m) (dataField w &&& dataField m) := by
  intro m
  have hop : opField w = opField w &&& opField m := by rw [opField_readMask, BitVec.and_allOnes]
  rw [hop, ← enc_fields (w &&& m)]
  simp only [opField, axisField, dField, eField, wField, addrField, dataField, BitVec.extractLsb'_and, BitVec.getLsbD_and]

/-- The three flags are the data under FLAGS's mask. -/
theorem flags_setWidth (x : Word) : (x.extractLsb' 0 3).setWidth 32 = x &&& 7#32 := by
  apply BitVec.eq_of_getLsbD_eq
  intro i hi
  interval_cases i <;> simp

/-- Decoding and encoding again clears the fields the op does not read (R112, R120). -/
theorem encode_decodeCommand (w : Command) : encode (decodeCommand w) = .cmd48 (w &&& readMask (opField w)) := by
  have hlt := (opField w).isLt
  have hop := opField_eq_ofNat w
  have haxis (x : BitVec 2) : x &&& 3#2 = x := BitVec.and_allOnes
  have haddr (x : Addr) : x &&& 127#7 = x := BitVec.and_allOnes
  have hdata (x : Word) : x &&& 4294967295#32 = x := BitVec.and_allOnes
  rw [and_readMask]
  unfold decodeCommand readMask
  interval_cases h : (opField w).toNat
  all_goals
    simp only [encode, flags_setWidth]
    simp [hop, haxis, haddr, hdata, axisField, dField, eField, wField, addrField, dataField]

/-- Settles O4, by the instruction: its word has the fields it was made of. -/
theorem decodeOfEncodeIsTheInstruction : Obligations.DecodeOfEncodeIsTheInstruction := by
  intro i
  cases i
  case dgWrite | dgRead =>
    simp [encode, decode, decodeDatagram, datagram_dir, datagram_addr, datagram_data]
  case flags axis data =>
    have hdata : (data.setWidth 32).extractLsb' 0 3 = data := by
      rw [BitVec.extractLsb'_setWidth_of_le (by omega), BitVec.extractLsb'_eq_self]
    simp [encode, decode, decodeCommand, enc_op, enc_axis, enc_data, hdata]
  all_goals
    simp [encode, decode, decodeCommand, enc_op, enc_axis, enc_d, enc_e, enc_w, enc_addr, enc_data]

/-- Settles O5: what decoding keeps of a word is all that encoding gives back, so decoding does not see the rest, and an
encoded word has nothing else. -/
theorem unreadFieldsActAsZero : Obligations.UnreadFieldsActAsZero := by
  refine ⟨fun w => ?_, fun i w hw => ?_⟩
  · have h := decodeOfEncodeIsTheInstruction (decodeCommand w)
    rw [encode_decodeCommand] at h
    exact h.symm
  · have h := decodeOfEncodeIsTheInstruction i
    rw [hw] at h
    have hi : decodeCommand w = i := h
    have hback := encode_decodeCommand w
    rw [hi, hw] at hback
    exact (RawInstr.cmd48.inj hback).symm

/-! ### Worked encodings (R121) -/

/-- Settles O7, by evaluation of the eight words. -/
theorem workedEncodingsDecode : Obligations.WorkedEncodingsDecode := by
  unfold Obligations.WorkedEncodingsDecode; decide

/-! ### Reserved ops and the verdict of decoding (R117, R125) -/

/-- A reserved op fails its check before anything else is looked at. -/
theorem hostOp_reserved {op : BitVec 4} (h : op = 14#4 ∨ op = 15#4) (axis : BitVec 2) (data : Word)
    (body : Axis → State → State) (s : State) :
    hostOp op axis data body s = ended 5#3 0#32 0#8 0#9 s.eng s.world.busq (passCycles 2 s) :=
  (hostOp_error body s (if_pos h)).trans (raise_two .illegalOp s)

/-- Settles O18: the op field alone decides the decoding, and the check of a reserved op fails. -/
theorem reservedOpsAnswerIllegalOp : Obligations.ReservedOpsAnswerIllegalOp := by
  refine ⟨fun w h => ?_, fun w h => ?_, fun s => ⟨?_, ?_⟩⟩
  · simp [decodeCommand, h]
  · simp [decodeCommand, h]
  · exact congrArg Host.Outcome.next (hostOp_reserved (.inl rfl) ..)
  · exact congrArg Host.Outcome.next (hostOp_reserved (.inr rfl) ..)

theorem decodeCommand_reserved_iff (w : Command) :
    (decodeCommand w = .reserved14 ∨ decodeCommand w = .reserved15) ↔ (opField w = 14#4 ∨ opField w = 15#4) := by
  have hop := opField_eq_ofNat w
  have hlt := (opField w).isLt
  unfold decodeCommand
  interval_cases h : (opField w).toNat <;> simp [hop]

/-- An op that is not reserved has the word's axis for its operand, unless it is NOP. -/
theorem axisOperand_decodeCommand {w : Command} (h : ¬ (opField w = 14#4 ∨ opField w = 15#4)) :
    axisOperand (decodeCommand w) = if opField w = 0#4 then none else some (axisField w) := by
  have hop := opField_eq_ofNat w
  have hlt := (opField w).isLt
  unfold decodeCommand
  interval_cases hn : (opField w).toNat
  all_goals simp [hop, axisOperand] at h ⊢

/-- The verdict by the instruction the word decodes to. -/
theorem commandVerdict_eq (w : Command) :
    commandVerdict w =
      if decodeCommand w = .reserved14 ∨ decodeCommand w = .reserved15 then .illegalOp
      else if axisOperand (decodeCommand w) = some 3#2 then .badAxis
      else .op (decodeCommand w) := by
  unfold commandVerdict
  simp only [decodeCommand_reserved_iff]
  by_cases hr : opField w = 14#4 ∨ opField w = 15#4
  · simp only [hr, if_true]
  · rw [if_neg hr, if_neg hr, axisOperand_decodeCommand hr]
    by_cases h0 : opField w = 0#4 <;> simp [h0]

@[simp] theorem opCommit_rspCode (i : Instr) (a : Axis) (s : State) : (opCommit i a s).rsp.code = 0#3 := by
  cases i <;> rfl

@[simp] theorem ended_rsp (code : BitVec 3) (data : Word) (status : BitVec 8) (prev : BitVec 9) (e : Engine)
    (draws : List Draw) (u : State) : (ended code data status prev e draws u).rsp = ⟨code, data, status, prev, true⟩ := rfl

theorem failTxn_respCycle_rspCode (s : State) : (failTxn (respCycle s)).rsp.code = codeBits s.eng.last.code := by
  rw [respCycle_eq]; rfl

theorem codeBits_of_txnCode {c : Code} (h : TxnCode c) : codeBits c ≠ 5#3 ∧ codeBits c ≠ 4#3 := by
  obtain rfl | rfl | rfl := h <;> decide

/-- A reserved op has only one end. -/
theorem CommandEnd.reserved {i : Instr} {s t : State} (h : CommandEnd i s t) (hi : i = .reserved14 ∨ i = .reserved15) :
    t = ended 5#3 0#32 0#8 0#9 s.eng s.world.busq (passCycles 2 s) := by
  have hax : axisOperand i = none := by obtain rfl | rfl := hi <;> rfl
  have hz : zeroWrnz i = false := by obtain rfl | rfl := hi <;> rfl
  cases h
  case nop h => subst h; simp at hi
  case badAxis h => rw [hax] at h; cases h
  case illegalOp => rfl
  case invalidArgument h _ => rw [hz] at h; cases h
  case failed h _ _ _ _ => rw [hax] at h; cases h
  case done h _ _ _ => rw [hax] at h; cases h

/-- So has an op with axis 3. -/
theorem CommandEnd.axisThree {i : Instr} {s t : State} (h : CommandEnd i s t) (hi : axisOperand i = some 3#2) :
    t = ended 4#3 0#32 0#8 0#9 s.eng s.world.busq (passCycles 2 s) := by
  have hlegal {axis : BitVec 2} {a : Axis} (hax : axisOperand i = some axis) : axisOf axis ≠ some a := by
    rw [hi] at hax; cases hax; simp [axisOf_three]
  cases h
  case nop h => subst h; cases hi
  case badAxis => rfl
  case illegalOp h => obtain rfl | rfl := h <;> cases hi
  case invalidArgument _ h => exact absurd hi h
  case failed hax ha _ _ _ => exact absurd ha (hlegal hax)
  case done hax ha _ _ => exact absurd ha (hlegal hax)

/-- Every other op runs: its response has neither of the codes of a word that is no op. -/
theorem CommandEnd.rspCode_ne {i : Instr} {s t : State} (h : CommandEnd i s t) (hc : isCommand i = true)
    (hr : ¬ (i = .reserved14 ∨ i = .reserved15)) (hax : axisOperand i ≠ some 3#2) :
    t.rsp.code ≠ 5#3 ∧ t.rsp.code ≠ 4#3 := by
  cases h
  case nop => rw [ended_rsp]; decide
  case badAxis h => exact absurd h hax
  case illegalOp h => exact absurd h hr
  case invalidArgument => rw [ended_rsp]; decide
  case failed a _ _ _ ht _ =>
    rw [failTxn_respCycle_rspCode]
    exact codeBits_of_txnCode (opTxns_txnCode i a _ hc ht)
  case done => rw [opCommit_rspCode]; decide

/-- Settles O6: each verdict is a fact about the decoded instruction, which fixes the way it ends. -/
theorem decodingVerdictIsTheResponse : Obligations.DecodingVerdictIsTheResponse := by
  intro w s
  obtain ⟨t, ht, hend⟩ := exec_command (decodeCommand w) s (isCommand_decode w)
  rw [commandVerdict_eq]
  by_cases hr : decodeCommand w = .reserved14 ∨ decodeCommand w = .reserved15
  · rw [if_pos hr]
    refine ⟨fun _ => ⟨t, ht, ?_, (decodeCommand_reserved_iff w).1 hr⟩, nofun, nofun⟩
    rw [hend.reserved hr, ended_rsp]
  rw [if_neg hr]
  by_cases hax : axisOperand (decodeCommand w) = some 3#2
  · rw [if_pos hax]
    refine ⟨nofun, fun _ => ⟨t, ht, ?_, ?_⟩, nofun⟩
    · rw [hend.axisThree hax, ended_rsp]
    · rw [axisOperand_decodeCommand fun h => hr ((decodeCommand_reserved_iff w).2 h)] at hax
      split at hax
      · cases hax
      · exact Option.some.inj hax
  · rw [if_neg hax]
    refine ⟨nofun, nofun, fun i hi => ?_⟩
    cases hi
    exact ⟨rfl, t, ht, hend.rspCode_ne (isCommand_decode w) hr hax⟩

/-! ### The assembler (R120) -/

theorem readAxis_named {t : List Char} {axis : BitVec 2} (h : readAxis t = some axis) : axisNamed axis = true := by
  unfold readAxis at h
  split at h
  case h_1 n _ =>
    split_ifs at h with hn
    cases h
    interval_cases n <;> rfl
  case h_2 => cases h

theorem assembleAxis_wellFormed {m a : List Char} {i : Instr} (h : assembleAxis m a = some i) : i.wellFormed = true := by
  obtain ⟨axis, hax, h⟩ := Option.bind_eq_some_iff.1 h
  have hn := readAxis_named hax
  split_ifs at h
  all_goals cases h; exact hn

theorem assembleTwo_wellFormed {m a b : List Char} {i : Instr} (h : assembleTwo m a b = some i) : i.wellFormed = true := by
  obtain ⟨axis, hax, h⟩ := Option.bind_eq_some_iff.1 h
  have hn := readAxis_named hax
  split_ifs at h
  all_goals
    obtain ⟨x, _, rfl⟩ := Option.map_eq_some_iff.1 h
    exact hn

theorem assembleThree_wellFormed {m a b c : List Char} {i : Instr} (h : assembleThree m a b c = some i) :
    i.wellFormed = true := by
  obtain ⟨axis, hax, h⟩ := Option.bind_eq_some_iff.1 h
  have hn := readAxis_named hax
  split_ifs at h
  all_goals
    obtain ⟨x, _, h⟩ := Option.bind_eq_some_iff.1 h
    obtain ⟨y, _, rfl⟩ := Option.map_eq_some_iff.1 h
    exact hn

theorem assembleFour_wellFormed {m a b c d : List Char} {i : Instr} (h : assembleFour m a b c d = some i) :
    i.wellFormed = true := by
  obtain ⟨axis, hax, h⟩ := Option.bind_eq_some_iff.1 h
  have hn := readAxis_named hax
  split_ifs at h
  all_goals
    obtain ⟨x, _, h⟩ := Option.bind_eq_some_iff.1 h
    obtain ⟨y, _, h⟩ := Option.bind_eq_some_iff.1 h
    obtain ⟨z, _, h⟩ := Option.bind_eq_some_iff.1 h
    cases h
    exact hn

/-- Settles O8, by the number of operands on the line: every line with any reads its axis first. -/
theorem assemblerWritesOnlyWellFormed : Obligations.AssemblerWritesOnlyWellFormed := by
  intro line i h
  unfold assemble at h
  dsimp only at h
  split at h
  · split_ifs at h
    cases h; rfl
  · split at h
    · exact assembleAxis_wellFormed h
    · exact assembleTwo_wellFormed h
    · exact assembleThree_wellFormed h
    · exact assembleFour_wellFormed h
    · cases h

/-! ### Raw datagrams (R113) -/

/-- On a clean draw a transaction writes the pipeline record and the datapath, and takes the draw. -/
theorem txn_clean_eq {s : State} {d : Draw} {rest : List Draw} (a : Axis) (w : Bool) (addr : Addr) (data : Word)
    (hq : s.world.busq = d :: rest) (hc : CleanDraw s.cfg d) :
    let u := passCycles (grantedSum s.cfg [d]) s
    txn a w addr data s =
      { u.setAx a { u.ax a with pend := ⟨true, w, addr⟩ } with
        eng := afterTxn w addr data d (s.ax a).pend s.eng
        world := { u.world with busq := rest } } := by
  have hsum : grantedSum s.cfg [d] = grantedCycles s.cfg d.wait := rfl
  rw [txn_scripted_clean a w addr data hq hc, hsum]
  generalize hu : passCycles (grantedCycles s.cfg d.wait) s = u
  rw [← passCycles_hostq (grantedCycles s.cfg d.wait) s, ← passCycles_drawCnt (grantedCycles s.cfg d.wait) s,
    ← passCycles_dgSlot (grantedCycles s.cfg d.wait) s, hu]
  cases a <;> rfl

/-- Settles O38: the meaning of a datagram is a transaction, and on a clean draw that is known whole. -/
theorem datagramIsOneTransaction : Obligations.DatagramIsOneTransaction := by
  refine ⟨fun s addr data => ⟨rfl, rfl⟩, fun s addr data d rest hq hc => ⟨?_, ?_⟩⟩
  · exact congrArg Host.Outcome.next (txn_clean_eq _ true addr data hq hc)
  · exact congrArg Host.Outcome.next (txn_clean_eq _ false addr data hq hc)

/-- A reset within the transaction of the datagram in the slot ends the step. -/
theorem step_abortDatagram {s : State} {g : Datagram} (hr : resetDue s = false) (hs : s.eng.state = .idle)
    (hg : s.world.dgSlot = some g) (hc : resetWithin s (txnCycles s.cfg (nextDraw s)) = true) :
    step s = .next (abortDatagram s) := by
  simp [step, hr, hs, hg, hc]

/-- Settles O10, by whether a reset comes within the datagram's transaction. -/
theorem stepRunsTheDatagramInTheSlot : Obligations.StepRunsTheDatagramInTheSlot := by
  intro s g hr hs hg
  refine ⟨step_datagram hr hs hg, fun hc => ⟨_, step_abortDatagram hr hs hg hc, ?_⟩⟩
  obtain ⟨hhostq, hrstq, hslot, hbusq, hcnt⟩ := abortDatagram_scripts s
  obtain ⟨w, hw⟩ := abortDatagram_reset s
  refine ⟨?_, ?_, ?_, ?_, ?_, hslot, hrstq, hhostq, hbusq, hcnt⟩
  all_goals rw [hw]; rfl

end Sys2Proof.Machine
end

section
/-! SUPPORT. Proofs about 40_transaction.md: one transaction (R158), the ops of its family from NOP to READ (R160 to R170), the
levels of the bus pins (R150 to R156), and the round trip of 95_test_vectors.md 1.1 on them. -/

namespace Sys2Proof.Machine

/-! ### Ops without a transaction (R160, R166) -/

/-- Settles O24: NOP's meaning is its two cycles and the response. -/
theorem nopOnlyResponds : Obligations.NopOnlyResponds :=
  ⟨fun w h => by simp [decodeCommand, h], fun _ => congrArg Host.Outcome.next (respond_two ..)⟩

theorem check_zeroWrnz {axis : BitVec 2} (h : axis ≠ 3#2) : check 3#4 axis 0#32 = .error .invalidArgument := by
  cases ha : axisOf axis with
  | none => exact absurd ((axisOf_none_iff axis).1 ha) h
  | some a => simp [check, ha]

/-- Settles O19: the check of a zero WRNZ fails, which ends the op. -/
theorem zeroWrnzIsInvalidArgument : Obligations.ZeroWrnzIsInvalidArgument := fun s _ _ h =>
  congrArg Host.Outcome.next ((hostOp_error _ s (check_zeroWrnz h)).trans (raise_two .invalidArgument s))

/-! ### One transaction (R158) -/

theorem txn_granted_regs (a : Axis) (w : Bool) (addr : Addr) (data : Word) (s : State)
    (h : (nextDraw s).wait < s.cfg.txnTimeout) :
    (txn a w addr data s).eng.last = ⟨echoCode (nextDraw s), (nextDraw s).reply, (s.ax a).pend⟩ ∧
      ((txn a w addr data s).ax a).pend = ⟨true, w, addr⟩ ∧
      (txn a w addr data s).eng.txSr = datagram w addr data ∧ (txn a w addr data s).eng.rxSr = (nextDraw s).reply := by
  rw [txn_granted_eq a w addr data s h]
  simp [afterTxn]

theorem txn_timeout_regs (a : Axis) (w : Bool) (addr : Addr) (data : Word) (s : State)
    (h : s.cfg.txnTimeout ≤ (nextDraw s).wait) :
    (txn a w addr data s).eng.last = ⟨.busTimeout, 0#40, (s.ax a).pend⟩ ∧
      ((txn a w addr data s).ax a).pend = (s.ax a).pend ∧
      (txn a w addr data s).eng.txSr = s.eng.txSr ∧ (txn a w addr data s).eng.rxSr = s.eng.rxSr := by
  rw [txn_timeout_eq a w addr data s h]
  refine ⟨rfl, ?_, rfl, rfl⟩
  rw [State.ax_eng, dropDraw_ax, passCycles_pend]

/-- Settles O39, by whether the bus is granted in time. -/
theorem transactionResultAndPipeline : Obligations.TransactionResultAndPipeline := fun s a w addr data =>
  ⟨txn_granted_regs a w addr data s, txn_timeout_regs a w addr data s, (txn_frame a w addr data s).pend⟩

/-- A transaction that answers OK was clocked: its triple is the reply in `rx_sr` and the old record, and the new record names
its register. -/
theorem txn_ok_regs {a : Axis} {w : Bool} {addr : Addr} {data : Word} {s : State}
    (h : (txn a w addr data s).eng.last.code = .ok) :
    (txn a w addr data s).eng.last = ⟨.ok, (txn a w addr data s).eng.rxSr, (s.ax a).pend⟩ ∧
      ((txn a w addr data s).ax a).pend = ⟨true, w, addr⟩ := by
  by_cases hw : (nextDraw s).wait < s.cfg.txnTimeout
  · obtain ⟨hlast, hpend, -, hrx⟩ := txn_granted_regs a w addr data s hw
    rw [hlast] at h ⊢
    exact ⟨by rw [hrx, ← h], hpend⟩
  · obtain ⟨hlast, -⟩ := txn_timeout_regs a w addr data s (Nat.le_of_not_lt hw)
    rw [hlast] at h
    cases h

/-! ### A clean op is its transactions and an echo (R162 to R170) -/

/-- The RESP cycle of an op that answers with its last echo. -/
theorem finish_echo_inOp (a : Axis) (p : Pend) {e : Engine} (draws : List Draw) (n : Nat) (s : State)
    (h : e.last.code = .ok) :
    finish respondEcho (inOp a p e draws n s) =
      ended 0#3 (rxData e.last.rx) (rxStatus e.last.rx) (pendBits e.last.prev) e draws
        ((passCycles (n + 1) s).setAx a { (passCycles (n + 1) s).ax a with pend := p }) := by
  rw [finish_ok (by rw [inOp_eng]; exact h), respCycle_inOp]
  unfold respondEcho respondWith lastData
  rw [inOp_eng]
  exact respond_inOp a p e draws (n + 1) s .ok ..

/-- An op of one transaction on a clean draw, when its check passes. -/
theorem hostOp_echo_txn {op : BitVec 4} {axis : BitVec 2} {a : Axis} (w : Bool) (addr : Addr) {data : Word} {d : Draw}
    {rest : List Draw} {s : State} (hc : check op axis data = .ok a) (hq : s.world.busq = d :: rest)
    (hd : CleanDraw s.cfg d) :
    let u := passCycles (2 + grantedSum s.cfg [d]) s
    hostOp op axis data (fun a s => finish respondEcho (txn a w addr data s)) s =
      ended 0#3 (rxData d.reply) (rxStatus d.reply) (pendBits (s.ax a).pend)
        (afterTxn w addr data d (s.ax a).pend s.eng) rest (u.setAx a { u.ax a with pend := ⟨true, w, addr⟩ }) := by
  have hn : 2 + grantedSum s.cfg [d] = 1 + grantedCycles s.cfg d.wait + 1 := by simp only [grantedSum]; omega
  rw [hostOp_ok _ s hc, txn_start_clean a rest s w addr data d hq hd, finish_echo_inOp a _ rest _ s rfl, hn]
  rfl

/-- An op of one two-transaction read on clean draws. -/
theorem finish_echo_readTwice (a : Axis) (addr : Addr) {d1 d2 : Draw} {rest : List Draw} {s : State}
    (hq : s.world.busq = d1 :: d2 :: rest) (h1 : CleanDraw s.cfg d1) (h2 : CleanDraw s.cfg d2) :
    let u := passCycles (2 + grantedSum s.cfg [d1, d2]) s
    finish respondEcho (readTwice a addr (passCycles 1 s)) =
      ended 0#3 (rxData d2.reply) (rxStatus d2.reply) (pendBits ⟨true, false, addr⟩)
        (afterTxn false addr 0#32 d2 ⟨true, false, addr⟩ s.eng) rest
        (u.setAx a { u.ax a with pend := ⟨true, false, addr⟩ }) := by
  have hn : 2 + grantedSum s.cfg [d1, d2] = 1 + grantedCycles s.cfg d1.wait + grantedCycles s.cfg d2.wait + 1 := by
    simp only [grantedSum]; omega
  rw [readTwice_start_clean a rest s addr d1 d2 hq h1 h2, finish_echo_inOp a _ rest _ s rfl, hn]
  rfl

/-- Settles O25: the check passes and the op is one transaction. -/
theorem xferSendsItsDatagram : Obligations.XferSendsItsDatagram := fun _ _ _ w addr _ _ _ ha hq hd =>
  congrArg Host.Outcome.next (hostOp_echo_txn w addr (check_ok (by decide) (by decide) ha (by simp)) hq hd)

/-- Settles O26: the check passes, whatever the data, and the op is one write transaction. -/
theorem writeSendsOneWriteDatagram : Obligations.WriteSendsOneWriteDatagram := fun _ _ _ addr _ _ _ ha hq hd =>
  congrArg Host.Outcome.next (hostOp_echo_txn true addr (check_ok (by decide) (by decide) ha (by simp)) hq hd)

/-- Settles O27: the check passes, since the data is not 0, and the op is one write transaction. -/
theorem wrnzSendsEveryNonzeroValue : Obligations.WrnzSendsEveryNonzeroValue := fun _ _ _ addr _ _ _ ha hz hq hd =>
  congrArg Host.Outcome.next (hostOp_echo_txn true addr (check_ok (by decide) (by decide) ha fun _ => hz) hq hd)

/-- READ on a legal axis, on any draws. -/
theorem exec_read {axis : BitVec 2} {a : Axis} (addr : Addr) (s : State) (ha : axisOf axis = some a) :
    exec (.read axis addr) s = .next (finish respondEcho (readTwice a addr (passCycles 1 s))) :=
  congrArg Host.Outcome.next (hostOp_ok _ s (check_ok (by decide) (by decide) ha (by simp)))

/-- Settles O28: the op is the two-transaction read, which on clean draws is known whole. -/
theorem readReturnsTheSecondEcho : Obligations.ReadReturnsTheSecondEcho := by
  refine ⟨fun s axis a addr d1 d2 rest ha hq h1 h2 => ?_, fun s axis a addr ha => ⟨exec_read addr s ha, fun _ _ => rfl⟩⟩
  rw [exec_read addr s ha, finish_echo_readTwice a addr hq h1 h2]

/-! ### An OK read (R170, R172) -/

/-- A two-transaction read that answers OK: both transactions did, so the second found the record of the first. -/
theorem readTwice_ok_regs {a : Axis} {addr : Addr} {s : State} (h : (readTwice a addr s).eng.last.code = .ok) :
    (readTwice a addr s).eng.last = ⟨.ok, (readTwice a addr s).eng.rxSr, ⟨true, false, addr⟩⟩ ∧
      ((readTwice a addr s).ax a).pend = ⟨true, false, addr⟩ := by
  cases hfirst : lastOk (txn a false addr 0#32 s) with
  | false =>
    rw [readTwice, ifOk_neg hfirst] at h
    simp [lastOk, h] at hfirst
  | true =>
    have hread : readTwice a addr s = txn a false addr 0#32 (txn a false addr 0#32 s) := ifOk_pos hfirst
    obtain ⟨-, hpend⟩ := txn_ok_regs (of_decide_eq_true hfirst)
    rw [hread] at h ⊢
    have hsecond := txn_ok_regs h
    rwa [hpend] at hsecond

theorem codeBits_eq_zero {c : Code} (h : codeBits c = 0#3) : c = .ok := by
  cases c with
  | ok => rfl
  | _ => exact absurd h (by decide)

/-- A READ that answers OK has ended by its commit. -/
theorem CommandEnd.read_ok {axis : BitVec 2} {addr : Addr} {s t : State} (h : CommandEnd (.read axis addr) s t)
    (hc : t.rsp.code = 0#3) :
    ∃ a, axisOf axis = some a ∧ (readTwice a addr (passCycles 1 s)).eng.last.code = .ok ∧
      t = respondEcho (respCycle (readTwice a addr (passCycles 1 s))) := by
  cases h
  case nop h => cases h
  case badAxis => cases hc
  case illegalOp => cases hc
  case invalidArgument => cases hc
  case failed hlast =>
    rw [failTxn_respCycle_rspCode] at hc
    exact absurd (codeBits_eq_zero hc) hlast
  case done a hax ha _ hok =>
    cases hax
    exact ⟨a, ha, hok (by simp [txnCount]), rfl⟩

@[simp] theorem respCycle_eng_eq_atRest (s : State) : (respCycle s).eng = atRest s.eng := by rw [respCycle_eq]

@[simp] theorem respCycle_pend (s : State) (a : Axis) : ((respCycle s).ax a).pend = (s.ax a).pend := by
  rw [respCycle_ax s a]

/-- Settles O40: an OK answer comes from an OK read, and the RESP cycle answers with that read's triple. -/
theorem okReadNamesItsRegister : Obligations.OkReadNamesItsRegister := by
  intro s t axis addr ht hc
  obtain ⟨t', ht', hend⟩ := exec_command (.read axis addr) s rfl
  obtain rfl : t' = t := Host.Outcome.next.inj (ht'.symm.trans ht)
  obtain ⟨a, ha, hok, rfl⟩ := hend.read_ok hc
  obtain ⟨hlast, hpend⟩ := readTwice_ok_regs hok
  refine ⟨a, ha, ?_⟩
  simp [respondEcho, respondWith, lastData, atRest, hlast, hpend]

/-! ### The round trip (95_test_vectors.md 1.1) -/

theorem rxData_append (status : BitVec 8) (v : Word) : rxData (status ++ v) = v :=
  BitVec.extractLsb'_append_eq_right

theorem rxStatus_append (status : BitVec 8) (v : Word) : rxStatus (status ++ v) = status :=
  BitVec.extractLsb'_append_eq_left

/-- A draw granted at once whose status byte is 0 is clean: the unexpected echo of the default predicate is all ones (R159). -/
theorem cleanDraw_judged {p : Params} (hp : 1 ≤ p.txnTimeout) {reply : Datagram} (h : rxStatus reply = 0#8) :
    CleanDraw p (Draw.judged 0 reply) := by
  refine ⟨hp, decide_eq_false fun hr => ?_⟩
  subst hr
  exact absurd h (by decide)

/-- RefDev answers 0 to the write, and to both reads after it the value written. -/
theorem refDevDraws_writeRead (addr : Addr) (v : Word) :
    refDevDraws RefDev.fresh [datagram true addr v, datagram false addr 0#32, datagram false addr 0#32] =
      [Draw.judged 0 0#40, Draw.judged 0 (0#8 ++ v), Draw.judged 0 (0#8 ++ v)] := by
  simp [refDevDraws, refDevNext, refDevReply, refDevValue, RefDev.fresh, datagram_dir, datagram_addr, datagram_data]

@[simp] theorem ended_cfg (code : BitVec 3) (data : Word) (status : BitVec 8) (prev : BitVec 9) (e : Engine)
    (draws : List Draw) (u : State) : (ended code data status prev e draws u).cfg = u.cfg := rfl

/-- Settles O60: RefDev's draws are clean, so WRNZ and READ are known whole, and the READ's second reply holds the value. -/
theorem velocityRoundTrip : Obligations.VelocityRoundTrip := by
  intro s axis a v rest ha hv hp hq
  rw [refDevDraws_writeRead] at hq
  have hread : CleanDraw s.cfg (Draw.judged 0 (0#8 ++ v)) := cleanDraw_judged hp (rxStatus_append 0#8 v)
  refine ⟨_, _, wrnzSendsEveryNonzeroValue s axis a 0x27#7 v _ _ ha hv hq (cleanDraw_judged hp (by decide)), rfl,
    readReturnsTheSecondEcho.1 _ axis a 0x27#7 _ _ rest ha rfl (by simpa using hread) (by simpa using hread), ?_, rfl⟩
  rw [ended_rsp]
  simp only [Draw.judged, rxData_append, rxStatus_append]

/-! ### The levels of the bus pins (R150 to R156) -/

theorem selected_eq_some_iff {s : State} {a : Axis} :
    selected s = some a ↔
      curCheck s = .ok a ∧ (s.eng.state = .setup ∨ s.eng.state = .shift ∨ s.eng.state = .hold) := by
  unfold selected
  cases curCheck s <;> cases s.eng.state <;> simp

theorem csN_eq_false_iff {s : State} {a : Axis} :
    csN s a = false ↔ resetDue s = false ∧ curCheck s = .ok a ∧
      (s.eng.state = .setup ∨ s.eng.state = .shift ∨ s.eng.state = .hold) := by
  rw [← selected_eq_some_iff]
  simp [csN]

/-- At most one chip select is low (R151). -/
theorem csN_unique {s : State} {a b : Axis} (ha : csN s a = false) (hb : csN s b = false) : a = b := by
  obtain ⟨-, ha, -⟩ := csN_eq_false_iff.1 ha
  obtain ⟨-, hb, -⟩ := csN_eq_false_iff.1 hb
  exact Except.ok.inj (ha.symm.trans hb)

/-- The levels while the bus idles (R150): only REQ requests it. -/
theorem pins_idle {s : State}
    (h : s.eng.state = .idle ∨ s.eng.state = .resp ∨ s.eng.state = .req ∨ s.eng.state = .gap) :
    (∀ a, csN s a = true) ∧ sck s = true ∧ mosi s = false ∧
      busReq s = (decide (s.eng.state = .req) && !resetDue s) := by
  refine ⟨fun a => ?_, ?_, ?_, ?_⟩
  · refine Bool.of_not_eq_false fun hcs => ?_
    obtain ⟨-, -, hs⟩ := csN_eq_false_iff.1 hcs
    obtain h | h | h | h := h <;> simp [h] at hs
  · obtain h | h | h | h := h <;> simp [sck, h]
  · obtain h | h | h | h := h <;> cases hr : resetDue s <;> simp [mosi, h, hr]
  · obtain h | h | h | h := h <;> cases hr : resetDue s <;> simp [busReq, h, hr]

/-- The chip selects and the request while a datagram is on the bus (R151, R156). -/
theorem pins_selected {s : State} {a : Axis} (hc : curCheck s = .ok a) (hr : resetDue s = false)
    (h : s.eng.state = .setup ∨ s.eng.state = .shift ∨ s.eng.state = .hold) :
    csN s a = false ∧ (∀ b, b ≠ a → csN s b = true) ∧ busReq s = true := by
  have ha : csN s a = false := csN_eq_false_iff.2 ⟨hr, hc, h⟩
  refine ⟨ha, fun b hb => Bool.of_not_eq_false fun hcs => hb (csN_unique hcs ha), ?_⟩
  obtain h | h | h := h <;> simp [busReq, h, hr]

/-- The clock and the data line in SHIFT (R152, R153). -/
theorem pins_shift {s : State} (hr : resetDue s = false) (h : s.eng.state = .shift) :
    sck s = s.eng.sckHigh ∧ mosi s = s.eng.txSr.getLsbD (39 - s.eng.bitCnt) := by
  simp [sck, mosi, h, hr]

/-- The engine `n` cycles into the SHIFT that `s` enters: of its counters, the bits done, the half of the period and the cycles
of that half add up to `n` (R152). -/
structure InShift (s : State) (n : Nat) (e : Engine) : Prop where
  state : e.state = .shift
  cur : e.cur = s.eng.cur
  txSr : e.txSr = s.eng.txSr
  divCnt : e.divCnt < s.cfg.sckDiv
  count : 2 * s.cfg.sckDiv * e.bitCnt + ((bif e.sckHigh then s.cfg.sckDiv else 0) + e.divCnt) = n

/-- The half of the bit period, from the count of cycles. -/
theorem InShift.sckHigh {s : State} {n : Nat} {e : Engine} (h : InShift s n e) :
    e.sckHigh = decide (s.cfg.sckDiv ≤ n % (2 * s.cfg.sckDiv)) := by
  obtain ⟨-, -, -, hdiv, hcount⟩ := h
  rw [← hcount, Nat.mul_add_mod]
  cases e.sckHigh with
  | false => rw [cond_false, Nat.mod_eq_of_lt (by omega)]; simp [hdiv]
  | true => rw [cond_true, Nat.mod_eq_of_lt (by omega)]; simp

/-- The bit, from the count of cycles. -/
theorem InShift.bitCnt {s : State} {n : Nat} {e : Engine} (h : InShift s n e) :
    e.bitCnt = n / (2 * s.cfg.sckDiv) := by
  obtain ⟨-, -, -, hdiv, hcount⟩ := h
  have hrest : (bif e.sckHigh then s.cfg.sckDiv else 0) + e.divCnt < 2 * s.cfg.sckDiv := by
    cases e.sckHigh <;> simp <;> omega
  rw [← hcount, Nat.mul_add_div (by omega), Nat.div_eq_of_lt hrest, Nat.add_zero]

/-- Within a half of the bit period the divider counts; only the first cycle of the high half writes `rx_sr`. -/
theorem txnEngine_shift_count {t : State} (hs : t.eng.state = .shift) (hd : t.eng.divCnt + 1 < t.cfg.sckDiv) (p : Pins)
    (a : Axis) : (txnEngine p a t).eng =
      setShift t.eng t.eng.bitCnt (t.eng.divCnt + 1) t.eng.sckHigh (txnEngine p a t).eng.rxSr := by
  have hd' : ¬ t.cfg.sckDiv ≤ t.eng.divCnt + 1 := by omega
  cases hk : t.eng.sckHigh with
  | false => simp [txnEngine, setShift, hs, hk, hd']
  | true =>
    by_cases h0 : t.eng.divCnt = 0
    · rw [h0, Nat.zero_add] at hd'
      simp [txnEngine, setShift, hs, hk, hd', h0]
    · simp [txnEngine, setShift, hs, hk, hd', h0]

/-- The low half ends with the rise of the clock. -/
theorem txnEngine_shift_rise {t : State} (hs : t.eng.state = .shift) (hk : t.eng.sckHigh = false)
    (hd : t.cfg.sckDiv ≤ t.eng.divCnt + 1) (p : Pins) (a : Axis) :
    (txnEngine p a t).eng = setShift t.eng t.eng.bitCnt 0 true t.eng.rxSr := by
  simp [txnEngine, setShift, hs, hk, hd]

/-- The high half ends with its bit, before the last one. -/
theorem txnEngine_shift_fall {t : State} (hs : t.eng.state = .shift) (hk : t.eng.sckHigh = true)
    (hd : t.cfg.sckDiv ≤ t.eng.divCnt + 1) (hb : t.eng.bitCnt < 39) (p : Pins) (a : Axis) :
    (txnEngine p a t).eng = setShift t.eng (t.eng.bitCnt + 1) 0 false (txnEngine p a t).eng.rxSr := by
  have hb' : ¬ 39 ≤ t.eng.bitCnt := by omega
  by_cases h0 : t.eng.divCnt = 0
  · rw [h0, Nat.zero_add] at hd
    simp [txnEngine, setShift, hs, hk, hd, hb', h0]
  · simp [txnEngine, setShift, hs, hk, hd, hb', h0]

/-- One cycle of the engine in SHIFT counts one on, as long as the 40 bits are not over: within a half, at the rise, at the
end of a bit. -/
theorem InShift.next {s t : State} {n : Nat} (h : InShift s n t.eng) (hcfg : t.cfg = s.cfg)
    (hn : n + 1 < 80 * s.cfg.sckDiv) (p : Pins) (a : Axis) : InShift s (n + 1) (txnEngine p a t).eng := by
  obtain ⟨hs, hcur, htx, hdiv, hcount⟩ := h
  by_cases hd : t.eng.divCnt + 1 < s.cfg.sckDiv
  · rw [txnEngine_shift_count hs (by rwa [hcfg]) p a]
    exact ⟨hs, hcur, htx, hd, by simp only [setShift]; omega⟩
  have hd' : t.cfg.sckDiv ≤ t.eng.divCnt + 1 := by rw [hcfg]; omega
  cases hk : t.eng.sckHigh with
  | false =>
    rw [hk, cond_false] at hcount
    rw [txnEngine_shift_rise hs hk hd' p a]
    exact ⟨hs, hcur, htx, by simp only [setShift]; omega, by simp only [setShift, cond_true]; omega⟩
  | true =>
    rw [hk, cond_true] at hcount
    have hbit : 2 * s.cfg.sckDiv * (t.eng.bitCnt + 1) = n + 1 := by rw [Nat.mul_succ]; omega
    have hb : t.eng.bitCnt + 1 < 40 := Nat.lt_of_mul_lt_mul_left (a := 2 * s.cfg.sckDiv) (by omega)
    rw [txnEngine_shift_fall hs hk hd' (by omega) p a]
    exact ⟨hs, hcur, htx, by simp only [setShift]; omega, by simpa [setShift] using hbit⟩

/-- SHIFT, `n` cycles of it. -/
theorem cycles_shift {s : State} {a : Axis} (hc : curCheck s = .ok a) (h0 : InShift s 0 s.eng) (n : Nat)
    (hn : n < 80 * s.cfg.sckDiv) (hr : resetWithin s n = false) :
    ∃ e, cycles n s = atCycle n e s ∧ InShift s n e := by
  induction n with
  | zero => exact ⟨s.eng, (atCycle_zero s.eng s).symm, h0⟩
  | succ n ih =>
    obtain ⟨e, he, h⟩ := ih (by omega) (resetWithin_le (Nat.le_succ n) hr)
    have hcur : curCheck (atCycle n e s) = .ok a := curCheck_at h.cur hc
    have hnext := InShift.next (t := atCycle n e s) h (atCycle_cfg n e s) hn (pinsOf (atCycle n e s)) a
    have hcycle := cycle_transfer (resetDue_of_within (resetWithin_atCycle hr)) hcur (.inr (.inr (.inl h.state)))
      (by simp [txnEnds, hcur, h.state])
    exact ⟨_, by rw [cycles_succ, he, hcycle, atCycle_atCycle], hnext⟩

/-- Settles O58: the levels by the engine's state, and in SHIFT by the counters after `n` cycles. -/
theorem busPinLevels : Obligations.BusPinLevels := by
  refine ⟨fun s => ⟨fun _ _ => csN_unique, fun a h => (csN_eq_false_iff.1 h).2, pins_idle, fun a hc hr =>
    ⟨pins_selected hc hr, fun h => ?_, fun h => ?_⟩⟩, fun s a n hl hc hs hb hd hh hn hr => ?_⟩
  · simp [sck, mosi, h, hr]
  · simp [sck, mosi, h, hr]
  · have h0 : InShift s 0 s.eng := ⟨hs, rfl, rfl, by omega, by simp [hb, hd, hh]⟩
    obtain ⟨e, he, h⟩ := cycles_shift hc h0 n hn (resetWithin_le (Nat.le_succ n) hr)
    have hdue : resetDue (atCycle n e s) = false := resetDue_of_within (resetWithin_atCycle hr)
    obtain ⟨hcs, -, hreq⟩ := pins_selected (curCheck_at h.cur hc) hdue (.inr (.inl h.state))
    obtain ⟨hsck, hmosi⟩ := pins_shift hdue h.state
    rw [he, hsck, hmosi]
    exact ⟨hcs, hreq, h.sckHigh, by rw [← h.bitCnt, ← h.txSr]; rfl⟩

end Sys2Proof.Machine
end

section
/-! SUPPORT. Proofs about 41_status_decode.md: the slices of GSTAT, RAMPSTAT and DRVSTATUS with their masks (R201 to R204), and
the status ops POLL, POLLSG and POLLSW (R205 to R212). -/

namespace Sys2Proof.Machine

/-! ### The slices and their masks, element by element (R201 to R203) -/

/-- A mask is known by its 25 elements, if nothing above them is asked for. -/
theorem mask_getLsbD {m : Telemetry} {p : Nat → Prop} [DecidablePred p] (hlt : ∀ i, p i → i < 25)
    (h : ∀ i : Fin 25, m.getLsbD i = decide (p i)) (i : Nat) : m.getLsbD i = decide (p i) := by
  by_cases hi : i < 25
  · exact h ⟨i, hi⟩
  · rw [BitVec.getLsbD_of_ge m i (by omega), decide_eq_false fun hp => hi (hlt i hp)]

theorem maskG_getLsbD (i : Nat) : maskG.getLsbD i = decide (i = 19 ∨ i = 20 ∨ i = 21) :=
  mask_getLsbD (p := fun i => i = 19 ∨ i = 20 ∨ i = 21) (by omega) (by decide) i

theorem maskR_getLsbD (i : Nat) : maskR.getLsbD i = decide (i = 0 ∨ i = 1 ∨ (3 ≤ i ∧ i ≤ 11)) :=
  mask_getLsbD (p := fun i => i = 0 ∨ i = 1 ∨ (3 ≤ i ∧ i ≤ 11)) (by omega) (by decide) i

theorem maskD_getLsbD (i : Nat) : maskD.getLsbD i = decide (i = 2 ∨ (12 ≤ i ∧ i ≤ 17)) :=
  mask_getLsbD (p := fun i => i = 2 ∨ (12 ≤ i ∧ i ≤ 17)) (by omega) (by decide) i

theorem maskSG_getLsbD (i : Nat) : maskSG.getLsbD i = decide (i = 0 ∨ i = 1) :=
  mask_getLsbD (p := fun i => i = 0 ∨ i = 1) (by omega) (by decide) i

theorem maskSW_getLsbD (i : Nat) : maskSW.getLsbD i = decide (6 ≤ i ∧ i ≤ 11) :=
  mask_getLsbD (p := fun i => 6 ≤ i ∧ i ≤ 11) (by omega) (by decide) i

theorem decodeGstat_getLsbD (p : Params) (g : Word) (i : Nat) :
    (decodeGstat p g).getLsbD i =
      if i = 19 then g.getLsbD p.gstatResetBit else if i = 20 then g.getLsbD p.gstatDrverrBit
      else if i = 21 then g.getLsbD p.gstatUvBit else false := by
  simp only [decodeGstat, BitVec.getLsbD_or, telBit_getLsbD]
  split_ifs <;> simp [*]

theorem decodeRampstat_getLsbD (r : Word) (i : Nat) :
    (decodeRampstat r).getLsbD i =
      if i = 0 then r.getLsbD 13 else if i = 1 then r.getLsbD 6 else if i = 3 then r.getLsbD 8
      else if i = 4 then r.getLsbD 9 else if i = 5 then r.getLsbD 7 else if i = 6 then r.getLsbD 0
      else if i = 7 then r.getLsbD 1 else if i = 8 then r.getLsbD 4 else if i = 9 then r.getLsbD 5
      else if i = 10 then r.getLsbD 2 else if i = 11 then r.getLsbD 3 else false := by
  simp only [decodeRampstat, BitVec.getLsbD_or, telBit_getLsbD]
  by_cases hi : i < 12
  · interval_cases i <;> simp
  · have h : ∀ j < 12, i ≠ j := by omega
    simp [h]

theorem decodeDrvstatus_getLsbD (p : Params) (v : Word) (i : Nat) :
    (decodeDrvstatus p v).getLsbD i =
      if i = 2 then v.getLsbD p.drvStstBit else if i = 12 then v.getLsbD p.drvOlaBit
      else if i = 13 then v.getLsbD p.drvOlbBit else if i = 14 then v.getLsbD p.drvS2gaBit
      else if i = 15 then v.getLsbD p.drvS2gbBit else if i = 16 then v.getLsbD p.drvOtpwBit
      else if i = 17 then v.getLsbD p.drvOtBit else false := by
  simp only [decodeDrvstatus, BitVec.getLsbD_or, telBit_getLsbD]
  by_cases hi : i < 18
  · interval_cases i <;> simp
  · have h : ∀ j < 18, i ≠ j := by omega
    simp [h]

theorem stallGuard_getLsbD (p : Params) (v : Word) {i : Nat} (h : i < 10) :
    (stallGuard p v).getLsbD i = v.getLsbD (p.drvSgLsb + i) := by
  simp [stallGuard, h]

/-- Settles O41: the elements of each slice and of each mask. -/
theorem statusSlices : Obligations.StatusSlices := fun p g r v i =>
  ⟨decodeGstat_getLsbD p g i, decodeRampstat_getLsbD r i, decodeDrvstatus_getLsbD p v i, stallGuard_getLsbD p v,
    maskG_getLsbD i, maskR_getLsbD i, maskD_getLsbD i, maskSG_getLsbD i, maskSW_getLsbD i⟩

/-! ### The masks among each other (R204) -/

/-- A vector inside a mask has nothing outside it. -/
theorem and_not_of_and_eq {x m : Telemetry} (h : x &&& m = x) : x &&& ~~~m = 0#25 := by
  rw [← h, BitVec.and_assoc]
  simp

theorem mergeBits_getLsbD (m old new : Telemetry) {i : Nat} (hi : i < 25) :
    (mergeBits m old new).getLsbD i = if m.getLsbD i then new.getLsbD i else old.getLsbD i := by
  simp only [mergeBits, BitVec.getLsbD_or, BitVec.getLsbD_and, BitVec.getLsbD_not, hi]
  cases m.getLsbD i <;> simp

/-- Outside the mask a merge is the old vector. -/
theorem mergeBits_and_not (m old new : Telemetry) : mergeBits m old new &&& ~~~m = old &&& ~~~m := by
  refine BitVec.eq_of_getLsbD_eq fun i hi => ?_
  rw [BitVec.getLsbD_and, BitVec.getLsbD_and, BitVec.getLsbD_not, mergeBits_getLsbD m old new hi]
  cases m.getLsbD i <;> simp

/-- Under the mask a merge is the new vector. -/
theorem mergeBits_and (m old new : Telemetry) : mergeBits m old new &&& m = new &&& m := by
  refine BitVec.eq_of_getLsbD_eq fun i hi => ?_
  rw [BitVec.getLsbD_and, BitVec.getLsbD_and, mergeBits_getLsbD m old new hi]
  cases m.getLsbD i <;> simp

/-- Settles O42: the masks by evaluation, the slices by what they keep under their masks, the merge bit by bit. -/
theorem masksPartitionTheStoredBits : Obligations.MasksPartitionTheStoredBits :=
  ⟨by decide, by decide, by decide, by decide, by decide, by decide, by decide,
    fun p g r v => ⟨and_not_of_and_eq (decodeGstat_and p g), and_not_of_and_eq (decodeRampstat_and r),
      and_not_of_and_eq (decodeDrvstatus_and p v), decode_stored p g r v⟩,
    fun m old new => ⟨mergeBits_and_not m old new, mergeBits_and m old new⟩⟩

/-! ### The status ops (R205 to R212) -/

/-- POLL on a legal axis, on any draws: the check passes, so the op is its reads and its RESP cycle. -/
theorem exec_poll {axis : BitVec 2} {a : Axis} (s : State) (ha : axisOf axis = some a) :
    exec (.poll axis) s = .next (finish (commitPoll a) (pollTxns a (passCycles 1 s))) :=
  congrArg Host.Outcome.next (hostOp_ok _ s (check_ok (by decide) (by decide) ha (by simp)))

/-- POLLSG likewise. -/
theorem exec_pollsg {axis : BitVec 2} {a : Axis} (s : State) (ha : axisOf axis = some a) :
    exec (.pollsg axis) s = .next (finish (commitPollsg a) (pollsgTxns a (passCycles 1 s))) :=
  congrArg Host.Outcome.next (hostOp_ok _ s (check_ok (by decide) (by decide) ha (by simp)))

/-- POLLSW likewise. -/
theorem exec_pollsw {axis : BitVec 2} {a : Axis} (s : State) (ha : axisOf axis = some a) :
    exec (.pollsw axis) s = .next (finish (commitPollsw a) (pollswTxns a (passCycles 1 s))) :=
  congrArg Host.Outcome.next (hostOp_ok _ s (check_ok (by decide) (by decide) ha (by simp)))

@[simp] theorem inOp_ax_same (a : Axis) (p : Pend) (e : Engine) (draws : List Draw) (n : Nat) (s : State) :
    (inOp a p e draws n s).ax a = { (passCycles n s).ax a with pend := p } := by simp [inOp]

theorem respond_setAx (c : Code) (data : Word) (status : BitVec 8) (prev : BitVec 9) (s : State) (a : Axis) (x : AxisRegs) :
    respond c data status prev (s.setAx a x) = (respond c data status prev s).setAx a x := by cases a <;> rfl

theorem ended_setAx (code : BitVec 3) (data : Word) (status : BitVec 8) (prev : BitVec 9) (e : Engine)
    (draws : List Draw) (u : State) (a : Axis) (x : AxisRegs) :
    (ended code data status prev e draws u).setAx a x = ended code data status prev e draws (u.setAx a x) := by
  cases a <;> rfl

/-- The commit of a status op: its axis and the response are written, nothing else. -/
theorem respondWith_setAx_inOp (a : Axis) (p : Pend) (e : Engine) (draws : List Draw) (n : Nat) (s : State)
    (data : Word) (x : AxisRegs) :
    respondWith data ((inOp a p (atRest e) draws n s).setAx a x) =
      ended 0#3 data (rxStatus e.last.rx) (pendBits e.last.prev) e draws ((passCycles n s).setAx a x) := by
  unfold respondWith
  rw [State.setAx_eng, inOp_eng, respond_setAx, respond_inOp, ended_setAx, State.setAx_setAx]
  rfl

/-- A word inside the stored bits is stored whole. -/
theorem withTelDev_of_stored (x : AxisRegs) {v : Telemetry} (h : v &&& maskStored = v) :
    withTelDev x v = { x with telDev := v } := by rw [withTelDev, h]

/-- POLL after clean reads: the stored telemetry is the union of the three slices. -/
theorem finish_commitPoll_inOp (a : Axis) (p : Pend) {e : Engine} (draws : List Draw) (n : Nat) (s : State)
    (h : e.last.code = .ok) :
    let u := passCycles (n + 1) s
    let x : AxisRegs := { u.ax a with
      pend := p
      telDev := decodeGstat s.cfg e.tmp0 ||| decodeRampstat e.tmp1 ||| decodeDrvstatus s.cfg e.tmp2
      sgRes := stallGuard s.cfg e.tmp2 }
    finish (commitPoll a) (inOp a p e draws n s) =
      ended 0#3 ((telemetry x).setWidth 32) (rxStatus e.last.rx) (pendBits e.last.prev) e draws (u.setAx a x) := by
  rw [finish_ok (by rw [inOp_eng]; exact h), respCycle_inOp]
  unfold commitPoll
  rw [respondWith_setAx_inOp, inOp_cfg, inOp_eng, inOp_ax_same, withTelDev_of_stored _ (decode_stored ..)]
  rfl

/-- POLLSG after clean reads: a merge under its mask, and the stall-guard value. -/
theorem finish_commitPollsg_inOp (a : Axis) (p : Pend) {e : Engine} (draws : List Draw) (n : Nat) {s : State}
    (h : e.last.code = .ok) (hs : AxisInv (s.ax a)) :
    let u := passCycles (n + 1) s
    let x : AxisRegs := { u.ax a with
      pend := p
      telDev := mergeBits maskSG (s.ax a).telDev (decodeRampstat e.tmp1)
      sgRes := stallGuard s.cfg e.tmp2 }
    finish (commitPollsg a) (inOp a p e draws n s) =
      ended 0#3 (x.sgRes.setWidth 32) (rxStatus e.last.rx) (pendBits e.last.prev) e draws (u.setAx a x) := by
  have hm := mergeBits_stored maskSG (s.ax a).telDev (decodeRampstat e.tmp1) (by decide) ((stored_iff _).1 hs.1)
  rw [finish_ok (by rw [inOp_eng]; exact h), respCycle_inOp]
  unfold commitPollsg
  rw [respondWith_setAx_inOp, inOp_cfg, inOp_eng, inOp_ax_same, passCycles_telDev]
  simp only [atRest]
  rw [withTelDev_of_stored _ hm]

/-- POLLSW after clean reads: a merge under its mask. -/
theorem finish_commitPollsw_inOp (a : Axis) (p : Pend) {e : Engine} (draws : List Draw) (n : Nat) {s : State}
    (h : e.last.code = .ok) (hs : AxisInv (s.ax a)) :
    let u := passCycles (n + 1) s
    let x : AxisRegs := { u.ax a with
      pend := p
      telDev := mergeBits maskSW (s.ax a).telDev (decodeRampstat e.tmp1) }
    finish (commitPollsw a) (inOp a p e draws n s) =
      ended 0#3 ((telemetry x).setWidth 32) (rxStatus e.last.rx) (pendBits e.last.prev) e draws (u.setAx a x) := by
  have hm := mergeBits_stored maskSW (s.ax a).telDev (decodeRampstat e.tmp1) (by decide) ((stored_iff _).1 hs.1)
  rw [finish_ok (by rw [inOp_eng]; exact h), respCycle_inOp]
  unfold commitPollsw
  rw [respondWith_setAx_inOp, inOp_eng, inOp_ax_same, passCycles_telDev]
  simp only [atRest]
  rw [withTelDev_of_stored _ hm]

/-- Settles O29: three kept reads, each two clean transactions, and the commit. -/
theorem pollRefreshesTheTelemetry : Obligations.PollRefreshesTheTelemetry := by
  refine ⟨fun s axis a d1 d2 d3 d4 d5 d6 rest ha hq h1 h2 h3 h4 h5 h6 => ?_,
    fun s axis a ha => ⟨exec_poll s ha, fun k _ => rfl⟩⟩
  have hn : 2 + grantedSum s.cfg [d1, d2, d3, d4, d5, d6] =
      1 + grantedCycles s.cfg d1.wait + grantedCycles s.cfg d2.wait + grantedCycles s.cfg d3.wait +
        grantedCycles s.cfg d4.wait + grantedCycles s.cfg d5.wait + grantedCycles s.cfg d6.wait + 1 := by
    simp only [grantedSum]; omega
  rw [exec_poll s ha, pollTxns_eq, readKeep0_start_clean _ _ _ _ _ _ hq h1 h2, ifOk_inOp _ _ _ _ _ _ _ rfl,
    readKeep1_inOp_clean _ _ _ _ _ _ _ _ _ h3 h4, ifOk_inOp _ _ _ _ _ _ _ rfl,
    readKeep2_inOp_clean _ _ _ _ _ _ _ _ _ h5 h6, finish_commitPoll_inOp _ _ _ _ _ rfl, hn]
  rfl

/-- Settles O30: two kept reads and the commit. -/
theorem pollsgRefreshesStallGuard : Obligations.PollsgRefreshesStallGuard := by
  refine ⟨fun s axis a d1 d2 d3 d4 rest ha hq h1 h2 h3 h4 hs => ?_, fun s axis a ha => ⟨exec_pollsg s ha, fun k _ => ?_⟩⟩
  · have hn : 2 + grantedSum s.cfg [d1, d2, d3, d4] =
        1 + grantedCycles s.cfg d1.wait + grantedCycles s.cfg d2.wait + grantedCycles s.cfg d3.wait +
          grantedCycles s.cfg d4.wait + 1 := by
      simp only [grantedSum]; omega
    rw [exec_pollsg s ha, pollsgTxns_eq, pollswTxns, readKeep1_start_clean _ _ _ _ _ _ hq h1 h2,
      ifOk_inOp _ _ _ _ _ _ _ rfl, readKeep2_inOp_clean _ _ _ _ _ _ _ _ _ h3 h4,
      finish_commitPollsg_inOp _ _ _ _ rfl hs, hn]
    rfl
  · simp [opDatagram, statusReg, regRAMPSTAT, regDRVSTATUS]

/-- Settles O31: one kept read and the commit. -/
theorem pollswRefreshesTheSwitches : Obligations.PollswRefreshesTheSwitches := by
  refine ⟨fun s axis a d1 d2 rest ha hq h1 h2 hs => ?_, fun s axis a ha => ⟨exec_pollsw s ha, fun _ _ => rfl⟩⟩
  have hn : 2 + grantedSum s.cfg [d1, d2] = 1 + grantedCycles s.cfg d1.wait + grantedCycles s.cfg d2.wait + 1 := by
    simp only [grantedSum]; omega
  rw [exec_pollsw s ha, pollswTxns, readKeep1_start_clean _ _ _ _ _ _ hq h1 h2,
    finish_commitPollsw_inOp _ _ _ _ rfl hs, hn]
  rfl

end Sys2Proof.Machine
end

section
/-! SUPPORT. Proofs about 42_axis_control.md: the velocity command (R240), power, labels, switch polarity and host flags (R250 to
R254), and the host's side: the Axis Driver methods and the boot sequence (R260 to R275, R376). -/

namespace Sys2Proof.Machine

/-! ### The velocity command (R240) -/

/-- The magnitude with its number written out, as the VMAX datagram of R240 carries it. -/
theorem magnitude_eq_ofNat (v : Word) : magnitude v = BitVec.ofNat 32 v.toInt.natAbs := by
  rw [← magnitude_toNat, BitVec.ofNat_toNat, BitVec.setWidth_eq]

/-- The transactions of VEL in the literals of R240, on any draws. -/
theorem velocityTxns_eq (a : Axis) (d : Bool) (v : Word) (s : State) :
    velocityTxns a d v s = ifOk (txn a true 0x27#7 (BitVec.ofNat 32 v.toInt.natAbs))
      (txn a true 0x20#7 (if d ^^ (s.ax a).swapDir then 2#32 else 1#32) s) := by
  rw [← magnitude_eq_ofNat]; rfl

/-- Mere time has the form of the states inside an op. -/
theorem passCycles_eq_inOp (a : Axis) (n : Nat) (s : State) :
    passCycles n s = inOp a (s.ax a).pend s.eng s.world.busq n s := by
  rw [← passCycles_pend n, ← passCycles_eng n, ← passCycles_busq n, inOp, ← passCycles_hostq n, ← passCycles_drawCnt n,
    ← passCycles_dgSlot n]
  exact (State.setAx_ax ..).symm

/-- VEL's transactions on clean draws leave what the second one does. -/
theorem velocityTxns_clean (a : Axis) (d : Bool) (v : Word) {d1 d2 : Draw} {rest : List Draw} (n : Nat) {s : State}
    (hq : s.world.busq = d1 :: d2 :: rest) (h1 : CleanDraw s.cfg d1) (h2 : CleanDraw s.cfg d2) :
    velocityTxns a d v (passCycles n s) =
      inOp a ⟨true, true, regVMAX⟩ (afterTxn true regVMAX (magnitude v) d2 ⟨true, true, regRAMPMODE⟩ s.eng) rest
        (n + grantedCycles s.cfg d1.wait + grantedCycles s.cfg d2.wait) s := by
  rw [passCycles_eq_inOp a, hq, velocityTxns, txn_inOp_clean _ _ _ _ _ _ _ _ _ _ h1, ifOk_inOp _ _ _ _ _ _ _ rfl,
    txn_inOp_clean _ _ _ _ _ _ _ _ _ _ h2]
  rfl

/-- VEL on a legal axis, on any draws. -/
theorem exec_vel {axis : BitVec 2} {a : Axis} (d : Bool) (v : Word) (s : State) (ha : axisOf axis = some a) :
    exec (.vel axis d v) s = .next (finish respondEcho (velocityTxns a d v (passCycles 1 s))) :=
  congrArg Host.Outcome.next (hostOp_ok _ s (check_ok (by decide) (by decide) ha (by simp)))

/-- Settles O32: the op is its two writes and the echo of the second; on clean draws both are known whole. -/
theorem velSetsModeThenMagnitude : Obligations.VelSetsModeThenMagnitude := by
  refine ⟨fun s axis a d v d1 d2 rest ha hq h1 h2 => ⟨?_, ?_, ?_, velocityTxns_eq a d v s⟩,
    fun s axis a d v ha => ⟨?_, rfl, ?_⟩⟩
  · have hn : 2 + grantedSum s.cfg [d1, d2] = 1 + grantedCycles s.cfg d1.wait + grantedCycles s.cfg d2.wait + 1 := by
      simp only [grantedSum]; omega
    rw [exec_vel d v s ha, velocityTxns_clean a d v 1 hq h1 h2, finish_echo_inOp a _ rest _ s rfl, hn, magnitude_eq_ofNat]
    rfl
  · have hclean := velocityTxns_clean a d v 0 hq h1 h2
    rw [passCycles_zero] at hclean
    rw [hclean, inOp_eng, magnitude_eq_ofNat]
    rfl
  · have hwait : (nextDraw s).wait < s.cfg.txnTimeout := by rw [nextDraw_scripted hq]; exact h1.1
    obtain ⟨-, -, htx, -⟩ := txn_granted_regs a true 0x20#7 (if d ^^ (s.ax a).swapDir then 2#32 else 1#32) s hwait
    exact htx
  · rw [exec_vel d v s ha, velocityTxns_eq, passCycles_swapDir]
  · rw [← magnitude_eq_ofNat]; rfl

/-! ### Power, labels and host flags: no transaction (R250, R251, R254) -/

/-- Outside a reset cycle the pin shows the register (R43). -/
theorem enPin_eq {s : State} (h : resetDue s = false) (a : Axis) : enPin s a = ((s.ax a).en ^^ s.cfg.enActiveLow) := by
  simp [enPin, shown, h]

/-- The three host flags are the vector's top elements (R44). -/
theorem telemetry_hostFlags (x : AxisRegs) : (telemetry x).extractLsb' 22 3 = x.oflags := by
  refine BitVec.eq_of_getLsbD_eq fun i hi => ?_
  have h18 : ¬ 22 + i < 18 := by omega
  have he : ¬ 22 + i = 18 := by omega
  have h22 : ¬ 22 + i < 22 := by omega
  rw [BitVec.getLsbD_extractLsb', telemetry_getLsbD, if_neg h18, if_neg he, if_neg h22]
  simp [hi]

/-- A host op without a transaction that writes one axis: the check passes, and its two cycles end with the response. -/
theorem hostOp_setAx {op : BitVec 4} {axis : BitVec 2} {a : Axis} (f : AxisRegs → AxisRegs) (s : State)
    (hop : op ≠ 3#4 ∧ op ≠ 14#4 ∧ op ≠ 15#4) (ha : axisOf axis = some a) :
    hostOp op axis 0#32 (fun a s => respondDone ((respCycle s).setAx a (f ((respCycle s).ax a)))) s =
      ended 0#3 0#32 0#8 0#9 s.eng s.world.busq ((passCycles 2 s).setAx a (f ((passCycles 2 s).ax a))) := by
  obtain ⟨h3, h14, h15⟩ := hop
  rw [hostOp_ok _ s (check_ok h14 h15 ha fun h => absurd h h3)]
  exact setAx_two a f s

/-- Settles O33: the pin follows from the register written. -/
theorem pwrSetsThePowerEnable : Obligations.PwrSetsThePowerEnable := by
  intro s axis a d ha u
  refine ⟨_, congrArg Host.Outcome.next (hostOp_setAx (fun x => { x with en := d }) s (by decide) ha), rfl, fun hr => ?_⟩
  rw [enPin_eq hr, ended_ax, State.ax_setAx_same]
  simp [ended]

/-- Settles O34: element 18 is the label written. -/
theorem swapRelabels : Obligations.SwapRelabels := by
  intro s axis a d e ha u
  refine ⟨_, congrArg Host.Outcome.next (hostOp_setAx (fun x => { x with swapDir := d, swapSw := e }) s (by decide) ha),
    rfl, ?_⟩
  rw [ended_ax, State.ax_setAx_same, telemetry_getLsbD]
  rfl

/-- Settles O36: elements 22 to 24 are the flags written. -/
theorem flagsLoadsTheHostFlags : Obligations.FlagsLoadsTheHostFlags := by
  intro s axis a data ha u
  refine ⟨_, congrArg Host.Outcome.next (hostOp_setAx (fun x => { x with oflags := data }) s (by decide) ha), rfl, ?_⟩
  rw [ended_ax, State.ax_setAx_same, telemetry_hostFlags]

/-! ### The switches under the label (R252, R253) -/

/-- With the default FWD_SWITCH_RIGHT = 1 the forward switch is the right one unless the label is swapped. -/
theorem forwardIsRight_default {p : Params} (hp : p.fwdSwitchRight = true) (sw : Bool) : forwardIsRight p sw = !sw := by
  rw [forwardIsRight, hp, Bool.true_xor]

/-- Settles O44, by the label. -/
theorem switchLevelsFollowTheLabel : Obligations.SwitchLevelsFollowTheLabel := by
  intro p x hp
  unfold forwardLevel backwardLevel
  rw [forwardIsRight_default hp]
  cases x.swapSw <;> exact ⟨rfl, rfl⟩

/-- The word SWPOL writes, by its four parts, whatever FWD_SWITCH_RIGHT is. -/
theorem swmodeWord_getLsbD (p : Params) (sw d e : Bool) (v : Word) (i : Nat) :
    (swmodeWord p sw d e v).getLsbD i =
      if i = 2 then (if forwardIsRight p sw then e else d)
      else if i = 3 then (if forwardIsRight p sw then d else e)
      else v.getLsbD i := by
  simp only [swmodeWord, BitVec.getLsbD_append, BitVec.getLsbD_extractLsb', BitVec.getLsbD_ofBool]
  obtain hlow | rfl | rfl | hhigh : i < 2 ∨ i = 2 ∨ i = 3 ∨ 4 ≤ i := by omega
  · have hi : i ≠ 2 ∧ i ≠ 3 := by omega
    simp [hlow, hi]
  · simp
  · simp
  · have hi : i ≠ 2 ∧ i ≠ 3 ∧ ¬ i < 2 ∧ ¬ i - 2 < 1 ∧ ¬ i - 2 - 1 < 1 := by omega
    have hpos : 4 + (i - 2 - 1 - 1) = i := by omega
    by_cases hlt : i < 32
    · have hpart : i - 2 - 1 - 1 < 28 := by omega
      simp [hi, hpos, hpart]
    · have hpart : ¬ i - 2 - 1 - 1 < 28 := by omega
      simp [hi, hpart, BitVec.getLsbD_of_ge v i (by omega)]

/-- Settles O45: the four parts, under the default label. -/
theorem swmodeWordKeepsOtherBits : Obligations.SwmodeWordKeepsOtherBits := by
  intro p sw d e v i hp
  rw [swmodeWord_getLsbD, forwardIsRight_default hp]
  cases sw <;> rfl

/-- SWPOL on a legal axis, on any draws. -/
theorem exec_swpol {axis : BitVec 2} {a : Axis} (d e : Bool) (s : State) (ha : axisOf axis = some a) :
    exec (.swpol axis d e) s = .next (finish (commitSwpol a d e) (swpolTxns a d e (passCycles 1 s))) :=
  congrArg Host.Outcome.next (hostOp_ok _ s (check_ok (by decide) (by decide) ha (by simp)))

/-- Inside an op the word SWPOL writes is made of what it has read and of the labels the op started with. -/
theorem swpolWord_inOp (a : Axis) (d e : Bool) (p : Pend) (eng : Engine) (draws : List Draw) (n : Nat) (s : State) :
    swpolWord a d e (inOp a p eng draws n s) = swmodeWord s.cfg (s.ax a).swapSw d e eng.tmp0 := by
  rw [swpolWord, inOp_cfg, inOp_swapSw, inOp_eng]

/-- SWPOL's transactions on clean draws: the word read last, kept, goes back with the polarity bits replaced. -/
theorem swpolTxns_clean (a : Axis) (d e : Bool) {d1 d2 d3 : Draw} {rest : List Draw} {s : State}
    (hq : s.world.busq = d1 :: d2 :: d3 :: rest) (h1 : CleanDraw s.cfg d1) (h2 : CleanDraw s.cfg d2)
    (h3 : CleanDraw s.cfg d3) :
    swpolTxns a d e (passCycles 1 s) =
      inOp a ⟨true, true, regSWMODE⟩
        (afterTxn true regSWMODE (swmodeWord s.cfg (s.ax a).swapSw d e (rxData d2.reply)) d3 ⟨true, false, regSWMODE⟩
          { s.eng with tmp0 := rxData d2.reply }) rest
        (1 + grantedCycles s.cfg d1.wait + grantedCycles s.cfg d2.wait + grantedCycles s.cfg d3.wait) s := by
  rw [swpolTxns, readKeep0_start_clean _ _ _ _ _ _ hq h1 h2, ifOk_inOp _ _ _ _ _ _ _ rfl, swpolWord_inOp,
    txn_inOp_clean _ _ _ _ _ _ _ _ _ _ h3]
  rfl

/-- SWPOL after clean transactions: the response carries the value written. -/
theorem finish_commitSwpol_inOp (a : Axis) (d e : Bool) (p : Pend) {eng : Engine} (draws : List Draw) (n : Nat) (s : State)
    (h : eng.last.code = .ok) :
    finish (commitSwpol a d e) (inOp a p eng draws n s) =
      ended 0#3 (swmodeWord s.cfg (s.ax a).swapSw d e eng.tmp0) (rxStatus eng.last.rx) (pendBits eng.last.prev) eng draws
        ((passCycles (n + 1) s).setAx a { (passCycles (n + 1) s).ax a with pend := p }) := by
  rw [finish_ok (by rw [inOp_eng]; exact h), respCycle_inOp, commitSwpol, swpolWord_inOp, respondWith, inOp_eng]
  exact respond_inOp a p eng draws (n + 1) s .ok ..

/-- Settles O35: the kept read and the write back, which on clean draws are known whole. -/
theorem swpolRewritesThePolarityBits : Obligations.SwpolRewritesThePolarityBits := by
  refine ⟨fun s axis a d e d1 d2 d3 rest ha hq h1 h2 h3 => ?_,
    fun s axis a d e ha => ⟨exec_swpol d e s ha, fun k hk => if_pos hk, rfl⟩⟩
  have hn : 2 + grantedSum s.cfg [d1, d2, d3] =
      1 + grantedCycles s.cfg d1.wait + grantedCycles s.cfg d2.wait + grantedCycles s.cfg d3.wait + 1 := by
    simp only [grantedSum]; omega
  rw [exec_swpol d e s ha, swpolTxns_clean a d e hq h1 h2 h3, finish_commitSwpol_inOp a d e _ rest _ s rfl, hn]
  rfl

/-! ### The host's side: Axis Driver methods and boot (R260 to R275, R376) -/

/-- The target of a relative move forward (R270). -/
theorem relativeTarget_forward (swapDir : Bool) (x steps : Word) :
    relativeTarget false swapDir x steps = if swapDir then x - steps else x + steps := by
  rw [relativeTarget, Bool.false_xor]

/-- The target of a relative move in reverse (R270). -/
theorem relativeTarget_reverse (swapDir : Bool) (x steps : Word) :
    relativeTarget true swapDir x steps = if swapDir then x + steps else x - steps := by
  rw [relativeTarget, Bool.true_xor]; cases swapDir <;> rfl

/-- Both moves read XACTUAL, set the speed and go to the target (R270, R271). -/
theorem expand_forward (h : HostParams) (a : Axis) (sd : Bool) (x steps v : Word) :
    expand h a sd x (.forward steps v) = [.read (axisBits a) 0x21#7, .wrnz (axisBits a) 0x27#7 v,
      .write (axisBits a) 0x20#7 0#32, .write (axisBits a) 0x2D#7 (if sd then x - steps else x + steps)] := by
  rw [← relativeTarget_forward]; rfl

theorem expand_reverse (h : HostParams) (a : Axis) (sd : Bool) (x steps v : Word) :
    expand h a sd x (.reverse steps v) = [.read (axisBits a) 0x21#7, .wrnz (axisBits a) 0x27#7 v,
      .write (axisBits a) 0x20#7 0#32, .write (axisBits a) 0x2D#7 (if sd then x + steps else x - steps)] := by
  rw [← relativeTarget_reverse]; rfl

/-- The default packing is a sum, since IHOLD lies below IRUN (R264). -/
theorem packIholdIrunDefault_toNat (hold run : Word) :
    (packIholdIrunDefault hold run).toNat = run.toNat % 32 * 256 + hold.toNat % 32 := by
  have hhold : hold.toNat % 32 < 2 ^ 8 := by omega
  have hfit : (run.toNat % 32) <<< 8 < 2 ^ 32 := by rw [Nat.shiftLeft_eq]; omega
  have hlow (x : Word) : ((x.extractLsb' 0 5).setWidth 32).toNat = x.toNat % 32 := by
    simp only [BitVec.toNat_setWidth, BitVec.extractLsb'_toNat, Nat.shiftRight_zero]; omega
  rw [packIholdIrunDefault, BitVec.toNat_or, BitVec.toNat_shiftLeft, hlow, hlow, Nat.mod_eq_of_lt hfit,
    ← Nat.shiftLeft_add_eq_or_of_lt hhold, Nat.shiftLeft_eq]

/-- Settles O47: the methods by their equations, the relative moves by their targets, the default packing as a sum, and boot as
the methods it names in their order. -/
theorem driverCallsExpand : Obligations.DriverCallsExpand := by
  refine ⟨fun h a sd x v w b c res => ?_, fun rev vel limit off boot hold run => ?_, fun call data => rfl,
    fun h a sd ss fw bw f teleop => rfl⟩
  · refine ⟨rfl, rfl, rfl, rfl, rfl, rfl, rfl, rfl, rfl, rfl, rfl, rfl, rfl, rfl, rfl, rfl, rfl, rfl, rfl, rfl,
      expand_forward h a sd x v w, expand_reverse h a sd x v w, rfl, rfl, rfl, rfl, rfl, rfl, rfl, rfl⟩
  · exact ⟨rfl, rfl, packIholdIrunDefault_toNat hold run, rfl, rfl, rfl, rfl, rfl⟩

end Sys2Proof.Machine
end

section
/-! SUPPORT. Proofs about 43_joystick_filter.md: the comparator on integers (R294), the gate and the accept (R292 to R295), the
op JOYCFG (R300), and the re-issue: its place before the host's commands (R298), its success and its failures (R297). -/

namespace Sys2Proof.Machine

/-! ### The comparator (R294) -/

theorem sgn_eq_sign (x : Word) : sgn x = x.toInt.sign := by
  unfold sgn
  rw [BitVec.msb_eq_toInt]
  by_cases hneg : x.toInt < 0
  · simp [hneg, Int.sign_eq_neg_one_of_neg hneg]
  by_cases hzero : x = 0#32
  · simp [hzero]
  · have hne : x.toInt ≠ 0 := fun h => hzero (BitVec.toInt_inj.1 h)
    have hpos : 0 < x.toInt := by omega
    simp [hneg, hzero, Int.sign_eq_one_of_pos hpos]

/-- Four more bits than a word has are enough for five times a magnitude. -/
theorem mul_magnitude36_toNat {k : Nat} (hk : k ≤ 5) (x : Word) :
    (BitVec.ofNat 36 k * magnitude36 x).toNat = k * x.toInt.natAbs := by
  have hm : x.toInt.natAbs < 2 ^ 32 := magnitude_toNat x ▸ (magnitude x).isLt
  have h36 : (magnitude36 x).toNat = x.toInt.natAbs := by
    rw [magnitude36, BitVec.toNat_setWidth, magnitude_toNat, Nat.mod_eq_of_lt (by omega)]
  have hprod : k * x.toInt.natAbs ≤ 5 * x.toInt.natAbs := Nat.mul_le_mul_right _ hk
  have hk36 : k % 2 ^ 36 = k := Nat.mod_eq_of_lt (by omega)
  rw [BitVec.toNat_mul, BitVec.toNat_ofNat, h36, hk36, Nat.mod_eq_of_lt (by omega)]

/-- The comparator on integers. -/
theorem reissueNeeded_iff (p n : Word) :
    reissueNeeded p n = true ↔
      p.toInt.sign ≠ n.toInt.sign ∨ 4 * n.toInt.natAbs > 5 * p.toInt.natAbs ∨
        4 * n.toInt.natAbs < 3 * p.toInt.natAbs := by
  simp only [reissueNeeded, Bool.or_eq_true, decide_eq_true_iff, BitVec.ult, sgn_eq_sign, or_assoc, gt_iff_lt,
    mul_magnitude36_toNat (le_refl 5), mul_magnitude36_toNat (show 4 ≤ 5 by decide),
    mul_magnitude36_toNat (show 3 ≤ 5 by decide)]

/-- Inside the band 0 stands only beside 0, and two integers of which neither or both are 0 differ in their three-valued sign
exactly if they differ in being negative. -/
theorem sign_ne_or_outOfBand_iff (x y : Int) :
    (x.sign ≠ y.sign ∨ 4 * y.natAbs > 5 * x.natAbs ∨ 4 * y.natAbs < 3 * x.natAbs) ↔
      (decide (x < 0) ≠ decide (y < 0) ∨ 4 * y.natAbs > 5 * x.natAbs ∨ 4 * y.natAbs < 3 * x.natAbs) := by
  by_cases hband : 4 * y.natAbs > 5 * x.natAbs ∨ 4 * y.natAbs < 3 * x.natAbs
  · simp only [hband, or_true]
  have hzero : x = 0 ↔ y = 0 := by omega
  have hsign : x.sign = y.sign ↔ (x < 0 ↔ y < 0) := by
    obtain hx | hx | hx := Int.lt_trichotomy x 0
    · simp [Int.sign_eq_neg_one_of_neg hx, eq_comm (a := (-1 : Int)), hx]
    · simp [hx, hzero.1 hx]
    · have hy : ¬ x < 0 ∧ (¬ y < 0 ↔ 0 < y) := by omega
      simp [Int.sign_eq_one_of_pos hx, eq_comm (a := (1 : Int)), hy]
  simp only [hband, or_false, ne_eq, hsign, decide_eq_decide]

/-- Settles O50: the comparator on integers, with its sign counted either way. -/
theorem comparatorIsExact : Obligations.ComparatorIsExact := fun p n =>
  ⟨reissueNeeded_iff p n, (reissueNeeded_iff p n).trans (sign_ne_or_outOfBand_iff _ _)⟩

/-! ### The gate and the accept (R292, R293, R295) -/

theorem filterCycle_accept {s : State} (h : gateOpen s = true) (v : Sample) :
    filterCycle (some v) s = endPulse (acceptSample v s) := by simp [filterCycle, h]

theorem filterCycle_none (s : State) : filterCycle none s = coast 1 s := by simp [filterCycle, endPulse, coast]

/-- A cycle that does not accept is one in which only time passes, with or without a strobe. -/
theorem filterCycle_closed {s : State} (h : gateOpen s = false) (v : Option Sample) : filterCycle v s = coast 1 s := by
  cases v with
  | none => exact filterCycle_none s
  | some v => simp [filterCycle, h, endPulse, coast]

@[simp] theorem coast_ax (n : Nat) (s : State) (a : Axis) : (coast n s).ax a = s.ax a := by cases a <;> rfl

/-- Settles O52: both cycles are the one in which only time passes. -/
theorem strobesOutsideTheGateAreIgnored : Obligations.StrobesOutsideTheGateAreIgnored := fun _ v h =>
  (filterCycle_closed h (some v)).trans (filterCycle_closed h none).symm

@[simp] theorem endPulse_ax (s : State) (a : Axis) : (endPulse s).ax a = s.ax a := State.ax_rsp ..

@[simp] theorem acceptSample_ax (v : Sample) (s : State) (a : Axis) : (acceptSample v s).ax a = latchAxis s v a := by
  cases a <;> rfl

/-- Settles O53: the accept reloads the gate and gives each axis its comparison. -/
theorem acceptLatchesWhatMustBeReissued : Obligations.AcceptLatchesWhatMustBeReissued := by
  intro s v a h
  rw [filterCycle_accept h, endPulse_ax, acceptSample_ax]
  exact ⟨rfl, rfl⟩

/-- The gate cannot open in the next `n` cycles: a request waits, or the count does not reach 0 before. -/
def GateShutFor (n : Nat) (s : State) : Prop := anyPending s = true ∨ n ≤ s.gateCnt

theorem GateShutFor.gateOpen_coast {m n : Nat} {s : State} (h : GateShutFor n s) (hm : m < n) :
    gateOpen (coast m s) = false := by
  obtain hp | hn := h
  · have hp' : anyPending (coast m s) = true := hp
    simp [gateOpen, hp']
  · have hg : (coast m s).gateCnt ≠ 0 := show s.gateCnt - m ≠ 0 by omega
    simp [gateOpen, hg]

theorem GateShutFor.coast {n : Nat} {s : State} (h : GateShutFor n s) (m : Nat) :
    GateShutFor (n - m) (Machine.coast m s) := h.imp_right fun hn => Nat.sub_le_sub_right hn m

/-- While the gate is shut strobes pass without a trace: cycles under any script are cycles without a strobe. -/
theorem GateShutFor.runFilter {n : Nat} {s : State} (h : GateShutFor n s) (q : List Strobe) :
    ∃ q', runFilter q n s = Machine.coast n { s with world := { s.world with joyq := q' } } := by
  induction q generalizing n s with
  | nil => exact ⟨[], rfl⟩
  | cons st rest ih =>
    by_cases hlt : st.wait < n
    · obtain ⟨q', hq⟩ := ih (h.coast (st.wait + 1))
      have hn : st.wait + 1 + (n - (st.wait + 1)) = n := by omega
      have hadd := coast_add (st.wait + 1) (n - (st.wait + 1)) { s with world := { s.world with joyq := q' } }
      rw [hn] at hadd
      refine ⟨q', ?_⟩
      rw [Machine.runFilter, if_pos hlt, filterCycle_closed (h.gateOpen_coast hlt), coast_add, Nat.sub_sub, hq, ← hadd]
      rfl
    · rw [Machine.runFilter, if_neg hlt]
      exact ⟨_, rfl⟩

theorem GateShutFor.passCycles {n : Nat} {s : State} (h : GateShutFor n s) :
    ∃ w, passCycles n s = { Machine.coast n s with world := w } := by
  obtain ⟨q, hq⟩ := h.runFilter s.world.joyq
  exact ⟨_, by rw [Machine.passCycles, hq]; rfl⟩

theorem GateShutFor.gateOpen_passCycles {n : Nat} {s : State} (h : GateShutFor (n + 1) s) :
    gateOpen (Machine.passCycles n s) = false := by
  obtain ⟨w, hw⟩ := GateShutFor.passCycles (n := n) (h.imp_right Nat.le_of_succ_le)
  rw [hw]
  exact h.gateOpen_coast n.lt_succ_self

/-- Settles O51: the reloaded count does not reach 0 before the period ends. -/
theorem acceptsAreAPeriodApart : Obligations.AcceptsAreAPeriodApart := by
  intro s v n hopen hn
  rw [filterCycle_accept hopen]
  have hcount : n + 1 ≤ (endPulse (acceptSample v s)).gateCnt := show n + 1 ≤ sampleCycles s.cfg - 1 by omega
  exact GateShutFor.gateOpen_passCycles (.inr hcount)

/-! ### An axis the filter does not drive (R291) -/

theorem TimeFrame.driven {t s : State} (h : TimeFrame t s) (a : Axis) : driven t a = driven s a := by
  rw [Machine.driven, Machine.driven, h.cfg, h.axes a]

theorem filterCycle_undriven {s : State} {a : Axis} (h : driven s a = false) (v : Option Sample) :
    (filterCycle v s).ax a = s.ax a := by
  cases hg : gateOpen s with
  | false => rw [filterCycle_closed hg, coast_ax]
  | true =>
    cases v with
    | none => rw [filterCycle_none, coast_ax]
    | some v => rw [filterCycle_accept hg, endPulse_ax, acceptSample_ax, latchAxis, h]; rfl

theorem runFilter_undriven (q : List Strobe) {n : Nat} {s : State} {a : Axis} (h : driven s a = false) :
    (runFilter q n s).ax a = s.ax a := by
  induction q generalizing n s with
  | nil => exact coast_ax ..
  | cons st rest ih =>
    unfold runFilter
    split
    · have hc : driven (coast st.wait s) a = false := ((coast_frame _ s).driven a).trans h
      rw [ih (((filterCycle_frame _ _).driven a).trans hc), filterCycle_undriven hc, coast_ax]
    · exact coast_ax ..

/-- Settles O54, by induction on the script of strobes. -/
theorem undrivenAxesAreNeverRequested : Obligations.UndrivenAxesAreNeverRequested := fun s _ _ h =>
  (State.ax_world ..).trans (runFilter_undriven s.world.joyq h)

/-! ### JOYCFG (R300) -/

theorem joycfgRegs_eq (d e : Bool) (x : AxisRegs) :
    joycfgRegs d e x = { x with joyEn := d, prev := if e then 0#32 else x.prev, joyPend := x.joyPend && d } := by
  cases d <;> simp [joycfgRegs]

/-- Settles O37: the op has no transaction, and its write comes after its two cycles. -/
theorem joycfgConfiguresTheFilter : Obligations.JoycfgConfiguresTheFilter := by
  intro s axis a d e ha u
  rw [← passCycles_prev 2 s a]
  exact congrArg Host.Outcome.next ((hostOp_setAx (joycfgRegs d e) s (by decide) ha).trans (by rw [joycfgRegs_eq]))

/-! ### A waiting re-issue (R298) -/

/-- The axis whose turn it is waits, and no lower one does. -/
theorem lowestPending_some {s : State} {a : Axis} (h : lowestPending s = some a) :
    (s.ax a).joyPend = true ∧ (a = .a1 → s.axes.a0.joyPend = false) ∧
      (a = .a2 → s.axes.a0.joyPend = false ∧ s.axes.a1.joyPend = false) := by
  unfold lowestPending at h
  split_ifs at h with h0 h1 h2 <;> cases h
  · exact ⟨h0, nofun, nofun⟩
  · exact ⟨h1, fun _ => Bool.eq_false_iff.2 h0, nofun⟩
  · exact ⟨h2, nofun, fun _ => ⟨Bool.eq_false_iff.2 h0, Bool.eq_false_iff.2 h1⟩⟩

theorem anyPending_of_lowestPending {s : State} {a : Axis} (h : lowestPending s = some a) : anyPending s = true := by
  cases hp : anyPending s with
  | true => rfl
  | false => rw [lowestPending_free hp] at h; cases h

theorem exists_lowestPending {s : State} (h : anyPending s = true) : ∃ a, lowestPending s = some a := by
  unfold lowestPending
  split_ifs with h0 h1 h2
  · exact ⟨_, rfl⟩
  · exact ⟨_, rfl⟩
  · exact ⟨_, rfl⟩
  · simp [anyPending, h0, h1, h2] at h

/-- A re-issue that no reset cuts short finds none due in its first cycle. -/
theorem resetDue_of_reissue_not_cutShort {s : State} {a : Axis} (hp : lowestPending s = some a) (hc : cutShort s = false) :
    resetDue s = false := by
  rw [cutShort_eq_resetWithin] at hc
  have hspan : opSpan s = 1 + txnsCycles 2 s + 1 := by simp only [opSpan, hp]; omega
  rw [hspan] at hc
  exact resetDue_of_within hc

theorem step_reissue {s : State} {a : Axis} (hs : s.eng.state = .idle) (hc : cutShort s = false)
    (hd : s.world.dgSlot = none) (hp : lowestPending s = some a) : step s = .next (reissue a s) := by
  simp [step, resetDue_of_reissue_not_cutShort hp hc, hs, hd, hc, hp]

@[simp] theorem loadReissue_ax (a b : Axis) (s : State) : (loadReissue a s).ax b = s.ax b := State.ax_eng ..

/-- A re-issue of axis `a` after its RESP cycle, in which it commits. -/
def reissueAtResp (a : Axis) (s : State) : State :=
  respCycle (velocityTxns a (isNegative (s.ax a).joyNext) (s.ax a).joyNext (passCycles 1 (loadReissue a s)))

theorem reissue_eq (a : Axis) (s : State) : reissue a s = commitReissue a (s.ax a).joyNext (reissueAtResp a s) := rfl

/-- The clock cycles of a re-issue are those of its VEL. -/
theorem reissueAtResp_timed (a : Axis) (s : State) :
    Timed a (2 + txnsCycles 2 (loadReissue a s)) (reissueAtResp a s) (loadReissue a s) :=
  atResp_timed (.vel (axisBits a) (isNegative (s.ax a).joyNext) (s.ax a).joyNext) a (loadReissue a s) rfl

theorem Timed.rsp {a : Axis} {n : Nat} {t s : State} (h : Timed a n t s) : t.rsp = (Machine.passCycles n s).rsp := by
  obtain ⟨p, e, b, c, rfl⟩ := h; simp

theorem Timed.hostq {a : Axis} {n : Nat} {t s : State} (h : Timed a n t s) : t.world.hostq = s.world.hostq := by
  obtain ⟨p, e, b, c, rfl⟩ := h; simp

@[simp] theorem commitReissue_eng (a : Axis) (n : Word) (s : State) : (commitReissue a n s).eng = s.eng := State.setAx_eng ..
@[simp] theorem commitReissue_rsp (a : Axis) (n : Word) (s : State) : (commitReissue a n s).rsp = s.rsp := State.setAx_rsp ..
@[simp] theorem commitReissue_world (a : Axis) (n : Word) (s : State) : (commitReissue a n s).world = s.world :=
  State.setAx_world ..

/-- No part of a re-issue looks at the host's script. -/
@[simp] theorem reissue_hostq (a : Axis) (s : State) : (reissue a s).world.hostq = s.world.hostq := by
  rw [reissue_eq, commitReissue_world, (reissueAtResp_timed a s).hostq]; rfl

/-- Settles O57: the lowest waiting axis is the one whose re-issue the step runs. -/
theorem reissuesComeBeforeCommands : Obligations.ReissuesComeBeforeCommands := by
  intro s hpend hr hs hd hc
  obtain ⟨a, ha⟩ := exists_lowestPending hpend
  obtain ⟨hself, h1, h2⟩ := lowestPending_some ha
  exact ⟨by simp [cmdReady, engineFree, hpend], a, _, hself, h1, h2, step_reissue hs hc hd ha, rfl, reissue_hostq a s⟩

/-! ### What time does while a request waits -/

/-- While a request waits every gate is shut: only the count, the pulse and the world's scripts move. -/
theorem passCycles_of_anyPending {s : State} (h : anyPending s = true) (n : Nat) :
    ∃ w, passCycles n s = { coast n s with world := w } := GateShutFor.passCycles (.inl h)

theorem passCycles_ax_of_anyPending {s : State} (h : anyPending s = true) (n : Nat) (a : Axis) :
    (passCycles n s).ax a = s.ax a := by
  obtain ⟨w, hw⟩ := passCycles_of_anyPending h n
  rw [hw, State.ax_world, coast_ax]

theorem passCycles_rsp_of_anyPending {s : State} (h : anyPending s = true) {n : Nat} (hn : n ≠ 0) :
    (passCycles n s).rsp = { s.rsp with valid := false } := by
  obtain ⟨w, hw⟩ := passCycles_of_anyPending h n
  rw [hw]
  simp [coast, hn]

/-! ### A re-issue that succeeds (R297) -/

/-- On an axis whose unstored bits are 0 the write of the telemetry drops nothing but standstill. -/
theorem reissueSuccess_eq (n : Word) {x : AxisRegs} (h : x.telDev &&& ~~~maskStored = 0#25) :
    reissueSuccess n x = { x with telDev := x.telDev &&& ~~~4#25, en := true, prev := n } := by
  have hstored : x.telDev &&& ~~~4#25 &&& maskStored = x.telDev &&& ~~~4#25 := by
    rw [BitVec.and_assoc, BitVec.and_comm (~~~4#25), ← BitVec.and_assoc, (stored_iff _).1 h]
  rw [reissueSuccess, withTelDev_of_stored _ hstored]

/-- The engine's registers at the start of an op do not show in the form of the states inside it. -/
theorem inOp_loadReissue (a : Axis) (p : Pend) (e : Engine) (draws : List Draw) (n : Nat) (s : State) :
    inOp a p e draws n (loadReissue a s) = inOp a p e draws n s := by
  unfold inOp loadReissue
  rw [passCycles_setEng]
  rfl

/-- Writing the op's own axis over the form of the states inside it. -/
theorem setAx_inOp (a : Axis) (p : Pend) (e : Engine) (draws : List Draw) (n : Nat) (s : State) (x : AxisRegs) :
    let u := passCycles n s
    (inOp a p e draws n s).setAx a x = { u.setAx a x with eng := e, world := { u.world with busq := draws } } := by
  unfold inOp
  rw [← passCycles_hostq n s, ← passCycles_drawCnt n s, ← passCycles_dgSlot n s]
  cases a <;> rfl

theorem commitReissue_inOp (a : Axis) (p : Pend) {e : Engine} (draws : List Draw) (m : Nat) {s : State} (n : Word)
    (hok : e.last.code = .ok) (hpend : anyPending s = true) (htel : (s.ax a).telDev &&& ~~~maskStored = 0#25) :
    let u := passCycles m s
    commitReissue a n (inOp a p e draws m s) =
      { u.setAx a { s.ax a with
          pend := p
          telDev := (s.ax a).telDev &&& ~~~4#25
          en := true
          prev := n
          joyCode := 0#3
          joyPend := false } with
        eng := e
        world := { u.world with busq := draws } } := by
  have hlast : lastOk (inOp a p e draws m s) = true := by simp [lastOk, hok]
  unfold commitReissue
  rw [hlast, if_pos rfl, inOp_ax_same, passCycles_ax_of_anyPending hpend,
    reissueSuccess_eq n (x := { s.ax a with pend := p }) htel, inOp_eng, hok]
  exact setAx_inOp ..

/-- On clean draws a re-issue arrives at its RESP cycle's end with the result of its second write. -/
theorem reissueAtResp_clean {a : Axis} {d1 d2 : Draw} {rest : List Draw} {s : State} (hq : s.world.busq = d1 :: d2 :: rest)
    (h1 : CleanDraw s.cfg d1) (h2 : CleanDraw s.cfg d2) :
    reissueAtResp a s =
      inOp a ⟨true, true, regVMAX⟩
        (atRest (afterTxn true regVMAX (magnitude (s.ax a).joyNext) d2 ⟨true, true, regRAMPMODE⟩ s.eng)) rest
        (2 + grantedSum s.cfg [d1, d2]) s := by
  have hn : 2 + grantedSum s.cfg [d1, d2] = 1 + grantedCycles s.cfg d1.wait + grantedCycles s.cfg d2.wait + 1 := by
    simp only [grantedSum]; omega
  rw [reissueAtResp, velocityTxns_clean (s := loadReissue a s) a _ _ 1 hq h1 h2, respCycle_inOp, inOp_loadReissue, hn]
  rfl

/-- The two writes of a re-issue in the literals of R297, on any draws. -/
theorem reissueAtResp_eq (a : Axis) (s : State) :
    let n := (s.ax a).joyNext
    reissueAtResp a s = respCycle
      (ifOk (txn a true 0x27#7 (BitVec.ofNat 32 n.toInt.natAbs))
        (txn a true 0x20#7 (if decide (n.toInt < 0) ^^ (s.ax a).swapDir then 2#32 else 1#32)
          (passCycles 1 (loadReissue a s)))) := by
  rw [reissueAtResp, velocityTxns_eq, passCycles_swapDir, loadReissue_ax, isNegative_eq_decide]

/-- Settles O55: on clean draws the state before the commit is known whole, and while the request waits time
writes no axis. -/
theorem reissueAppliesTheSample : Obligations.ReissueAppliesTheSample := by
  intro s a d1 d2 rest hs hc hd hp hq h1 h2 hinv n u
  have hpend := anyPending_of_lowestPending hp
  refine ⟨?_, passCycles_rsp_of_anyPending hpend (by omega), ?_⟩
  · rw [step_reissue hs hc hd hp, reissue_eq, reissueAtResp_clean hq h1 h2, magnitude_eq_ofNat,
      commitReissue_inOp _ _ _ _ _ (by rfl) hpend hinv.1]
    rfl
  · rw [reissue_eq, reissueAtResp_eq]

/-! ### A re-issue on any draws (R297, R335) -/

theorem txn_drawCode (a : Axis) (w : Bool) (addr : Addr) (data : Word) (s : State) :
    codeBits (txn a w addr data s).eng.last.code = drawCode s.cfg (nextDraw s) := by
  rw [txn_code, drawCode]
  by_cases hw : (nextDraw s).wait < s.cfg.txnTimeout
  · rw [if_neg (Nat.not_le.2 hw)]
    cases hu : (nextDraw s).unexpected <;> simp [txnResult, granted, hw, echoCode, hu, codeBits]
  · rw [if_pos (Nat.not_lt.1 hw)]
    simp [txnResult, granted, hw, codeBits]

theorem nextDraw_congr {s t : State} (hb : t.world.busq = s.world.busq) (hc : t.world.drawCnt = s.world.drawCnt) :
    nextDraw t = nextDraw s := by rw [nextDraw, nextDraw, hb, hc]

/-- A transaction uses up one draw, whatever comes of it. -/
theorem nextDraw_txn (a : Axis) (w : Bool) (addr : Addr) (data : Word) (s : State) :
    nextDraw (txn a w addr data s) = nextDraw (dropDraw s) := by
  by_cases hw : (nextDraw s).wait < s.cfg.txnTimeout
  · rw [txn_granted_eq a w addr data s hw, ← passCycles_dropDraw]
    exact nextDraw_congr (by simp) (by simp)
  · rw [txn_timeout_eq a w addr data s (Nat.not_lt.1 hw), ← passCycles_dropDraw]
    exact nextDraw_congr (by simp) (by simp)

theorem lastOk_iff_codeBits (s : State) : lastOk s = true ↔ codeBits s.eng.last.code = 0#3 :=
  decide_eq_true_iff.trans ⟨fun h => by rw [h]; rfl, codeBits_eq_zero⟩

/-- The code of two transactions in a row: that of the first, or of the second if the first was OK. -/
def twoTxnsCode (s : State) : BitVec 3 :=
  if drawCode s.cfg (nextDraw s) = 0#3 then drawCode s.cfg (nextDraw (dropDraw s)) else drawCode s.cfg (nextDraw s)

theorem twoTxnsCode_congr {s t : State} (hp : t.cfg = s.cfg) (hb : t.world.busq = s.world.busq)
    (hc : t.world.drawCnt = s.world.drawCnt) : twoTxnsCode t = twoTxnsCode s := by
  have hsecond : nextDraw (dropDraw t) = nextDraw (dropDraw s) := by
    unfold dropDraw
    rw [hb]
    cases s.world.busq with
    | nil => exact nextDraw_congr hb (congrArg (· + 1) hc)
    | cons d rest => exact nextDraw_congr rfl hc
  rw [twoTxnsCode, twoTxnsCode, hp, nextDraw_congr hb hc, hsecond]

theorem velocityTxns_code (a : Axis) (d : Bool) (v : Word) (s : State) :
    codeBits (velocityTxns a d v s).eng.last.code = twoTxnsCode s := by
  have hfirst := txn_drawCode a true regRAMPMODE (rampMode (d ^^ (s.ax a).swapDir)) s
  have hok := lastOk_iff_codeBits (txn a true regRAMPMODE (rampMode (d ^^ (s.ax a).swapDir)) s)
  rw [hfirst] at hok
  unfold velocityTxns twoTxnsCode
  split
  · next h => rw [ifOk_pos (hok.2 h), txn_drawCode, nextDraw_txn, (txn_frame ..).cfg]
  · next h => rw [ifOk_neg (Bool.eq_false_iff.2 fun hl => h (hok.1 hl)), hfirst]

theorem reissueAtResp_code (a : Axis) (s : State) : codeBits (reissueAtResp a s).eng.last.code = twoTxnsCode s := by
  rw [reissueAtResp, respCycle_eng_eq_atRest]
  exact (velocityTxns_code ..).trans (twoTxnsCode_congr (passCycles_cfg ..) (passCycles_busq ..) (passCycles_drawCnt ..))

/-- Of the axes, a re-issue before its commit has written its own pipeline record, and no other register. -/
theorem reissueAtResp_ax {a : Axis} {s : State} (h : anyPending s = true) (b : Axis) :
    (reissueAtResp a s).ax b = { s.ax b with pend := ((reissueAtResp a s).ax b).pend } := by
  have hax := (reissueAtResp_timed a s).ax b
  rwa [passCycles_ax_of_anyPending (s := loadReissue a s) h, loadReissue_ax] at hax

theorem reissueAtResp_ax_ne {a b : Axis} {s : State} (h : anyPending s = true) (hb : b ≠ a) :
    (reissueAtResp a s).ax b = s.ax b := by
  rw [(reissueAtResp_timed a s).ax_ne hb, passCycles_ax_of_anyPending (s := loadReissue a s) h, loadReissue_ax]

/-- The response registers keep their values; the pulse of an op before it is over. -/
theorem reissueAtResp_rsp (a : Axis) {s : State} (h : anyPending s = true) :
    (reissueAtResp a s).rsp = { s.rsp with valid := false } :=
  (reissueAtResp_timed a s).rsp.trans (passCycles_rsp_of_anyPending (s := loadReissue a s) h (by omega))

theorem commitReissue_ax_same (a : Axis) (n : Word) (s : State) :
    (commitReissue a n s).ax a = { (if lastOk s then reissueSuccess n (s.ax a) else s.ax a) with
      joyCode := codeBits s.eng.last.code, joyPend := false } := State.ax_setAx_same ..

theorem commitReissue_ax_ne {a b : Axis} (n : Word) (s : State) (h : b ≠ a) : (commitReissue a n s).ax b = s.ax b :=
  State.ax_setAx_ne _ _ h

theorem commitReissue_ok (a : Axis) (n : Word) {s : State} (h : lastOk s = true) :
    ((commitReissue a n s).ax a).prev = n ∧ ((commitReissue a n s).ax a).en = true := by
  rw [commitReissue_ax_same, h]; exact ⟨rfl, rfl⟩

theorem commitReissue_failed (a : Axis) (n : Word) {s : State} (h : lastOk s = false) :
    ((commitReissue a n s).ax a).prev = (s.ax a).prev ∧ ((commitReissue a n s).ax a).en = (s.ax a).en ∧
      ((commitReissue a n s).ax a).telDev = (s.ax a).telDev := by
  rw [commitReissue_ax_same, h]; exact ⟨rfl, rfl, rfl⟩

/-- Settles O56: the commit's own code is that of the draws, and what it writes depends on whether that is OK. -/
theorem failedReissueLeavesTheLatch : Obligations.FailedReissueLeavesTheLatch := by
  intro s a hs hc hd hp first code
  have hpend := anyPending_of_lowestPending hp
  have hcode : codeBits (reissueAtResp a s).eng.last.code = code := reissueAtResp_code a s
  have hself := reissueAtResp_ax (a := a) hpend a
  have hrsp : (reissue a s).rsp = { s.rsp with valid := false } := by
    rw [reissue_eq, commitReissue_rsp, reissueAtResp_rsp a hpend]
  have hok := lastOk_iff_codeBits (reissueAtResp a s)
  rw [hcode] at hok
  refine ⟨_, step_reissue hs hc hd hp, ?_, ?_, ?_, by rw [hrsp], by rw [hrsp], by rw [hrsp], by rw [hrsp], by rw [hrsp],
    reissue_hostq a s, fun hne => ?_, fun heq => ?_, fun b hb => ?_⟩
  all_goals rw [reissue_eq]
  · rw [commitReissue_ax_same]
  · rw [commitReissue_ax_same, ← hcode]
  · rw [commitReissue_eng, hcode]
  · obtain ⟨hprev, hen, htel⟩ := commitReissue_failed a (s.ax a).joyNext (Bool.eq_false_iff.2 fun hl => hne (hok.1 hl))
    rw [hprev, hen, htel, hself]
    exact ⟨rfl, rfl, rfl⟩
  · exact commitReissue_ok a _ (hok.2 heq)
  · rw [commitReissue_ax_ne _ _ hb, reissueAtResp_ax_ne hpend hb]

end Sys2Proof.Machine
end

section
/-! SUPPORT. Proofs about 60_exceptions.md: every step and every instruction goes on (R337, R350), axis 3 (R331), an op whose first
or a later transaction fails (R330, R332), and what a failed command leaves alone (R334). -/

namespace Sys2Proof.Machine

/-! ### Nothing stops the machine (R337, R350) -/

/-- A command goes on by one of its ends, a raw datagram by its transaction. -/
theorem exec_next (i : Instr) (s : State) : ∃ t, exec i s = .next t := by
  cases hc : isCommand i with
  | true => exact (exec_command i s hc).imp fun _ h => h.1
  | false =>
    obtain ⟨w, addr, data, h⟩ := exec_datagram i s hc
    exact ⟨_, h⟩

/-- Every branch of the step answers a state or runs an instruction. -/
theorem step_next (s : State) : SafeStep s := by
  unfold SafeStep step
  split
  · exact ⟨_, rfl⟩
  split
  · exact ⟨_, rfl⟩
  split
  · split
    · exact ⟨_, rfl⟩
    · exact exec_next ..
  split
  · exact ⟨_, rfl⟩
  split
  · exact ⟨_, rfl⟩
  split
  · exact exec_next ..
  · exact ⟨_, rfl⟩

/-- Settles O12: the step goes on because every instruction does. -/
theorem everyStepGoesOn : Obligations.EveryStepGoesOn := ⟨step_next, exec_next⟩

/-! ### Axis 3 (R331, R333) -/

theorem isCommand_of_axisOperand {i : Instr} {axis : BitVec 2} (h : axisOperand i = some axis) : isCommand i = true := by
  cases i
  case dgWrite | dgRead => cases h
  all_goals rfl

/-- Settles O17: a command with axis 3 has only one end. -/
theorem axisThreeIsBadAxis : Obligations.AxisThreeIsBadAxis := by
  intro i s hi
  obtain ⟨t, ht, hend⟩ := exec_command i s (isCommand_of_axisOperand hi)
  rw [ht, hend.axisThree hi]

/-! ### A transaction that fails inside an op (R158, R332) -/

section
variable {a : Axis} {p : Pend} {e : Engine} {draws : List Draw} {n : Nat} {s : State}

/-- A granted transaction inside an op, whatever its echo. -/
theorem txn_inOp_granted {w : Bool} {addr : Addr} {data : Word} {d : Draw} (hw : d.wait < s.cfg.txnTimeout) :
    txn a w addr data (inOp a p e (d :: draws) n s) =
      inOp a ⟨true, w, addr⟩ { afterTxn w addr data d p e with last := ⟨echoCode d, d.reply, p⟩ } draws
        (n + grantedCycles s.cfg d.wait) s := by
  rw [txn_scripted_granted (d := d) (rest := draws) a w addr data (by simp) (by simpa using hw)]
  have hmore := passCycles_inOp a p e (d :: draws) n s (grantedCycles s.cfg d.wait)
  simp only [inOp_cfg, inOp_eng, inOp_pend, hmore]
  cases a <;> rfl

/-- A transaction inside an op that times out: the record stands. -/
theorem txn_inOp_timeout {w : Bool} {addr : Addr} {data : Word} {d : Draw} (hw : s.cfg.txnTimeout ≤ d.wait) :
    txn a w addr data (inOp a p e (d :: draws) n s) =
      inOp a p { e with toCnt := s.cfg.txnTimeout, last := ⟨.busTimeout, 0#40, p⟩ } draws (n + s.cfg.txnTimeout) s := by
  rw [txn_scripted_timeout (d := d) (rest := draws) a w addr data (by simp) (by simpa using hw)]
  have hmore := passCycles_inOp a p e (d :: draws) n s s.cfg.txnTimeout
  simp only [inOp_cfg, inOp_eng, inOp_pend, hmore]
  cases a <;> rfl

/-- Of the engine an op's datagram sees `tmp0` alone. -/
theorem opDatagram_inOp (i : Instr) (k : Nat) :
    opDatagram i a k (inOp a p e draws n s) = opDatagram i a k { s with eng := { s.eng with tmp0 := e.tmp0 } } := by
  cases i
  case vel => simp only [opDatagram, inOp_swapDir, State.ax_eng]
  case swpol =>
    simp only [opDatagram, swpolWord_inOp]
    simp only [swpolWord, State.ax_eng]
  all_goals rfl

theorem keepOk_inOp (i : Instr) (k : Nat) : keepOk i k (inOp a p e draws n s) = inOp a p (keepEngine i k e) draws n s := by
  rw [keepOk_keep, inOp_eng, inOp_setEng]

end

theorem keepEngine_last (i : Instr) (k : Nat) (e : Engine) : (keepEngine i k e).last = e.last := by
  obtain ⟨-, -, -, hlast, -⟩ := keepEngine_same i k e
  exact hlast

/-- After a transaction that failed, no word is kept. -/
theorem keepEngine_failed (i : Instr) (k : Nat) {e : Engine} (h : e.last.code ≠ .ok) : keepEngine i k e = e := by
  simp [keepEngine, keepOk, lastOk, h]

/-- The datagram of transaction `k` inside an op, when the word kept in `tmp0` is `v`. -/
def datagramWith (i : Instr) (a : Axis) (k : Nat) (v : Word) (s : State) : Bool × Addr × Word :=
  opDatagram i a k { s with eng := { s.eng with tmp0 := v } }

section
variable {i : Instr} {a : Axis} {k : Nat} {p : Pend} {e : Engine} {draws : List Draw} {n : Nat} {s : State} {d : Draw}

/-- Transaction `k` of an op when it is granted. -/
theorem opTxn_inOp_granted (hw : d.wait < s.cfg.txnTimeout) :
    let g := datagramWith i a k e.tmp0 s
    opTxn i a k (inOp a p e (d :: draws) n s) =
      inOp a ⟨true, g.1, g.2.1⟩
        (keepEngine i k { afterTxn g.1 g.2.1 g.2.2 d p e with last := ⟨echoCode d, d.reply, p⟩ }) draws
        (n + grantedCycles s.cfg d.wait) s := by
  rw [opTxn, opDatagram_inOp, txn_inOp_granted hw, keepOk_inOp]
  rfl

/-- Transaction `k` of an op when it is clean. -/
theorem opTxn_inOp_clean (hd : CleanDraw s.cfg d) :
    let g := datagramWith i a k e.tmp0 s
    opTxn i a k (inOp a p e (d :: draws) n s) =
      inOp a ⟨true, g.1, g.2.1⟩ (keepEngine i k (afterTxn g.1 g.2.1 g.2.2 d p e)) draws
        (n + grantedCycles s.cfg d.wait) s := by
  obtain ⟨hw, hecho⟩ := hd
  rw [opTxn_inOp_granted hw, echoCode, hecho]
  rfl

/-- Transaction `k` of an op when its echo is unexpected. -/
theorem opTxn_inOp_unexpected (hw : d.wait < s.cfg.txnTimeout) (hecho : d.unexpected = true) :
    let g := datagramWith i a k e.tmp0 s
    opTxn i a k (inOp a p e (d :: draws) n s) =
      inOp a ⟨true, g.1, g.2.1⟩ { afterTxn g.1 g.2.1 g.2.2 d p e with last := ⟨.unexpectedEcho, d.reply, p⟩ } draws
        (n + grantedCycles s.cfg d.wait) s := by
  rw [opTxn_inOp_granted hw, echoCode, hecho, if_pos rfl, keepEngine_failed _ _ (by simp)]

/-- Transaction `k` of an op when it times out. -/
theorem opTxn_inOp_timeout (hw : s.cfg.txnTimeout ≤ d.wait) :
    opTxn i a k (inOp a p e (d :: draws) n s) =
      inOp a p { e with toCnt := s.cfg.txnTimeout, last := ⟨.busTimeout, 0#40, p⟩ } draws (n + s.cfg.txnTimeout) s := by
  rw [opTxn, txn_inOp_timeout hw, keepOk_inOp, keepEngine_failed _ _ (by simp)]

end

/-! ### The transactions that stand before the one that fails -/

/-- Only SWPOL's third datagram depends on the word read. -/
theorem datagramWith_eq {i : Instr} {a : Axis} {k : Nat} {u v : Word} (s : State)
    (h : ∀ axis d f, i = .swpol axis d f → 2 ≤ k → u = v) : datagramWith i a k u s = datagramWith i a k v s := by
  cases i
  case swpol axis d f =>
    unfold datagramWith opDatagram
    by_cases hk : k < 2
    · simp [hk]
    · rw [h axis d f rfl (by omega)]
  all_goals rfl

/-- A datagram that is not the op's last depends on no word read. -/
theorem datagramWith_of_not_last {i : Instr} {k : Nat} (hk : k + 1 < txnCount i) (a : Axis) (u v : Word) (s : State) :
    datagramWith i a k u s = datagramWith i a k v s := by
  refine datagramWith_eq s fun axis d f hi h2 => ?_
  subst hi
  simp only [txnCount] at hk
  omega

/-- SWPOL keeps in `tmp0` the data of its second transaction, and no word of another one. -/
theorem keepEngine_swpol_tmp0 (axis : BitVec 2) (d f : Bool) (k : Nat) {e : Engine} (h : e.last.code = .ok) :
    (keepEngine (.swpol axis d f) k e).tmp0 = if k = 1 then rxData e.last.rx else e.tmp0 := by
  simp only [keepEngine, keepOk, lastOk, h, decide_true, if_true, keepTmp]
  split <;> rfl

theorem keepEngine_txSr (i : Instr) (k : Nat) (e : Engine) : (keepEngine i k e).txSr = e.txSr := by
  unfold keepEngine keepOk
  split
  · cases i <;> simp only [keepTmp] <;> repeat' split
    all_goals rfl
  · rfl

theorem grantedSum_concat (p : Params) (ds : List Draw) (d : Draw) :
    grantedSum p (ds ++ [d]) = grantedSum p ds + grantedCycles p d.wait := by
  induction ds with
  | nil => simp [grantedSum]
  | cons x xs ih => simp only [List.cons_append, grantedSum, ih]; omega

/-- The word SWPOL has read once the clean draws `good` are used up. -/
def wordRead (good : List Draw) : Word := (good.map fun g => rxData g.reply).getD 1 0#32

theorem wordRead_concat_of_two_le {good : List Draw} (h : 2 ≤ good.length) (d : Draw) :
    wordRead (good ++ [d]) = wordRead good := by
  rw [wordRead, List.map_append, List.getD_append _ _ _ _ (by rw [List.length_map]; exact h)]
  rfl

/-- What an op has done when the clean draws `good` are used up: where it stands (the record `p`, the engine `e`), which
datagram was its last, and what SWPOL has read. -/
structure AfterClean (i : Instr) (a : Axis) (s : State) (good : List Draw) (p : Pend) (e : Engine) : Prop where
  runs : ∀ draws r, s.world.busq = good ++ draws →
    opLoop i a (good.length + r) 0 (passCycles 1 s) =
      opLoop i a r good.length (inOp a p e draws (1 + grantedSum s.cfg good) s)
  sent : ∀ k, good.length = k + 1 → ∀ v,
    p = ⟨true, (datagramWith i a k v s).1, (datagramWith i a k v s).2.1⟩ ∧
      e.txSr = datagram (datagramWith i a k v s).1 (datagramWith i a k v s).2.1 (datagramWith i a k v s).2.2
  word : ∀ axis d f, i = .swpol axis d f → 2 ≤ good.length → e.tmp0 = wordRead good

/-- Before its first transaction an op has written nothing. -/
theorem afterClean_nil (i : Instr) (a : Axis) (s : State) : AfterClean i a s [] (s.ax a).pend s.eng where
  runs draws r hq := by
    rw [passCycles_eq_inOp a 1 s, hq]
    simp [grantedSum]
  sent k hk := by cases hk
  word _ _ _ _ h := by cases h

/-- One more clean transaction, not the op's last. -/
theorem AfterClean.concat {i : Instr} {a : Axis} {s : State} {good : List Draw} {p : Pend} {e : Engine}
    (h : AfterClean i a s good p e) {d : Draw} (hd : CleanDraw s.cfg d) (hlt : good.length + 1 < txnCount i) :
    let g := datagramWith i a good.length e.tmp0 s
    AfterClean i a s (good ++ [d]) ⟨true, g.1, g.2.1⟩ (keepEngine i good.length (afterTxn g.1 g.2.1 g.2.2 d p e)) where
  runs draws r hq := by
    have hlen : (good ++ [d]).length + r = good.length + (r + 1) := by simp; omega
    have hsum := grantedSum_concat s.cfg good d
    rw [hlen, h.runs (d :: draws) (r + 1) (by simpa using hq), opLoop_succ]
    dsimp only
    rw [opTxn_inOp_clean hd, ifOk_inOp _ _ _ _ _ _ _ (by rw [keepEngine_last]; rfl), hsum, Nat.add_assoc]
    simp
  sent k hk v := by
    have hk : good.length = k := by simpa using hk
    rw [keepEngine_txSr, hk, datagramWith_of_not_last (by omega) a e.tmp0 v s]
    exact ⟨rfl, rfl⟩
  word axis x f hi h2 := by
    subst hi
    rw [keepEngine_swpol_tmp0 _ _ _ _ rfl]
    split
    · next h1 =>
      obtain ⟨b, rfl⟩ := List.length_eq_one_iff.1 h1
      rfl
    · next h1 =>
      have hlong : 2 ≤ good.length := by simp at h2; omega
      rw [wordRead_concat_of_two_le hlong, ← h.word axis x f rfl hlong]
      rfl

/-- Fewer clean draws than the op has transactions bring it to a known state. -/
theorem exists_afterClean {i : Instr} (a : Axis) {s : State} (good : List Draw) (hlt : good.length < txnCount i)
    (hclean : ∀ g ∈ good, CleanDraw s.cfg g) : ∃ p e, AfterClean i a s good p e := by
  induction good using List.reverseRecOn with
  | nil => exact ⟨_, _, afterClean_nil i a s⟩
  | append_singleton good d ih =>
    rw [List.length_append, List.length_singleton] at hlt
    obtain ⟨p, e, h⟩ := ih (by omega) fun g hg => hclean g (List.mem_append_left _ hg)
    exact ⟨_, _, h.concat (hclean d (by simp)) hlt⟩

/-! ### The op ends with the transaction that fails (R332) -/

/-- The RESP cycle of an op whose last transaction failed. -/
theorem failTxn_respCycle_inOp (a : Axis) (p : Pend) (e : Engine) (draws : List Draw) (n : Nat) (s : State) :
    failTxn (respCycle (inOp a p e draws n s)) =
      ended (codeBits e.last.code) (rxData e.last.rx) (rxStatus e.last.rx) (pendBits e.last.prev) e draws
        ((passCycles (n + 1) s).setAx a { (passCycles (n + 1) s).ax a with pend := p }) := by
  rw [respCycle_inOp, failTxn, lastData, inOp_eng]
  exact respond_inOp ..

/-- A command on a legal axis with a transaction that fails has only one end. -/
theorem CommandEnd.of_failed {i : Instr} {s t : State} {axis : BitVec 2} {a : Axis} (h : CommandEnd i s t)
    (hi : axisOperand i = some axis) (ha : axisOf axis = some a) (hz : zeroWrnz i = false) (ht : txnCount i ≠ 0)
    (hfail : (opTxns i a (passCycles 1 s)).eng.last.code ≠ .ok) :
    t = failTxn (respCycle (opTxns i a (passCycles 1 s))) := by
  have hsame {axis' : BitVec 2} {a' : Axis} (hi' : axisOperand i = some axis') (ha' : axisOf axis' = some a') : a' = a := by
    rw [hi] at hi'; cases hi'
    rw [ha] at ha'; cases ha'
    rfl
  cases h
  case nop h => subst h; cases hi
  case badAxis h => rw [hi] at h; cases h; rw [axisOf_three] at ha; cases ha
  case illegalOp h => obtain rfl | rfl := h <;> cases hi
  case invalidArgument h _ => rw [hz] at h; cases h
  case failed axis' a' hi' ha' _ _ _ => obtain rfl := hsame hi' ha'; rfl
  case done axis' a' hi' ha' _ hok => obtain rfl := hsame hi' ha'; exact absurd (hok ht) hfail

section
variable {i : Instr} {s : State} {axis : BitVec 2} {a : Axis} {good : List Draw} {p : Pend} {e : Engine} {d : Draw}
  {rest : List Draw}
variable (hi : axisOperand i = some axis) (ha : axisOf axis = some a) (hz : zeroWrnz i = false)
  (hlt : good.length < txnCount i) (hq : s.world.busq = good ++ d :: rest) (h : AfterClean i a s good p e)
include hi ha hz hlt hq h

/-- When transaction `good.length` leaves a code that is not OK, the op ends with its triple and none of the others runs. -/
theorem exec_of_opTxn_failed {p' : Pend} {e' : Engine} {m : Nat}
    (htxn : opTxn i a good.length (inOp a p e (d :: rest) (1 + grantedSum s.cfg good) s) =
      inOp a p' e' rest (1 + grantedSum s.cfg good + m) s) (hcode : e'.last.code ≠ .ok) :
    let u := passCycles (2 + grantedSum s.cfg good + m) s
    exec i s = .next (ended (codeBits e'.last.code) (rxData e'.last.rx) (rxStatus e'.last.rx) (pendBits e'.last.prev) e'
      rest (u.setAx a { u.ax a with pend := p' })) := by
  have hc := isCommand_of_axisOperand hi
  obtain ⟨r, hr⟩ : ∃ r, txnCount i = good.length + (r + 1) := ⟨txnCount i - good.length - 1, by omega⟩
  have hlast : lastOk (inOp a p' e' rest (1 + grantedSum s.cfg good + m) s) = false := by simp [lastOk, hcode]
  have hrun : opTxns i a (passCycles 1 s) = inOp a p' e' rest (1 + grantedSum s.cfg good + m) s := by
    rw [← opLoop_eq i a _ hc, hr, h.runs _ _ hq, opLoop_succ]
    dsimp only
    rw [htxn, ifOk_neg hlast]
  have hn : 1 + grantedSum s.cfg good + m + 1 = 2 + grantedSum s.cfg good + m := by omega
  obtain ⟨t, ht, hend⟩ := exec_command i s hc
  rw [ht, hend.of_failed hi ha hz (by omega) (by rw [hrun, inOp_eng]; exact hcode), hrun, failTxn_respCycle_inOp, hn]

theorem exec_of_timeout (hw : s.cfg.txnTimeout ≤ d.wait) :
    let u := passCycles (2 + grantedSum s.cfg good + s.cfg.txnTimeout) s
    exec i s = .next (ended 1#3 0#32 0#8 (pendBits p) { e with toCnt := s.cfg.txnTimeout, last := ⟨.busTimeout, 0#40, p⟩ }
      rest (u.setAx a { u.ax a with pend := p })) := by
  have hdata : rxData 0#40 = 0#32 := by decide
  have hstatus : rxStatus 0#40 = 0#8 := by decide
  rw [← hdata, ← hstatus]
  exact exec_of_opTxn_failed hi ha hz hlt hq h (opTxn_inOp_timeout hw) (by simp)

theorem exec_of_unexpectedEcho (hw : d.wait < s.cfg.txnTimeout) (hecho : d.unexpected = true) :
    let g := datagramWith i a good.length e.tmp0 s
    let u := passCycles (2 + grantedSum s.cfg good + grantedCycles s.cfg d.wait) s
    exec i s = .next (ended 2#3 (rxData d.reply) (rxStatus d.reply) (pendBits p)
      { afterTxn g.1 g.2.1 g.2.2 d p e with last := ⟨.unexpectedEcho, d.reply, p⟩ } rest
      (u.setAx a { u.ax a with pend := ⟨true, g.1, g.2.1⟩ })) :=
  exec_of_opTxn_failed hi ha hz hlt hq h (opTxn_inOp_unexpected hw hecho) (by simp)

end

/-- Time writes no record, so writing the old one back changes nothing. -/
theorem setAx_oldPend_passCycles (n : Nat) (s : State) (a : Axis) :
    (passCycles n s).setAx a { (passCycles n s).ax a with pend := (s.ax a).pend } = passCycles n s := by
  rw [← passCycles_pend n s a]
  exact State.setAx_ax ..

/-- Settles O20: no transaction stands before the first, so the record is the one before the op. -/
theorem firstTransactionTimedOut : Obligations.FirstTransactionTimedOut := by
  intro i s axis a d rest hi ha hz ht hq hw
  rw [exec_of_timeout (good := []) hi ha hz (Nat.pos_of_ne_zero ht) hq (afterClean_nil i a s) hw]
  simp only [grantedSum, Nat.add_zero, setAx_oldPend_passCycles]

@[simp] theorem ended_gateCnt (code : BitVec 3) (data : Word) (status : BitVec 8) (prev : BitVec 9) (e : Engine)
    (draws : List Draw) (u : State) : (ended code data status prev e draws u).gateCnt = u.gateCnt := rfl

/-- Settles O21: the first transaction's datagram is the op's datagram 0 in the state before the op. -/
theorem firstEchoUnexpected : Obligations.FirstEchoUnexpected := by
  intro i s axis a d rest hi ha hz ht hq hw hecho
  refine ⟨_, exec_of_unexpectedEcho (good := []) hi ha hz (Nat.pos_of_ne_zero ht) hq (afterClean_nil i a s) hw hecho, rfl, rfl,
    rfl, ?_⟩
  simp only [grantedSum, Nat.add_zero]
  refine ⟨by simp, ?_, fun b hb => ?_⟩
  · rw [ended_ax, State.ax_setAx_same]
    rfl
  · rw [ended_ax, State.ax_setAx_ne _ _ hb]

/-- Settles O22: the clean draws bring the op to a known state, in which the failing transaction ends it. -/
theorem laterTransactionFails : Obligations.LaterTransactionFails := by
  intro i s axis a good d rest hi ha hz hne hlt hclean hd hq k sent before u
  obtain ⟨p, e, h⟩ := exists_afterClean a good hlt hclean
  obtain ⟨j, hj⟩ : ∃ j, good.length = j + 1 := Nat.exists_eq_succ_of_ne_zero (by simpa using hne)
  obtain ⟨hp, htx⟩ := h.sent j hj (wordRead good)
  have hbefore : p = before := by
    rw [hp]; simp only [before, k, hj, Nat.add_sub_cancel]; rfl
  have hsent : e.txSr = datagram (sent (k - 1)).1 (sent (k - 1)).2.1 (sent (k - 1)).2.2 := by
    rw [htx]; simp only [k, hj, Nat.add_sub_cancel]; rfl
  have hlast : datagramWith i a k e.tmp0 s = sent k := datagramWith_eq s h.word
  by_cases hw : s.cfg.txnTimeout ≤ d.wait
  · have hu : u = passCycles (2 + grantedSum s.cfg good + s.cfg.txnTimeout) s := by
      simp only [u, txnCycles, granted, Nat.not_lt.2 hw, decide_false, Bool.false_eq_true, if_false]
    refine ⟨_, exec_of_timeout hi ha hz hlt hq h hw, ?_⟩
    rw [← hu, hbefore]
    refine ⟨rfl, by simp, fun b hb => ?_, fun _ => ⟨rfl, ?_, hsent⟩, fun h => absurd hw (Nat.not_le.2 h)⟩
    · rw [ended_ax, State.ax_setAx_ne _ _ hb]
    · rw [ended_ax, State.ax_setAx_same]
  · have hw : d.wait < s.cfg.txnTimeout := Nat.not_le.1 hw
    have hecho : d.unexpected = true := by simpa [CleanDraw, hw] using hd
    have hu : u = passCycles (2 + grantedSum s.cfg good + grantedCycles s.cfg d.wait) s := by
      simp only [u, txnCycles, granted, hw, decide_true, if_true]
    refine ⟨_, exec_of_unexpectedEcho hi ha hz hlt hq h hw hecho, ?_⟩
    rw [← hu, hlast, hbefore]
    refine ⟨rfl, by simp, fun b hb => ?_, fun h => absurd hw (Nat.not_lt.2 h), fun _ => ⟨rfl, ?_, rfl⟩⟩
    · rw [ended_ax, State.ax_setAx_ne _ _ hb]
    · rw [ended_ax, State.ax_setAx_same]

/-! ### What a failed command leaves alone (R334) -/

/-- The registers `x` of axis `b` after the op's cycles in which `pend` alone, and only of the op's own axis, was written. -/
def OnlyOwnPend (i : Instr) (s : State) (b : Axis) (x : AxisRegs) : Prop :=
  x = { (passCycles (opCycles i s) s).ax b with pend := x.pend } ∧
    (axisOperand i ≠ some (axisBits b) → x.pend = (s.ax b).pend)

/-- A command whose check failed has let its two cycles pass. -/
theorem onlyOwnPend_of_two {i : Instr} {s : State} (b : Axis) (h : opCycles i s = 2) :
    OnlyOwnPend i s b ((passCycles 2 s).ax b) := by
  rw [OnlyOwnPend, h]
  exact ⟨rfl, fun _ => passCycles_pend ..⟩

/-- Of the ends of a command, those without an OK write no register of an axis but `pend`. -/
theorem CommandEnd.onlyOwnPend {i : Instr} {s t : State} (h : CommandEnd i s t) (hc : isCommand i = true)
    (hf : t.rsp.code ≠ 0#3) (b : Axis) : OnlyOwnPend i s b (t.ax b) := by
  cases h
  case nop => exact absurd rfl hf
  case badAxis h =>
    rw [ended_ax]
    exact onlyOwnPend_of_two b (opCycles_two (.inl h))
  case illegalOp h =>
    have hcount : txnCount i = 0 := by obtain rfl | rfl := h <;> rfl
    rw [ended_ax]
    exact onlyOwnPend_of_two b (opCycles_two (.inr (.inr hcount)))
  case invalidArgument h _ =>
    rw [ended_ax]
    exact onlyOwnPend_of_two b (opCycles_two (.inr (.inl h)))
  case failed axis a hi ha hz _ _ =>
    rw [failTxn_ax, OnlyOwnPend, opCycles_ok hi ha hz]
    refine ⟨(atResp_timed i a s hc).ax b, fun hb => atResp_pend i a b s ?_⟩
    rintro rfl
    exact hb (hi.trans (congrArg some ((axisOf_some_iff axis b).1 ha)))
  case done => exact absurd (opCommit_rspCode ..) hf

/-- Settles O23: time writes of an axis only the filter's request. -/
theorem failedCommandsArePrecise : Obligations.FailedCommandsArePrecise := by
  intro i s t hc ht hf b
  obtain ⟨t', ht', hend⟩ := exec_command i s hc
  obtain rfl : t' = t := Host.Outcome.next.inj (ht'.symm.trans ht)
  obtain ⟨hax, hpend⟩ := hend.onlyOwnPend hc hf b
  refine ⟨hax.trans ?_, hpend⟩
  have htime : SameButRequest ((passCycles (opCycles i s) s).ax b) (s.ax b) := passCycles_ax ..
  rw [SameButRequest] at htime
  rw [htime]

end Sys2Proof.Machine
end

section
/-! SUPPORT. Proofs about 70_reset_and_hazards.md: reset (R370, R371, R375), the axes an op does not name (R381), and how long an op
and a re-issue last (R395, R396). -/

namespace Sys2Proof.Machine

/-! ### The values of a reset (R371) -/

@[simp] theorem resetWith_ax (p : Params) (w : World) (a : Axis) : (State.resetWith p w).ax a = AxisRegs.reset := by
  cases a <;> rfl

@[simp] theorem resetRegs_ax (s : State) (a : Axis) : (resetRegs s).ax a = AxisRegs.reset := resetWith_ax ..

/-- The live elements read 0 too: `swap_dir` and `oflags` are 0. -/
theorem telemetry_reset : telemetry AxisRegs.reset = 0#25 := by decide

/-- Right after a reset the ports show the reset values, whether or not `rst` is still 1. -/
theorem shown_resetRegs (s : State) : shown (resetRegs s) = resetRegs s := by
  unfold shown
  split <;> rfl

theorem enPin_resetRegs (s : State) (a : Axis) : enPin (resetRegs s) a = s.cfg.enActiveLow := by
  rw [enPin, shown_resetRegs, resetRegs_ax]
  exact Bool.false_xor _

/-- A reset leaves nothing of the registers: what it makes depends on the parameters and the world. -/
theorem resetRegs_congr {s t : State} (hc : t.cfg = s.cfg) (hw : t.world = s.world) : resetRegs t = resetRegs s := by
  rw [resetRegs, resetRegs, hc, hw]

/-- Settles O1: the registers are those of the reset state by definition; the ports are computed from them. -/
theorem resetGivesEveryRegisterItsValue : Obligations.ResetGivesEveryRegisterItsValue := by
  intro s
  refine ⟨fun a => ?_, rfl, rfl, rfl, rfl, rfl, rfl, rfl, rfl, rfl, rfl, rfl, rfl, rfl, rfl, rfl, rfl, rfl, rfl,
    fun t hc hw => resetRegs_congr hc hw⟩
  rw [enPin_resetRegs, resetRegs_ax, telemetry_reset]
  exact ⟨rfl, rfl, rfl, rfl, rfl, rfl, rfl, rfl, rfl, rfl, rfl, rfl, rfl, rfl⟩

/-! ### A cycle with `rst = 1` (R370) -/

theorem shown_of_resetDue {s : State} (h : resetDue s = true) : shown s = resetRegs s := if_pos h

theorem step_of_resetDue {s : State} (h : resetDue s = true) : step s = .next (resetCycle s) := if_pos h

/-- The step of such a cycle, register by register: a command stays on the port and a strobe is dropped. -/
theorem resetCycle_registers (s : State) :
    (resetCycle s).cfg = s.cfg ∧ (resetCycle s).axes = (resetRegs s).axes ∧ (resetCycle s).eng = (resetRegs s).eng ∧
      (resetCycle s).rsp = (resetRegs s).rsp ∧ (resetCycle s).gateCnt = (resetRegs s).gateCnt ∧
      (resetCycle s).world.hostq = s.world.hostq ∧ (resetCycle s).world.joyq = skipStrobe s.world.joyq := by
  obtain ⟨hhost, _, hjoy, _⟩ := resetCycle_scripts s
  obtain ⟨w, hw⟩ := resetCycle_reset s
  refine ⟨?_, ?_, ?_, ?_, ?_, hhost, hjoy⟩
  all_goals rw [hw]; rfl

/-- During reset the bus idles, whatever the engine is doing. -/
theorem bus_of_resetDue {s : State} (h : resetDue s = true) :
    (∀ a, csN s a = true) ∧ sck s = true ∧ mosi s = false ∧ busReq s = false := by
  simp [csN, sck, mosi, busReq, h]

/-- During reset the per-axis ports show the reset values. -/
theorem axisPorts_of_resetDue {s : State} (h : resetDue s = true) (a : Axis) :
    telPort s a = 0#25 ∧ sgPort s a = 0#10 ∧ joyCodePort s a = 0#3 ∧ enPin s a = s.cfg.enActiveLow := by
  rw [telPort, sgPort, joyCodePort, enPin, shown_of_resetDue h, resetRegs_ax, telemetry_reset]
  exact ⟨rfl, rfl, rfl, Bool.false_xor _⟩

/-- Settles O2: the reset is the first branch of the clock edge, of the step and of every port. -/
theorem resetSignalWinsInAnyCycle : Obligations.ResetSignalWinsInAnyCycle := by
  refine ⟨fun p s h => if_pos h, fun s h => ?_⟩
  obtain ⟨hcs, hsck, hmosi, hreq⟩ := bus_of_resetDue h
  have hready : cmdReady s = false := by simp [cmdReady, h]
  have hbusy : busy s = false := by simp [busy, h]
  have hvalid : rspValid s = false := by rw [rspValid, shown_of_resetDue h]; rfl
  exact ⟨⟨_, step_of_resetDue h, resetCycle_registers s⟩, hready, hbusy, hvalid, hcs, hsck, hmosi, hreq,
    axisPorts_of_resetDue h⟩

/-- Settles O15: the reset values have it for all legal parameters, the defaults among them. -/
theorem theInvariantHoldsAtReset : Obligations.TheInvariantHoldsAtReset :=
  ⟨.resetWith (by decide) _, fun _ w h => .resetWith h w⟩

/-! ### The first cycles after a reset (R375, R293) -/

theorem lowestPending_resetWith (p : Params) (w : World) : lowestPending (State.resetWith p w) = none := rfl

theorem cmdReady_resetWith {p : Params} {w : World} (h : resetDue (State.resetWith p w) = false) :
    cmdReady (State.resetWith p w) = true := (cmdReady_iff _).2 ⟨h, rfl, lowestPending_resetWith p w⟩

/-- With no strobe on the script, cycles only count the gate down. -/
theorem gateOpen_passCycles_of_no_strobe {s : State} (h : s.world.joyq = []) (n : Nat) :
    gateOpen (passCycles n s) = (decide (s.gateCnt - n = 0) && !anyPending s) := by
  rw [passCycles, h]; rfl

/-- Settles O3: the gate is loaded with `SAMPLE_CYCLES − 1` and no request waits. -/
theorem readyAtOnceAndGateClosedAfterReset : Obligations.ReadyAtOnceAndGateClosedAfterReset := by
  intro p w hr
  have hready := cmdReady_resetWith hr
  refine ⟨hready, fun hcmd => ?_, fun n hn => ?_, fun hq n => ?_⟩
  · rw [accepts, hready, hcmd]; rfl
  · have hcount : n + 1 ≤ (State.resetWith p w).gateCnt := hn
    exact GateShutFor.gateOpen_passCycles (.inr hcount)
  · have hopen : gateOpen (passCycles n (State.resetWith p w)) = decide (sampleCycles p - 1 - n = 0) :=
      (gateOpen_passCycles_of_no_strobe hq n).trans (Bool.and_true _)
    rw [hopen, decide_eq_decide]
    exact Nat.sub_eq_zero_iff_le

/-! ### The axes an op does not name (R381) -/

/-- A commit writes no axis but the op's own. -/
theorem opCommit_ax_ne (i : Instr) {a b : Axis} (s : State) (h : b ≠ a) : (opCommit i a s).ax b = s.ax b := by
  cases i
  case poll | pollsg | pollsw | pwr | swap | flags | joycfg => exact (respond_ax ..).trans (State.ax_setAx_ne _ _ h)
  all_goals exact respond_ax ..

/-- Whichever way a command ends, an axis that is not its own is what the op's cycles alone make of it. -/
theorem CommandEnd.ax_of_other {i : Instr} {s t : State} {b : Axis} (h : CommandEnd i s t) (hc : isCommand i = true)
    (hb : axisOperand i ≠ some (axisBits b)) : t.ax b = (passCycles (opCycles i s) s).ax b := by
  have hne {axis : BitVec 2} {a : Axis} (hi : axisOperand i = some axis) (ha : axisOf axis = some a) : b ≠ a := by
    rintro rfl
    exact hb (hi.trans (congrArg some ((axisOf_some_iff axis b).1 ha)))
  cases h
  case nop h => rw [ended_ax, opCycles_two (.inr (.inr (by rw [h]; rfl)))]
  case badAxis h => rw [ended_ax, opCycles_two (.inl h)]
  case illegalOp h =>
    have hcount : txnCount i = 0 := by obtain rfl | rfl := h <;> rfl
    rw [ended_ax, opCycles_two (.inr (.inr hcount))]
  case invalidArgument h _ => rw [ended_ax, opCycles_two (.inr (.inl h))]
  case failed axis a hi ha hz _ _ =>
    rw [failTxn_ax, opCycles_ok hi ha hz, (atResp_timed i a s hc).ax_ne (hne hi ha)]
  case done axis a hi ha hz _ =>
    rw [opCommit_ax_ne i _ (hne hi ha), opCycles_ok hi ha hz, (atResp_timed i a s hc).ax_ne (hne hi ha)]

/-- Settles O49: such an axis is as time leaves it, and time writes of an axis only the filter's request. -/
theorem otherAxesAreUntouched : Obligations.OtherAxesAreUntouched := by
  intro i s t b hc hb ht
  obtain ⟨t', ht', hend⟩ := exec_command i s hc
  obtain rfl : t' = t := Host.Outcome.next.inj (ht'.symm.trans ht)
  have hax := hend.ax_of_other hc hb
  refine ⟨hax, ?_⟩
  rw [hax]
  exact passCycles_ax ..

/-! ### The length of an op and of a re-issue (R395, R396) -/

/-- Transactions on scripted clean draws all run, each granted after its draw's wait. -/
theorem txnsCycles_of_clean {k : Nat} {s : State} (hk : k ≤ s.world.busq.length)
    (hclean : ∀ d ∈ s.world.busq, CleanDraw s.cfg d) :
    txnsCycles k s = grantedSum s.cfg (s.world.busq.take k) := by
  induction k generalizing s with
  | zero => rfl
  | succ k ih =>
    cases hq : s.world.busq with
    | nil => simp [hq] at hk
    | cons d rest =>
      rw [hq] at hk hclean
      obtain ⟨hwait, hecho⟩ := hclean d List.mem_cons_self
      have hrest := ih (s := dropDraw s) (by rw [dropDraw_scripted hq]; exact Nat.le_of_succ_le_succ hk)
        (by rw [dropDraw_scripted hq]; exact fun g hg => hclean g (List.mem_cons_of_mem _ hg))
      rw [dropDraw_scripted hq] at hrest
      simp only [txnsCycles, nextDraw_scripted hq, dropDraw_scripted hq, txnCycles, granted, hwait, hecho, hrest,
        List.take_succ_cons, grantedSum, decide_true, Bool.not_false, Bool.and_self, if_true]

/-- At the default timing an immediately granted transaction takes 329 cycles. -/
theorem grantedSum_default {ds : List Draw} (h : ∀ d ∈ ds, d.wait = 0) :
    grantedSum Params.default ds = 329 * ds.length := by
  induction ds with
  | nil => rfl
  | cons d ds ih =>
    have hd : grantedCycles Params.default d.wait = 329 := by rw [h d List.mem_cons_self]; rfl
    rw [grantedSum, hd, ih fun g hg => h g (List.mem_cons_of_mem _ hg), List.length_cons]
    omega

theorem txnsCycles_default {k : Nat} {s : State} (hcfg : s.cfg = Params.default) (hk : k ≤ s.world.busq.length)
    (hdraws : ∀ d ∈ s.world.busq, d.wait = 0 ∧ d.unexpected = false) : txnsCycles k s = 329 * k := by
  have hclean : ∀ d ∈ s.world.busq, CleanDraw s.cfg d := fun d hd => by
    obtain ⟨hwait, hecho⟩ := hdraws d hd
    exact ⟨by rw [hwait, hcfg]; decide, hecho⟩
  rw [txnsCycles_of_clean hk hclean, hcfg, grantedSum_default fun d hd => (hdraws d (List.mem_of_mem_take hd)).1,
    List.length_take, Nat.min_eq_left hk]

theorem commandTxns_le (w : Command) : commandTxns w ≤ 6 := by
  have hcount : ∀ i, txnCount i ≤ 6 := fun i => by cases i <;> simp [txnCount]
  unfold commandTxns
  split
  · exact hcount _
  · exact Nat.zero_le _

/-- An idle engine's step that no reset cuts short lasts what the engine does next. -/
theorem stepSpan_eq_opSpan {s : State} (hr : resetDue s = false) (hs : s.eng.state = .idle) (hc : cutShort s = false) :
    stepSpan s = opSpan s := by
  simp [stepSpan, hr, hs, hc]

theorem stepSpan_command {s : State} {w : Command} (hr : cmdReady s = true) (hc : cutShort s = false)
    (hw : commandOnPort s = some w) : stepSpan s = 2 + txnsCycles (commandTxns w) s := by
  obtain ⟨hr, hs, hp⟩ := (cmdReady_iff s).1 hr
  rw [stepSpan_eq_opSpan hr hs hc]
  simp only [opSpan, hp, hw]

theorem stepSpan_reissue {s : State} {a : Axis} (hs : s.eng.state = .idle) (hc : cutShort s = false)
    (hp : lowestPending s = some a) : stepSpan s = 2 + txnsCycles 2 s := by
  rw [stepSpan_eq_opSpan (resetDue_of_reissue_not_cutShort hp hc) hs hc]
  simp only [opSpan, hp]

/-- Settles O59: the span is two cycles and 329 for each transaction, whose number the op field alone gives; a re-issue has
two. -/
theorem opLengthsAreTheTable : Obligations.OpLengthsAreTheTable := by
  refine ⟨fun s w hcfg hr hc hw hlen hdraws => ?_, fun s hcfg hs hr _ hc hpend hlen hdraws => ?_⟩
  · rw [stepSpan_command hr hc hw, txnsCycles_default hcfg ((commandTxns_le w).trans hlen) hdraws, commandTxns]
    cases check (opField w) (axisField w) (dataField w) with
    | error c => rfl
    | ok a =>
      have hlt := (opField w).isLt
      unfold decodeCommand
      interval_cases (opField w).toNat <;> rfl
  · obtain ⟨a, ha⟩ := exists_lowestPending hpend
    have hready : cmdReady s = false := by simp [cmdReady, engineFree, hpend]
    rw [cycle_reissue hs ha hr, stepSpan_reissue hs hc ha, txnsCycles_default hcfg hlen hdraws]
    exact ⟨hready, rfl, rfl, rfl⟩

end Sys2Proof.Machine
end
